-- ==== Sys2Proof/Word.lean ====
section
/-! DEFINITION. The widths of the block's values (spec/00_scope.md R9, R10). -/

namespace Sys2Proof

/-- A byte, bit 0 its least significant bit (R9). -/
abbrev Byte := BitVec 8

/-- A position, length or size: `AW` is 32 (R8, R10). -/
abbrev Word := BitVec 32

/-- A nibble, 4 bits (R9). -/
abbrev Nibble := BitVec 4

/-- An LZW code zero-extended to 13 bits (R94, R106); also what the micro-operations return at most (R132). -/
abbrev Code := BitVec 13

/-- An index into the Huffman node table (R39). -/
abbrev NodeIdx := BitVec 8

end Sys2Proof
end

