-- ==== Sys2Proof/Config.lean ====
section
/-! DEFINITION. The constants the spec fixes (spec/00_scope.md R7, R8) and the values it leaves open. -/

namespace Sys2Proof.Config

/-- `LZW_MIN_WIDTH` (R7). -/
def lzwMinWidth : Nat := 9
/-- `LZW_MAX_WIDTH` (R7). -/
def lzwMaxWidth : Nat := 13
/-- `LZW_DICT_SIZE` (R7); also the bytes of `MATCH` (R38). -/
def lzwDictSize : Nat := 8192
/-- `LZW_RESET` (R7). -/
def lzwReset : Nat := 256
/-- `LZW_END` (R7). -/
def lzwEnd : Nat := 257
/-- `LZW_FIRST_INDEX` (R7). -/
def lzwFirstIndex : Nat := 257
/-- `HUF_NODE_CAP` (R7). -/
def hufNodeCap : Nat := 256
/-- `SDD_INIT_WIDTH` (R7). -/
def sddInitWidth : Nat := 8
/-- `SDD_MIN_WIDTH` (R7). -/
def sddMinWidth : Nat := 1
/-- `SDD_MAX_WIDTH` (R7). -/
def sddMaxWidth : Nat := 9
/-- `SDD_MIN_RUN` (R7). -/
def sddMinRun : Nat := 1
/-- The largest `IN_LEN` inside the block's contract, `2^32 - 4` (R8, R32). -/
def maxInLen : Nat := 2 ^ 32 - 4

/-- What an `IN` or `OUT` byte that nothing has placed or written reads as.
DESIGN CHOICE (log 3), unsafe: the spec gives the two spaces no contents of their own. -/
def blank : Byte := 0

/-- The values the spec calls "any value (a draw per read)": reads of results while busy (U1), of `OUT` while
busy (U2) and after a reset during a command (U8). The n-th draw of a run is `freeWord n`; nothing constrains it
(logs 8, 9, 10). -/
opaque freeWord : Nat → Word

end Sys2Proof.Config
end

