-- ==== Sys2Proof/Machine/Mem.lean ====
section
/-! DEFINITION. The two data shapes State stores by key: the byte spaces `IN` and `OUT`
(spec/10_state.md R41) and the tables `DICT` and `NODE` (R37, R39), each a list in one canonical form. -/

namespace Sys2Proof.Machine

/-- A byte space: (index, byte) pairs, indices strictly rising, no byte that an unlisted index reads as. -/
abbrev Memory := List Host.Cell

/-- Is a list of keys strictly rising? -/
def rising : List Nat → Bool
  | [] => true
  | [_] => true
  | a :: b :: rest => decide (a < b) && rising (b :: rest)

/-- The canonical form of a byte space. -/
def Memory.wf (m : Memory) : Bool :=
  rising (m.map Prod.fst) && m.all (fun c => c.2 != Config.blank)

/-- The byte at an index (`MemRead`, R11); an unlisted index reads `Config.blank`. -/
def memRead : Memory → Nat → Byte
  | [], _ => Config.blank
  | (b, w) :: rest, a => if b = a then w else memRead rest a

/-- The cell for an index, or nothing where the byte is what an unlisted index reads as. -/
def cellFor (a : Nat) (v : Byte) : Memory :=
  if v = Config.blank then [] else [(a, v)]

/-- Writes one byte (`MemWrite`, R11), keeping the canonical form. -/
def memWrite : Memory → Nat → Byte → Memory
  | [], a, v => cellFor a v
  | (b, w) :: rest, a, v =>
    if a < b then cellFor a v ++ (b, w) :: rest
    else if a = b then cellFor a v ++ rest
    else (b, w) :: memWrite rest a v

/-- Writes bytes at rising indices from `a`. -/
def memWriteAll : Memory → Nat → List Byte → Memory
  | m, _, [] => m
  | m, a, v :: rest => memWriteAll (memWrite m a v) (a + 1) rest

/-- A table: (index, entry) pairs, indices strictly rising. An unlisted index holds no value (U5). -/
abbrev Table (α : Type) := List (Nat × α)

/-- The canonical form of a table. -/
def Table.wf {α : Type} (t : Table α) : Bool :=
  rising (t.map Prod.fst)

/-- The entry at an index, if one was written. -/
def tableGet {α : Type} : Table α → Nat → Option α
  | [], _ => none
  | (j, a) :: rest, i => if j = i then some a else tableGet rest i

/-- Writes the entry at an index, keeping the canonical form. -/
def tableSet {α : Type} : Table α → Nat → α → Table α
  | [], i, a => [(i, a)]
  | (j, b) :: rest, i, a =>
    if i < j then (i, a) :: (j, b) :: rest
    else if i = j then (i, a) :: rest
    else (j, b) :: tableSet rest i a

/-- A node of the Huffman tree (R39): its value and its children, each absent or a node index. -/
structure Node where
  left : Option NodeIdx
  right : Option NodeIdx
  value : BitVec 7
deriving DecidableEq, Repr

/-- "a node with no further children" (R18). -/
def isLeaf (n : Node) : Bool := n.left.isNone && n.right.isNone

/-- The child a path bit selects: 0 left, 1 right (R98). -/
def childOf (n : Node) (d : Bool) : Option NodeIdx := if d then n.right else n.left

end Sys2Proof.Machine
end

