-- ==== Sys2Proof/Syntax.lean ====
section
/-! DEFINITION. The three layers of instructions (spec/00_scope.md R2): one constructor per row of
spec/opcode_table.json. -/

namespace Sys2Proof

/-- The reading discipline of the bit cursor (R21, R23). -/
inductive CursorMode where
  /-- Whole bytes (`BYTE`). -/
  | byte
  /-- Least significant bit first (`LSB`, R67). -/
  | lsb
  /-- Most significant bit first (`MSB`, R68). -/
  | msb
deriving DecidableEq, Repr

/-- The instructions: commands, cursor micro-operations and stream symbols. A symbol's operands are its fields of
spec/30_encoding.md (R93 to R105). -/
inductive Instr where
  /-- `DEC_LZW` (R262); its operands are the parameter registers. -/
  | decLzw
  /-- `DEC_HUF` (R263). -/
  | decHuf
  /-- `DEC_SDD` (R264). -/
  | decSdd
  /-- `DEC_NDU` (R265). -/
  | decNdu
  /-- `CURSOR_INIT(start, m)` (R130). -/
  | cursorInit (start : Word) (m : CursorMode)
  /-- `FETCHB` (R131). -/
  | fetchb
  /-- `RDBITS_L n` (R132). -/
  | rdbitsL (n : Nat)
  /-- `RDBIT_M` (R133). -/
  | rdbitM
  /-- `RDBITS_M n` (R134). -/
  | rdbitsM (n : Nat)
  /-- `LZW.END`, code 257 (R155). -/
  | lzwEnd
  /-- `LZW.CORRUPT`, a code above `nextIndex` (R156). -/
  | lzwCorrupt (c : Code)
  /-- `LZW.RESET`, code 256 (R157). -/
  | lzwReset
  /-- `LZW.LIT`, code 0 to 255 (R158). -/
  | lzwLit (b : Byte)
  /-- `LZW.REF`, a built entry (R159). -/
  | lzwRef (c : Code)
  /-- `LZW.KWKWK`, the entry about to be created (R160). -/
  | lzwKwkwk (c : Code)
  /-- `HUF.NODE v, l, r` (R96, R182). -/
  | hufNode (v : BitVec 7) (l r : Bool)
  /-- `HUF.SAMPLE s, path`; `true` is sign 1, and right (1) on the path (R98, R187). -/
  | hufSample (sign : Bool) (path : List Bool)
  /-- `SDD.HDR m` (R99, R211). -/
  | sddHdr (m : Byte)
  /-- `SDD.INIT a` (R100, R214). -/
  | sddInit (a : Byte)
  /-- `SDD.ESC`, the value word 0 (R216). -/
  | sddEsc
  /-- `SDD.HOLD`, a value word with its top bit set (R218). -/
  | sddHold (v : BitVec 9)
  /-- `SDD.DELTA`, any other non-zero value word (R219). -/
  | sddDelta (v : BitVec 9)
  /-- `NDU.LIT b` (R243). -/
  | nduLit (b : Byte)
  /-- `NDU.ESC seed, count` (R244). -/
  | nduEsc (seed : Byte) (count : BitVec 16)
  /-- `NDU.PAIR h, l` (R245). -/
  | nduPair (h l : Nibble)
deriving DecidableEq, Repr

end Sys2Proof
end

