-- ==== Sys2Proof/Machine/State.lean ====
section
/-! DEFINITION. The state of the block (spec/10_state.md), what a step can stop with, and the state after reset
(R44). INVENTORY.md lists every field with its rule and its reset value. -/

namespace Sys2Proof.Machine

/-- The bit cursor (R21). Its input is borrowed, not state. -/
structure Cursor where
  bytePos : Word
  bitBuffer : BitVec 32
  bitsAvailable : BitVec 6
  mode : CursorMode
  exhausted : Bool
deriving DecidableEq, Repr

/-- The engine's control state: which command runs and which step of its loop is next (R24). -/
inductive Phase where
  /-- No command runs (R20). -/
  | idle
  /-- `DEC_LZW`, at the loop head of R152. -/
  | lzwCode
  /-- `DEC_HUF`, at a call of `Build` (R182). -/
  | hufNode
  /-- `DEC_HUF`, at the sample loop head (R186). -/
  | hufSample
  /-- `DEC_SDD`, before its header byte (R211). -/
  | sddHdr
  /-- `DEC_SDD`, before its initial value (R214). -/
  | sddInit
  /-- `DEC_SDD`, at the loop head of R215. -/
  | sddWord
  /-- `DEC_NDU`, in scan state (R242). -/
  | nduScan
  /-- `DEC_NDU`, in run state (R245). -/
  | nduRun
deriving DecidableEq, Repr

/-- `STATUS.OUTCOME` (R33). Code 3 is never produced, so it has no constructor. -/
inductive DecodeOutcome where
  | success
  | partialResult
  | invalidTree
deriving DecidableEq, Repr

/-- `STATUS.STOP_CAUSE` (R34). Code 7 is never produced, so it has no constructor. -/
inductive StopCause where
  | none
  | full
  | exhausted
  | endCode
  | corrupt
  | invalidTree
  | nodeRange
deriving DecidableEq, Repr

/-- The parameter registers, numbers 1 to 4 (R30, R32); `ESCAPE` keeps its bits [7:0] alone. -/
structure Params where
  inLen : Word
  startOffset : Word
  reqSize : Word
  escape : Byte
deriving DecidableEq, Repr

/-- `STATUS` (R33). -/
structure Status where
  busy : Bool
  done : Bool
  outcome : DecodeOutcome
  cause : StopCause
deriving DecidableEq, Repr

/-- A built entry of the LZW dictionary (R37). -/
structure DictEntry where
  prefixCode : Code
  value : Byte
deriving DecidableEq, Repr

/-- The LZW unit (R25, R37, R38). `scratch` is `MATCH[w .. 8191]` as the last string resolution left it. -/
structure LzwUnit where
  codeWidth : BitVec 4
  nextIndex : BitVec 14
  prevCode : Code
  dict : Table DictEntry
  scratch : List Byte
deriving DecidableEq, Repr

/-- Which child of a node under construction is being built (R40). -/
inductive Pending where
  /-- The left one; the right one is to follow, or not. -/
  | leftChild (rightToFollow : Bool)
  /-- The right one. -/
  | rightChild
deriving DecidableEq, Repr

/-- A slot of the construction stack (R40). -/
structure BuildFrame where
  node : NodeIdx
  pending : Pending
deriving DecidableEq, Repr

/-- The Huffman unit (R26, R39, R40). -/
structure HufUnit where
  nodeCount : BitVec 9
  runningValue : Byte
  curNode : NodeIdx
  signBit : Bool
  nodes : Table Node
  stack : List BuildFrame
deriving DecidableEq, Repr

/-- The sigma-delta unit (R27). -/
structure SddUnit where
  accumulator : Byte
  bitWidth : BitVec 4
  runCounter : Byte
  maxRunLength : Byte
  regionStart : Word
  effSize : Word
deriving DecidableEq, Repr

/-- The nibble-delta unit (R28). -/
structure NduUnit where
  accumulator : Byte
  count : BitVec 16
deriving DecidableEq, Repr

/-- What the platform binds the two ports to (open parameters of spec/92_eei_decisions.md): whether one memory
backs both, where each space starts in it, and how many writable bytes lie behind `OUT`. -/
structure Ports where
  oneMemory : Bool
  inBase : Nat
  outBase : Nat
  outRoom : Nat
deriving DecidableEq, Repr

/-- What the host can do (R275, R276, R334, R342). -/
inductive HostAction where
  /-- Writes a register; a write of register 0, `CMD`, issues a command. -/
  | writeReg (number : BitVec 3) (value : Word)
  /-- Reads a register into `hostData`. -/
  | readReg (number : BitVec 3)
  /-- Places bytes in `IN` from index 0 on. -/
  | placeInput (bytes : List Byte)
  /-- Binds the two ports. -/
  | bindPorts (p : Ports)
  /-- Reads a byte of the memory behind `OUT` into `hostData`. -/
  | readOut (index : Word)
  /-- Writes a byte of the memory behind `OUT`. -/
  | writeOut (index : Word) (value : Byte)
  /-- Asserts the reset input. -/
  | assertReset
  /-- Leaves the engine its step. -/
  | engine
deriving DecidableEq, Repr

/-- The machine. The fields from `host` on are the model's own (INVENTORY.md, logs 2, 8, 10, 13, 15, 17). -/
structure State where
  inSpace : Memory
  outSpace : Memory
  par : Params
  status : Status
  outLen : Word
  consumed : Word
  cur : Cursor
  phase : Phase
  lzw : LzwUnit
  huf : HufUnit
  sdd : SddUnit
  ndu : NduUnit
  ports : Ports
  host : List HostAction
  hostData : Word
  delivered : Code
  draws : Nat
  outOpen : List (Nat × Nat)
deriving DecidableEq, Repr

/-- The accesses that the spec says cannot be. The engine has no fault state (R299): no run from reset reaches one
of these, and each is safe (the model stops where the spec gives nothing). -/
inductive Fault where
  /-- `OutAppend` with `OUT_LEN >= REQ_SIZE` (R11, R66). Raised by the sample-producing symbols. Safe. -/
  | outputFull
  /-- A dictionary entry nothing has written is read (U5). Raised by `LZW.REF` and `LZW.KWKWK`. Safe. -/
  | dictUnwritten
  /-- A prefix chain longer than `MATCH` (R38). Raised by `LZW.REF` and `LZW.KWKWK`. Safe. -/
  | matchOverflow
  /-- A node slot nothing has written is read (U5). Raised by `HUF.NODE` (root check) and `HUF.SAMPLE`. Safe. -/
  | nodeUnwritten
  /-- A walk that visits more nodes than the table has slots (R194). Raised by `HUF.SAMPLE`. Safe. -/
  | walkTooLong
deriving DecidableEq, Repr

/-- The moves the spec refuses or gives no effect. -/
inductive Refusal where
  /-- An arm of `exec` that has no meaning yet. Safe. -/
  | notModelled (mnemonic : String)
  /-- A command issued with `IN_LEN > 2^32 - 4` (U3: "refuse"). Raised by the commands. Safe. -/
  | inLenAboveContract
  /-- A command issued with `IN` and `OUT` overlapping in one memory (U6: "refuse"). Raised by the commands. Safe. -/
  | portsOverlap
  /-- A command issued with fewer than `REQ_SIZE` bytes behind `OUT` (U7: "refuse"). Raised by the commands. Safe. -/
  | outputRoomTooSmall
  /-- The host changes `IN` while a command runs (U4: "if modelled at all, `refuse`"). Raised by a host action. Safe. -/
  | inputChangedWhileBusy
  /-- The host binds the ports anew while a command runs (R340, R343; log 12). Raised by a host action. Safe. -/
  | portsChangedWhileBusy
  /-- A micro-operation outside its cursor mode (R138: "unrepresentable or a refusal"). Raised by `FETCHB`, `RDBITS_L`,
  `RDBIT_M`, `RDBITS_M`. Safe. -/
  | wrongMode
  /-- A bit count outside the micro-operation's range (R132, R134, N20). Raised by `RDBITS_L`, `RDBITS_M`. Safe. -/
  | bitCountOutOfRange
  /-- A stop with no command running to end (log 15). Raised by the micro-operations. Safe. -/
  | noCommandRunning
  /-- A stream symbol outside its place in its command (log 16). Raised by the stream symbols. Safe. -/
  | outOfSequence
  /-- A path that the tree does not give (log 16). Raised by `HUF.SAMPLE`. Safe. -/
  | pathNotInTree
deriving DecidableEq, Repr

/-- The ports as `State.reset` binds them (log 13). -/
def Ports.separate : Ports := { oneMemory := false, inBase := 0, outBase := 0, outRoom := 2 ^ 32 }

/-- The machine right after reset (R44, R331). -/
def State.reset : State where
  inSpace := []
  outSpace := []
  par := { inLen := 0, startOffset := 0, reqSize := 0, escape := 0 }
  status := { busy := false, done := false, outcome := .success, cause := .none }
  outLen := 0
  consumed := 0
  cur := { bytePos := 0, bitBuffer := 0, bitsAvailable := 0, mode := .byte, exhausted := false }
  phase := .idle
  lzw := { codeWidth := 9, nextIndex := 257, prevCode := 0, dict := [], scratch := [] }
  huf := { nodeCount := 0, runningValue := 0, curNode := 0, signBit := false, nodes := [], stack := [] }
  sdd := { accumulator := 0, bitWidth := 8, runCounter := 0, maxRunLength := 1, regionStart := 0, effSize := 0 }
  ndu := { accumulator := 0, count := 0 }
  ports := Ports.separate
  host := []
  hostData := 0
  delivered := 0
  draws := 0
  outOpen := []

end Sys2Proof.Machine
end

