-- ==== Sys2Proof/Machine/Flags.lean ====
section
/-! DEFINITION. The block's flags: it has no condition codes (spec/10_state.md R36); what it has are `STATUS`'s
bits, the outcome computed at a stop (spec/60_exceptions.md R296) and the `done` line (R303). -/

namespace Sys2Proof.Machine

/-- The code of an outcome in `STATUS[3:2]` (R33). -/
def outcomeCode : DecodeOutcome → Nat
  | .success => 0
  | .partialResult => 1
  | .invalidTree => 2

/-- The code of a stop cause in `STATUS[6:4]` (R34). -/
def causeCode : StopCause → Nat
  | .none => 0
  | .full => 1
  | .exhausted => 2
  | .endCode => 3
  | .corrupt => 4
  | .invalidTree => 5
  | .nodeRange => 6

/-- The outcome of a stop, from its cause and the lengths alone (R296). -/
def outcomeOf (cause : StopCause) (outLen reqSize : Word) : DecodeOutcome :=
  if cause = .invalidTree then .invalidTree
  else if outLen = reqSize then .success
  else .partialResult

/-- The word of `STATUS` (R33): `BUSY` bit 0, `DONE` bit 1, `OUTCOME` bits [3:2], `STOP_CAUSE` bits [6:4], the rest 0. -/
def statusWord (st : Status) : Word :=
  BitVec.ofNat 32 (st.busy.toNat + 2 * st.done.toNat + 4 * outcomeCode st.outcome + 16 * causeCode st.cause)

/-- The word a read of `STATUS` returns while a command runs: `BUSY` 1, `DONE` 0, `OUTCOME` and `STOP_CAUSE` as drawn,
the rest 0 (R266, U1). -/
def busyStatusWord (draw : Word) : Word := 1 ||| (draw &&& 0x7C)

/-- The level of the `done` output line (R303). -/
def doneLine (s : State) : Bool := s.status.done

/-- `STATUS` at the issue of a command (R260). -/
def statusAtIssue (st : Status) : Status := { st with busy := true, done := false }

/-- `STATUS` at a stop (R300). -/
def statusAtStop (cause : StopCause) (outLen reqSize : Word) : Status :=
  { busy := false, done := true, outcome := outcomeOf cause outLen reqSize, cause := cause }

end Sys2Proof.Machine
end

