-- ==== Sys2Proof/Machine/Operands.lean ====
section
/-! DEFINITION. The operand forms: how each decoded field is extended and used (spec/30_encoding.md R106), and the
arithmetic on samples and counts (spec/00_scope.md R12 to R16). -/

namespace Sys2Proof.Machine

/-- `up4`: rounded up to a multiple of 4 (R11, R16). -/
def up4 (x : Nat) : Nat := (x + 3) - ((x + 3) % 4)

/-- A nibble read as signed, as the byte that adds it modulo 256 (`sext_4`, R13). -/
def nibbleDelta (n : Nibble) : Byte := n.signExtend 8

/-- The delta of a Huffman sample: the leaf's magnitude, complemented when the sign is 1 (R14). -/
def hufDelta (sign : Bool) (value : BitVec 7) : Byte :=
  if sign then (value.setWidth 8) ^^^ 0xFF else value.setWidth 8

/-- The magnitude of a sigma-delta value word, `v >> 1`, as the byte the add takes modulo 256 (R15, R106). -/
def sddMagnitude (v : BitVec 9) : Byte := (v >>> 1).setWidth 8

/-- The accumulator after a sigma-delta value word: bit 0 is the sign, 1 subtracts (R15, R217). -/
def sddSample (acc : Byte) (v : BitVec 9) : Byte :=
  if v.getLsbD 0 then acc - sddMagnitude v else acc + sddMagnitude v

/-- The header byte as the run length: 0 is read as 1 (R99, R211). -/
def runLengthOf (m : Byte) : Byte := if m = 0 then BitVec.ofNat 8 Config.sddMinRun else m

/-- The requested size after the clamp, in the naturals (R212). -/
def clampedSize (reqSize inLen regionStart : Word) : Word :=
  BitVec.ofNat 32 (min reqSize.toNat (8 * (inLen.toNat - regionStart.toNat)))

/-- The run count from its two bytes, high byte first (R105). -/
def runCount (hi lo : Byte) : BitVec 16 := (hi.setWidth 16 <<< 8) ||| lo.setWidth 16

end Sys2Proof.Machine
end

