-- ==== Sys2Proof/Machine/Ops.lean ====
section
/-! DEFINITION. The operations every unit shares: the bit cursor's micro-operations (spec/40_bitcursor.md), the
append to the output (spec/20_memory.md R66), the issue of a command (spec/45_commands.md R260) and the stop
(spec/60_exceptions.md R300). The block has no return from a stop (R304). -/

namespace Sys2Proof.Machine

/-! ## The bit cursor -/

/-- What a micro-operation gives: a value, or `Stop(EXHAUSTED)`; and the cursor as it leaves it (R131, R135). -/
inductive Delivery (α : Type) where
  | value (v : α) (c : Cursor)
  | exhausted (c : Cursor)
deriving DecidableEq, Repr

/-- `CURSOR_INIT` (R130). -/
def initCursor (start : Word) (m : CursorMode) : Cursor :=
  { bytePos := start, bitBuffer := 0, bitsAvailable := 0, mode := m, exhausted := false }

/-- `FETCHB` (R131): the one reader of `IN`. -/
def fetchByte (inp : Memory) (inLen : Word) (c : Cursor) : Delivery Byte :=
  if inLen.toNat ≤ c.bytePos.toNat then .exhausted { c with exhausted := true }
  else .value (memRead inp c.bytePos.toNat) { c with bytePos := c.bytePos + 1 }

/-- The refill loop of `RDBITS_L`: fetches while fewer than `n` bits are held, each byte put above those held. At
most `k` bytes are fetched; two are enough for the 13 bits a read may ask for (R132, R136). -/
def refill (inp : Memory) (inLen : Word) (n : Nat) : Nat → Cursor → Delivery Unit
  | 0, c => .value () c
  | k + 1, c =>
    if c.bitsAvailable.toNat < n then
      match fetchByte inp inLen c with
      | .exhausted c1 => .exhausted c1
      | .value b c1 =>
        refill inp inLen n k
          { c1 with
            bitBuffer := c1.bitBuffer ||| (b.setWidth 32 <<< c1.bitsAvailable.toNat)
            bitsAvailable := c1.bitsAvailable + 8 }
    else .value () c

/-- `RDBITS_L n` (R132). -/
def readBitsLsb (inp : Memory) (inLen : Word) (n : Nat) (c : Cursor) : Delivery Code :=
  match refill inp inLen n 2 c with
  | .exhausted c1 => .exhausted c1
  | .value _ c1 =>
    .value ((c1.bitBuffer &&& BitVec.ofNat 32 (2 ^ n - 1)).setWidth 13)
      { c1 with
        bitBuffer := c1.bitBuffer >>> n
        bitsAvailable := c1.bitsAvailable - BitVec.ofNat 6 n }

/-- Delivers the top undelivered bit of the byte in the buffer (R133). -/
def takeTopBit (c : Cursor) : Delivery Bool :=
  .value (c.bitBuffer.getLsbD (c.bitsAvailable - 1).toNat) { c with bitsAvailable := c.bitsAvailable - 1 }

/-- `RDBIT_M` (R133). -/
def readBitMsb (inp : Memory) (inLen : Word) (c : Cursor) : Delivery Bool :=
  if c.bitsAvailable = 0 then
    match fetchByte inp inLen c with
    | .exhausted c1 => .exhausted c1
    | .value b c1 => takeTopBit { c1 with bitBuffer := b.setWidth 32, bitsAvailable := 8 }
  else takeTopBit c

/-- `RDBITS_M n` (R134), from the bits `r` gathered so far. -/
def readBitsMsbFrom (inp : Memory) (inLen : Word) : Nat → BitVec 7 → Cursor → Delivery (BitVec 7)
  | 0, r, c => .value r c
  | n + 1, r, c =>
    match readBitMsb inp inLen c with
    | .exhausted c1 => .exhausted c1
    | .value d c1 => readBitsMsbFrom inp inLen n ((r <<< 1) ||| (BitVec.ofBool d).setWidth 7) c1

/-- `RDBITS_M n` (R134). -/
def readBitsMsb (inp : Memory) (inLen : Word) (n : Nat) (c : Cursor) : Delivery (BitVec 7) :=
  readBitsMsbFrom inp inLen n 0 c

/-! ## The output -/

/-- Takes an index out of one range of indices. -/
def cutRange (i : Nat) (r : Nat × Nat) : List (Nat × Nat) :=
  if r.1 ≤ i ∧ i < r.2 then
    (if r.1 < i then [(r.1, i)] else []) ++ (if i + 1 < r.2 then [(i + 1, r.2)] else [])
  else [r]

/-- A written byte of `OUT` is open no more (log 10). -/
def closeIndex (i : Nat) (ranges : List (Nat × Nat)) : List (Nat × Nat) := ranges.flatMap (cutRange i)

/-- Is a byte of `OUT` one that a reset during a command left open (U8)? -/
def isOpen (ranges : List (Nat × Nat)) (i : Nat) : Bool := ranges.any fun r => decide (r.1 ≤ i ∧ i < r.2)

/-- One byte written to `OUT` at an index. -/
def writeOutByte (i : Nat) (v : Byte) (s : State) : State :=
  { s with outSpace := memWrite s.outSpace i v, outOpen := closeIndex i s.outOpen }

/-- `OutAppend` without its guard (R11): the byte at `OUT_LEN`, then `OUT_LEN + 1`. -/
def appendByte (v : Byte) (s : State) : State :=
  { writeOutByte s.outLen.toNat v s with outLen := s.outLen + 1 }

/-- `OutAppend` (R11, R66): only with `OUT_LEN < REQ_SIZE`. -/
def outAppend (v : Byte) (s : State) : Except Fault State :=
  if s.par.reqSize.toNat ≤ s.outLen.toNat then .error .outputFull else .ok (appendByte v s)

/-- Does the output hold the requested size (`FULL`'s condition, R291)? -/
def outputIsFull (s : State) : Bool := decide (s.par.reqSize.toNat ≤ s.outLen.toNat)

/-- Appends a string in forward order, cut to the room left (R162). -/
def emit (str : List Byte) (s : State) : State :=
  (str.take (s.par.reqSize.toNat - s.outLen.toNat)).foldl (fun t v => appendByte v t) s

/-! ## The stop -/

/-- The bytes from the start to the cursor, 0 where the start lies past the input (R167, R192). -/
def bytesSince (inLen start bytePos : Word) : Nat :=
  if start.toNat ≤ inLen.toNat then bytePos.toNat - start.toNat else 0

/-- `CONSUMED` at a stop, by the command's formula (R35: R167, R192, R221, R249). -/
def consumedAtStop (s : State) : Word :=
  match s.phase with
  | .idle => s.consumed
  | .lzwCode => BitVec.ofNat 32 (up4 (bytesSince s.par.inLen s.par.startOffset s.cur.bytePos))
  | .hufNode | .hufSample => BitVec.ofNat 32 (bytesSince s.par.inLen s.par.startOffset s.cur.bytePos)
  | .sddHdr => 0
  | .sddInit | .sddWord => BitVec.ofNat 32 (1 + up4 (s.cur.bytePos.toNat - s.sdd.regionStart.toNat))
  | .nduScan | .nduRun => s.cur.bytePos

/-- The state a stop leaves (R300): the results recorded, the engine idle, everything else as it stood. -/
def stopped (cause : StopCause) (s : State) : State :=
  { s with
    consumed := consumedAtStop s
    status := statusAtStop cause s.outLen s.par.reqSize
    phase := .idle }

/-- `raise Stop(cause)` (R300). With no command running there is none to end (log 15). -/
def raiseStop (cause : StopCause) (s : State) : Host.Outcome State Fault Refusal :=
  if s.phase = .idle then .refused .noCommandRunning else .next (stopped cause s)

/-- Goes on with `k` where the output has room left, and stops with `FULL` where it has none (R291). -/
def unlessFull (s : State) (k : State → Host.Outcome State Fault Refusal) : Host.Outcome State Fault Refusal :=
  if outputIsFull s then raiseStop .full s else k s

/-- `OutAppend`, then on with `k`. -/
def appendThen (v : Byte) (s : State) (k : State → Host.Outcome State Fault Refusal) :
    Host.Outcome State Fault Refusal :=
  match outAppend v s with
  | .error f => .fault f
  | .ok t => k t

/-- A stream symbol acts only where its command reads it (R29; log 16). -/
def inPhase (p : Phase) (s : State) (k : Host.Outcome State Fault Refusal) : Host.Outcome State Fault Refusal :=
  if s.phase = p then k else .refused .outOfSequence

/-! ## The issue of a command -/

/-- Do the ranges of the two spaces that a command uses overlap in one memory (R79, R346, U6)? -/
def portsCollide (s : State) : Bool :=
  s.ports.oneMemory
    && decide (0 < s.par.inLen.toNat ∧ 0 < s.par.reqSize.toNat)
    && decide (s.ports.inBase < s.ports.outBase + s.par.reqSize.toNat)
    && decide (s.ports.outBase < s.ports.inBase + s.par.inLen.toNat)

/-- The state at the issue of a command that starts in phase `p` with cursor `c`, but for its unit's own registers
(R45, R260). -/
def issued (p : Phase) (c : Cursor) (s : State) : State :=
  { s with status := statusAtIssue s.status, outLen := 0, cur := c, phase := p }

/-- The issue of a command, which starts in the state `start` (R260). It is ignored while a command runs (R266);
the launches a host must not make are refused (U3, U6, U7); every other one is accepted (R260: "Issue tests
nothing"). -/
def issue (s start : State) : Host.Outcome State Fault Refusal :=
  if s.status.busy then .next s
  else if Config.maxInLen < s.par.inLen.toNat then .refused .inLenAboveContract
  else if portsCollide s then .refused .portsOverlap
  else if s.ports.outRoom < s.par.reqSize.toNat then .refused .outputRoomTooSmall
  else .next start

end Sys2Proof.Machine
end

