-- ==== Sys2Proof/Machine/Command.lean ====
section
/-! DEFINITION. The four commands (spec/45_commands.md R262 to R265): the issue, and the first rule of each body.
The rest of a body is the stream symbols, one a step, up to the command's stop (log 1). -/

namespace Sys2Proof.Machine

/-- `DEC_LZW`'s start (R151); the dictionary is not cleared. -/
def startLzw (s : State) : State :=
  { issued .lzwCode (initCursor s.par.startOffset .lsb) s with
    lzw := { s.lzw with codeWidth := 9, nextIndex := 257, prevCode := 0 } }

/-- `DEC_HUF`'s start (R181); the construction stack is empty (R40). -/
def startHuf (s : State) : State :=
  { issued .hufNode (initCursor s.par.startOffset .msb) s with
    huf := { s.huf with nodeCount := 0, runningValue := 0, stack := [] } }

/-- `DEC_SDD`'s start (R210): its unit's registers are written by `SDD.HDR` and `SDD.INIT`. -/
def startSdd (s : State) : State := issued .sddHdr (initCursor s.par.startOffset .byte) s

/-- `DEC_NDU`'s start (R241): from index 0, whatever `START_OFFSET` is. -/
def startNdu (s : State) : State :=
  { issued .nduScan (initCursor 0 .byte) s with ndu := { accumulator := 0, count := 0 } }

/-- `DEC_LZW` (R262). -/
def execDecLzw (s : State) : Host.Outcome State Fault Refusal := issue s (startLzw s)

/-- `DEC_HUF` (R263). -/
def execDecHuf (s : State) : Host.Outcome State Fault Refusal := issue s (startHuf s)

/-- `DEC_SDD` (R264). -/
def execDecSdd (s : State) : Host.Outcome State Fault Refusal := issue s (startSdd s)

/-- `DEC_NDU` (R265). -/
def execDecNdu (s : State) : Host.Outcome State Fault Refusal := issue s (startNdu s)

end Sys2Proof.Machine
end

