-- ==== Sys2Proof/Machine/Huffman.lean ====
section
/-! DEFINITION. The two Huffman symbols (spec/42_huffman.md R182 to R190). The symbol's bits have been read when a
meaning runs; the cursor stands after them. -/

namespace Sys2Proof.Machine

/-- A new slot of the node table (R182). -/
def allocNode (v : BitVec 7) (u : HufUnit) : HufUnit :=
  { u with
    nodes := tableSet u.nodes u.nodeCount.toNat { left := none, right := none, value := v }
    nodeCount := u.nodeCount + 1 }

/-- Changes a node that stands in the table. -/
def updateNode (nodes : Table Node) (i : NodeIdx) (f : Node → Node) : Table Node :=
  match tableGet nodes i.toNat with
  | none => nodes
  | some n => tableSet nodes i.toNat (f n)

/-- `Build()` of slot `j` returns: the link that waits for it is set, and so on up the stack while that completes
the node above (R182). Gives the table, and the stack with which the next `Build()` starts, or none where the root
is complete. -/
def returnBuild : NodeIdx → Table Node → List BuildFrame → Table Node × Option (List BuildFrame)
  | _, nodes, [] => (nodes, none)
  | j, nodes, { node := i, pending := .leftChild true } :: rest =>
    (updateNode nodes i fun n => { n with left := some j }, some ({ node := i, pending := .rightChild } :: rest))
  | j, nodes, { node := i, pending := .leftChild false } :: rest =>
    returnBuild i (updateNode nodes i fun n => { n with left := some j }) rest
  | j, nodes, { node := i, pending := .rightChild } :: rest =>
    returnBuild i (updateNode nodes i fun n => { n with right := some j }) rest

/-- The root check, when the whole tree is built (R185). -/
def checkRoot (s : State) : Host.Outcome State Fault Refusal :=
  match tableGet s.huf.nodes 0 with
  | none => .fault .nodeUnwritten
  | some root =>
    if root.left = none ∨ root.right = none then raiseStop .invalidTree s
    else .next { s with phase := .hufSample }

/-- `HUF.NODE v, l, r` (R182, R183): the slot, then the children the flags announce, the left one first. -/
def execHufNode (v : BitVec 7) (l r : Bool) (s : State) : Host.Outcome State Fault Refusal :=
  inPhase .hufNode s <|
    if Config.hufNodeCap ≤ s.huf.nodeCount.toNat then raiseStop .nodeRange s
    else
      let i : NodeIdx := s.huf.nodeCount.setWidth 8
      let u := allocNode v s.huf
      if l then
        .next { s with huf := { u with stack := { node := i, pending := .leftChild r } :: u.stack } }
      else if r then
        .next { s with huf := { u with stack := { node := i, pending := .rightChild } :: u.stack } }
      else
        match returnBuild i u.nodes u.stack with
        | (nodes, some stack) => .next { s with huf := { u with nodes := nodes, stack := stack } }
        | (nodes, none) => checkRoot { s with huf := { u with nodes := nodes, stack := [] } }

/-- Where the walk of a sample code ends (R187, R189, R190). -/
inductive WalkEnd where
  /-- At a leaf, with its value. -/
  | leaf (at_ : NodeIdx) (value : BitVec 7)
  /-- At a node whose selected child is absent or outside the table: `Stop(NODE_RANGE)`. -/
  | outside
  /-- The path is not one the tree gives. -/
  | mismatch
  /-- An unwritten slot, or more nodes than the table has. -/
  | broken (f : Fault)
deriving DecidableEq, Repr

/-- The walk along a path from a node, visiting at most `fuel` nodes. -/
def walk (nodes : Table Node) (nodeCount : Nat) : Nat → NodeIdx → List Bool → WalkEnd
  | 0, _, _ => .broken .walkTooLong
  | fuel + 1, node, path =>
    match tableGet nodes node.toNat with
    | none => .broken .nodeUnwritten
    | some n =>
      match path with
      | [] => if isLeaf n then .leaf node n.value else .mismatch
      | d :: rest =>
        if isLeaf n then .mismatch
        else
          match childOf n d with
          | none => .outside
          | some child => if nodeCount ≤ child.toNat then .outside else walk nodes nodeCount fuel child rest

/-- The registers of a walk that ended at a leaf, with the sample it gives (R187). -/
def walked (sign : Bool) (node : NodeIdx) (sum : Byte) (s : State) : State :=
  { s with huf := { s.huf with signBit := sign, curNode := node, runningValue := sum } }

/-- `HUF.SAMPLE s, path` (R187, R188): the sign, the walk from the root, the delta of the leaf. A walk that stops the
command has no effect on the unit's registers (R135, R301; log 19). -/
def execHufSample (sign : Bool) (path : List Bool) (s : State) : Host.Outcome State Fault Refusal :=
  inPhase .hufSample s <|
    match walk s.huf.nodes s.huf.nodeCount.toNat Config.hufNodeCap 0 path with
    | .broken f => .fault f
    | .mismatch => .refused .pathNotInTree
    | .outside => raiseStop .nodeRange s
    | .leaf node value =>
      let sum := s.huf.runningValue + hufDelta sign value
      appendThen sum (walked sign node sum s) fun t => .next t

end Sys2Proof.Machine
end

