-- ==== Sys2Proof/Machine/Lzw.lean ====
section
/-! DEFINITION. The six classes of an LZW code (spec/41_lzw.md R155 to R166). The code's bits have been read when
a meaning runs (R154); the cursor stands after them. -/

namespace Sys2Proof.Machine

/-- The walk down the prefix chain from code `k`, `acc` being what `MATCH` holds so far; `MATCH` has room for `room`
more bytes (R161). A code below 256 is a literal, which ends the chain (R37). -/
def chainFrom (dict : Table DictEntry) : Nat → Code → List Byte → Except Fault (List Byte)
  | 0, _, _ => .error .matchOverflow
  | room + 1, k, acc =>
    if k.toNat < 256 then .ok (k.setWidth 8 :: acc)
    else
      match tableGet dict k.toNat with
      | none => .error .dictUnwritten
      | some e => chainFrom dict room e.prefixCode (e.value :: acc)

/-- `String(c)` (R161). -/
def stringOf (dict : Table DictEntry) (c : Code) : Except Fault (List Byte) :=
  chainFrom dict Config.lzwDictSize c []

/-- The dictionary insertion and the width growth (R163 to R165): skipped when the output is full or the table is. -/
def insertEntry (first : Byte) (out : State) (u : LzwUnit) : LzwUnit :=
  if out.outLen.toNat < out.par.reqSize.toNat ∧ u.nextIndex.toNat < Config.lzwDictSize then
    { u with
      dict := tableSet u.dict u.nextIndex.toNat { prefixCode := u.prevCode, value := first }
      nextIndex := u.nextIndex + 1
      codeWidth :=
        if u.nextIndex.toNat + 1 = 2 ^ u.codeWidth.toNat ∧ u.codeWidth.toNat < Config.lzwMaxWidth then
          u.codeWidth + 1
        else u.codeWidth }
  else u

/-- The steps of a normal code (R152): resolve the string of `start` into `MATCH`, emit it (with its first byte again for
a self-reference, R160), insert the new entry, and remember the code (R166). -/
def normalCode (code start : Code) (selfReference : Bool) (s : State) : Host.Outcome State Fault Refusal :=
  inPhase .lzwCode s <|
    match stringOf s.lzw.dict start with
    | .error f => .fault f
    | .ok str =>
      let first := str.headD Config.blank
      let t := emit (if selfReference then str ++ [first] else str) s
      .next { t with
        lzw := { insertEntry first t { s.lzw with scratch := str } with prevCode := code } }

/-- `LZW.END` (R155). -/
def execLzwEnd (s : State) : Host.Outcome State Fault Refusal :=
  inPhase .lzwCode s (raiseStop .endCode s)

/-- `LZW.CORRUPT` (R156): the code itself has no effect. -/
def execLzwCorrupt (_c : Code) (s : State) : Host.Outcome State Fault Refusal :=
  inPhase .lzwCode s (raiseStop .corrupt s)

/-- `LZW.RESET` (R157). -/
def execLzwReset (s : State) : Host.Outcome State Fault Refusal :=
  inPhase .lzwCode s (.next { s with lzw := { s.lzw with codeWidth := 9, nextIndex := 257, prevCode := 0 } })

/-- `LZW.LIT` (R158). -/
def execLzwLit (b : Byte) (s : State) : Host.Outcome State Fault Refusal :=
  normalCode (b.setWidth 13) (b.setWidth 13) false s

/-- `LZW.REF` (R159). -/
def execLzwRef (c : Code) (s : State) : Host.Outcome State Fault Refusal :=
  normalCode c c false s

/-- `LZW.KWKWK` (R160). -/
def execLzwKwkwk (c : Code) (s : State) : Host.Outcome State Fault Refusal :=
  normalCode c s.lzw.prevCode true s

end Sys2Proof.Machine
end

