-- ==== Sys2Proof/Machine/Micro.lean ====
section
/-! DEFINITION. The five cursor micro-operations as instructions of their own (spec/40_bitcursor.md R130 to R134).
The decoders run the same operations of Ops inside a symbol; here the value returned lands in `delivered` (log 15). -/

namespace Sys2Proof.Machine

/-- The end of a micro-operation: the value lands in `delivered`, or the running command stops (R131, R135). -/
def settle {α : Type} (s : State) (d : Delivery α) (f : α → Code) : Host.Outcome State Fault Refusal :=
  match d with
  | .value v c => .next { s with cur := c, delivered := f v }
  | .exhausted c => raiseStop .exhausted { s with cur := c }

/-- A micro-operation is a refusal outside its mode (R138). -/
def inMode (m : CursorMode) (s : State) (k : Host.Outcome State Fault Refusal) : Host.Outcome State Fault Refusal :=
  if s.cur.mode = m then k else .refused .wrongMode

/-- A bit count has its range (R132, R134). -/
def inRange (n hi : Nat) (k : Host.Outcome State Fault Refusal) : Host.Outcome State Fault Refusal :=
  if 1 ≤ n ∧ n ≤ hi then k else .refused .bitCountOutOfRange

/-- `CURSOR_INIT(start, m)` (R130): no test is made on `start`. -/
def execCursorInit (start : Word) (m : CursorMode) (s : State) : Host.Outcome State Fault Refusal :=
  .next { s with cur := initCursor start m }

/-- `FETCHB` from a decoder (R131), in mode `BYTE` (R138). -/
def execFetchb (s : State) : Host.Outcome State Fault Refusal :=
  inMode .byte s (settle s (fetchByte s.inSpace s.par.inLen s.cur) fun b => b.setWidth 13)

/-- `RDBITS_L n` (R132). -/
def execRdbitsL (n : Nat) (s : State) : Host.Outcome State Fault Refusal :=
  inRange n 13 (inMode .lsb s (settle s (readBitsLsb s.inSpace s.par.inLen n s.cur) id))

/-- `RDBIT_M` (R133). -/
def execRdbitM (s : State) : Host.Outcome State Fault Refusal :=
  inMode .msb s (settle s (readBitMsb s.inSpace s.par.inLen s.cur) fun d => (BitVec.ofBool d).setWidth 13)

/-- `RDBITS_M n` (R134). -/
def execRdbitsM (n : Nat) (s : State) : Host.Outcome State Fault Refusal :=
  inRange n 7 (inMode .msb s (settle s (readBitsMsb s.inSpace s.par.inLen n s.cur) fun v => v.setWidth 13))

end Sys2Proof.Machine
end

