-- ==== Sys2Proof/Machine/NibbleDelta.lean ====
section
/-! DEFINITION. The three nibble-delta symbols (spec/44_nibble_delta.md R243 to R247). The symbol's bytes have been
read when a meaning runs; the cursor stands after them. -/

namespace Sys2Proof.Machine

/-- `NDU.LIT b` (R243). -/
def execNduLit (b : Byte) (s : State) : Host.Outcome State Fault Refusal :=
  inPhase .nduScan s <|
    appendThen b { s with ndu := { s.ndu with accumulator := b } } fun t => .next t

/-- The seed of an escape sequence, in the output as soon as it is read (R244); then `FULL` or on with `k`. -/
def nduSeed (seed : Byte) (s : State) (k : State → Host.Outcome State Fault Refusal) :
    Host.Outcome State Fault Refusal :=
  appendThen seed { s with ndu := { s.ndu with accumulator := seed } } fun t => unlessFull t k

/-- Scan state when the run is over, run state while it goes on (R244, R245). -/
def nduPhase (count : BitVec 16) : Phase := if count = 0 then .nduScan else .nduRun

/-- `NDU.ESC seed, count` (R244, R246). -/
def execNduEsc (seed : Byte) (count : BitVec 16) (s : State) : Host.Outcome State Fault Refusal :=
  inPhase .nduScan s <|
    nduSeed seed s fun t => .next { t with ndu := { t.ndu with count := count }, phase := nduPhase count }

/-- One delta sample of a run: added, appended, counted (R245). -/
def nduDelta (n : Nibble) (s : State) (k : State → Host.Outcome State Fault Refusal) :
    Host.Outcome State Fault Refusal :=
  let acc := s.ndu.accumulator + nibbleDelta n
  appendThen acc { s with ndu := { accumulator := acc, count := s.ndu.count - 1 } } fun t => unlessFull t k

/-- `NDU.PAIR h, l` (R245, R247): the high nibble, then the low one unless the run is over. -/
def execNduPair (h l : Nibble) (s : State) : Host.Outcome State Fault Refusal :=
  inPhase .nduRun s <|
    nduDelta h s fun t =>
      if t.ndu.count = 0 then .next { t with phase := .nduScan }
      else nduDelta l t fun u => .next { u with phase := nduPhase u.ndu.count }

end Sys2Proof.Machine
end

