-- ==== Sys2Proof/Machine/SigmaDelta.lean ====
section
/-! DEFINITION. The five sigma-delta symbols (spec/43_sigma_delta.md R211 to R219). The symbol's bits have been read
when a meaning runs; the cursor stands after them. -/

namespace Sys2Proof.Machine

/-- `SDD.HDR m` (R211), the clamp (R212) and the entry to the bit region (R213). -/
def execSddHdr (m : Byte) (s : State) : Host.Outcome State Fault Refusal :=
  inPhase .sddHdr s <|
    .next { s with
      cur := { s.cur with mode := .lsb }
      phase := .sddInit
      sdd := { s.sdd with
        maxRunLength := runLengthOf m
        regionStart := s.cur.bytePos
        effSize := clampedSize s.par.reqSize s.par.inLen s.cur.bytePos
        bitWidth := BitVec.ofNat 4 Config.sddInitWidth
        runCounter := runLengthOf m } }

/-- `SDD.INIT a` (R214): the first sample, unless the clamped size is 0. -/
def execSddInit (a : Byte) (s : State) : Host.Outcome State Fault Refusal :=
  inPhase .sddInit s <|
    if s.sdd.effSize.toNat = 0 then .next { s with phase := .sddWord }
    else appendThen a { s with sdd := { s.sdd with accumulator := a }, phase := .sddWord } fun t => .next t

/-- `SDD.ESC` (R216): one bit wider, up to 9; nothing is emitted. -/
def execSddEsc (s : State) : Host.Outcome State Fault Refusal :=
  inPhase .sddWord s <|
    .next { s with
      sdd := { s.sdd with
        bitWidth := BitVec.ofNat 4 (min (s.sdd.bitWidth.toNat + 1) Config.sddMaxWidth)
        runCounter := s.sdd.maxRunLength } }

/-- The sample arithmetic of a non-zero value word (R217). -/
def sddEmit (v : BitVec 9) (s : State) (k : State → Host.Outcome State Fault Refusal) :
    Host.Outcome State Fault Refusal :=
  let acc := sddSample s.sdd.accumulator v
  appendThen acc { s with sdd := { s.sdd with accumulator := acc } } k

/-- `SDD.HOLD v` (R217, R218). -/
def execSddHold (v : BitVec 9) (s : State) : Host.Outcome State Fault Refusal :=
  inPhase .sddWord s <|
    sddEmit v s fun t => .next { t with sdd := { t.sdd with runCounter := t.sdd.maxRunLength } }

/-- The run counter after a delta, and the width it shrinks to at 0 (R219). -/
def countDown (u : SddUnit) : SddUnit :=
  if u.runCounter - 1 = 0 then
    { u with
      bitWidth := BitVec.ofNat 4 (max (u.bitWidth.toNat - 1) Config.sddMinWidth)
      runCounter := u.maxRunLength }
  else { u with runCounter := u.runCounter - 1 }

/-- `SDD.DELTA v` (R217, R219). -/
def execSddDelta (v : BitVec 9) (s : State) : Host.Outcome State Fault Refusal :=
  inPhase .sddWord s <|
    sddEmit v s fun t => .next { t with sdd := countDown t.sdd }

end Sys2Proof.Machine
end

