-- ==== Sys2Proof/Machine/Dispatch.lean ====
section
/-! DEFINITION. One arm per row of spec/opcode_table.json. -/

namespace Sys2Proof.Machine

def exec (i : Instr) (s : State) : Host.Outcome State Fault Refusal :=
  match i with
  -- commands (spec/45_commands.md)
  | .decLzw => Sys2Proof.Machine.execDecLzw s
  | .decHuf => Sys2Proof.Machine.execDecHuf s
  | .decSdd => Sys2Proof.Machine.execDecSdd s
  | .decNdu => Sys2Proof.Machine.execDecNdu s
  -- cursor micro-operations (spec/40_bitcursor.md)
  | .cursorInit start m => Sys2Proof.Machine.execCursorInit start m s
  | .fetchb => Sys2Proof.Machine.execFetchb s
  | .rdbitsL n => Sys2Proof.Machine.execRdbitsL n s
  | .rdbitM => Sys2Proof.Machine.execRdbitM s
  | .rdbitsM n => Sys2Proof.Machine.execRdbitsM n s
  -- LZW codes (spec/41_lzw.md)
  | .lzwEnd => Sys2Proof.Machine.execLzwEnd s
  | .lzwCorrupt c => Sys2Proof.Machine.execLzwCorrupt c s
  | .lzwReset => Sys2Proof.Machine.execLzwReset s
  | .lzwLit b => Sys2Proof.Machine.execLzwLit b s
  | .lzwRef c => Sys2Proof.Machine.execLzwRef c s
  | .lzwKwkwk c => Sys2Proof.Machine.execLzwKwkwk c s
  -- Huffman symbols (spec/42_huffman.md)
  | .hufNode v l r => Sys2Proof.Machine.execHufNode v l r s
  | .hufSample sign path => Sys2Proof.Machine.execHufSample sign path s
  -- sigma-delta symbols (spec/43_sigma_delta.md)
  | .sddHdr m => Sys2Proof.Machine.execSddHdr m s
  | .sddInit a => Sys2Proof.Machine.execSddInit a s
  | .sddEsc => Sys2Proof.Machine.execSddEsc s
  | .sddHold v => Sys2Proof.Machine.execSddHold v s
  | .sddDelta v => Sys2Proof.Machine.execSddDelta v s
  -- nibble-delta symbols (spec/44_nibble_delta.md)
  | .nduLit b => Sys2Proof.Machine.execNduLit b s
  | .nduEsc seed count => Sys2Proof.Machine.execNduEsc seed count s
  | .nduPair h l => Sys2Proof.Machine.execNduPair h l s

end Sys2Proof.Machine
end

