-- ==== Sys2Proof/Decode.lean ====
section
/-! DEFINITION. The decoder and the encoder of the command word and of the four stream formats
(spec/30_encoding.md). What a bit string means depends on the format the engine expects and on the widths it keeps
in its own registers (R95, R102, R109): `Format` carries exactly that. -/

namespace Sys2Proof

open Sys2Proof.Machine

/-- What the engine expects next, with the registers that tell the symbol's class and length. -/
inductive Format where
  /-- A command word, 32 bits (R91). -/
  | cmd
  /-- An LZW code of `width` bits while the next entry goes to `nextIndex` (R93, R94). -/
  | lzw (width : Nat) (nextIndex : BitVec 14)
  /-- A node record (R96). -/
  | hufNode
  /-- A sample code over the tree of `nodes`, of which `nodeCount` slots are allocated (R98). -/
  | hufSample (nodes : Table Node) (nodeCount : Nat)
  /-- The sigma-delta header byte (R99). -/
  | sddHdr
  /-- The sigma-delta initial value (R100). -/
  | sddInit
  /-- A sigma-delta value word of `width` bits (R101). -/
  | sddWord (width : Nat)
  /-- A nibble-delta byte in scan state, with the escape byte (R103). -/
  | nduScan (escape : Byte)
  /-- A nibble-delta byte in run state (R104). -/
  | nduRun
deriving DecidableEq, Repr

/-- Why a bit string is no instruction of the format. -/
inductive Reject where
  /-- It ends before the symbol does. -/
  | truncated
  /-- The node table is not a tree the walk can finish in (never so for a built table, R194). -/
  | notATree
deriving DecidableEq, Repr

/-- What the decoder answers: an instruction and the bits after it, or a rejection by name. -/
inductive Decoded where
  | ok (i : Instr) (rest : List Bool)
  | reject (r : Reject)
deriving DecidableEq, Repr

/-! ## Fields -/

/-- A field of bits, first stream bit its bit 0 (R67). -/
def ofLsb : List Bool → Nat
  | [] => 0
  | b :: rest => b.toNat + 2 * ofLsb rest

/-- A field of bits, first stream bit its most significant bit (R68). -/
def ofMsb (bits : List Bool) : Nat := ofLsb bits.reverse

/-- The low `n` bits of a number, bit 0 first. -/
def toLsb : Nat → Nat → List Bool
  | 0, _ => []
  | n + 1, v => decide (v % 2 = 1) :: toLsb n (v / 2)

/-- The low `n` bits of a number, bit `n - 1` first. -/
def toMsb (n v : Nat) : List Bool := (toLsb n v).reverse

/-- The next `n` bits and those after them, if there are as many. -/
def takeBits : Nat → List Bool → Option (List Bool × List Bool)
  | 0, bits => some ([], bits)
  | _ + 1, [] => none
  | n + 1, b :: bits =>
    match takeBits n bits with
    | some (front, rest) => some (b :: front, rest)
    | none => none

/-! ## Classes -/

/-- The command a word issues: `OP` is bits [1:0], the rest is ignored (R91, R92). -/
def decodeCmd (w : Word) : Instr :=
  if w.toNat % 4 = 0 then .decLzw
  else if w.toNat % 4 = 1 then .decHuf
  else if w.toNat % 4 = 2 then .decSdd
  else .decNdu

/-- The class of an LZW code, the tests in the order of R94. -/
def classifyLzw (nextIndex : BitVec 14) (code : Code) : Instr :=
  if code.toNat = Config.lzwEnd then .lzwEnd
  else if nextIndex.toNat < code.toNat then .lzwCorrupt code
  else if code.toNat = Config.lzwReset then .lzwReset
  else if code.toNat ≤ 255 then .lzwLit (code.setWidth 8)
  else if code.toNat < nextIndex.toNat then .lzwRef code
  else .lzwKwkwk code

/-- The class of a sigma-delta value word of `width` bits, the tests in the order of R101. -/
def classifySdd (width : Nat) (v : BitVec 9) : Instr :=
  if v = 0 then .sddEsc
  else if v.getLsbD (width - 1) then .sddHold v
  else .sddDelta v

/-- The path of a sample code: bits from `node` on until a leaf is reached or the bit selects no node of the table
(R98, R187, R189, R190); the bits taken and the bits left. At most `fuel` nodes are visited. -/
def decodePath (nodes : Table Node) (nodeCount : Nat) :
    Nat → NodeIdx → List Bool → Except Reject (List Bool × List Bool)
  | 0, _, _ => .error .notATree
  | fuel + 1, node, bits =>
    match tableGet nodes node.toNat with
    | none => .error .notATree
    | some n =>
      if isLeaf n then .ok ([], bits)
      else
        match bits with
        | [] => .error .truncated
        | d :: rest =>
          match childOf n d with
          | none => .ok ([d], rest)
          | some child =>
            if nodeCount ≤ child.toNat then .ok ([d], rest)
            else
              match decodePath nodes nodeCount fuel child rest with
              | .ok (path, after) => .ok (d :: path, after)
              | .error r => .error r

/-- The four bytes of an escape sequence but the first, as seed and count (R103, R105). -/
def decodeEsc (bits : List Bool) : Decoded :=
  match takeBits 8 bits with
  | none => .reject .truncated
  | some (seed, after) =>
    match takeBits 16 after with
    | none => .reject .truncated
    | some (count, rest) => .ok (.nduEsc (BitVec.ofNat 8 (ofMsb seed)) (BitVec.ofNat 16 (ofMsb count))) rest

/-- Splits off `n` bits and decodes them. -/
def decodeField (n : Nat) (bits : List Bool) (f : List Bool → Instr) : Decoded :=
  match takeBits n bits with
  | none => .reject .truncated
  | some (front, rest) => .ok (f front) rest

/-- The decoder: total on any bits. Bits are in the order the format reads them: register bits from bit 0 up for a
command word, least significant first for LZW codes and the sigma-delta bit region, most significant first for
the rest (R67 to R69, R90). -/
def decode (f : Format) (bits : List Bool) : Decoded :=
  match f with
  | .cmd => decodeField 32 bits fun w => decodeCmd (BitVec.ofNat 32 (ofLsb w))
  | .lzw width nextIndex => decodeField width bits fun c => classifyLzw nextIndex (BitVec.ofNat 13 (ofLsb c))
  | .hufNode => decodeField 9 bits fun r =>
      .hufNode (BitVec.ofNat 7 (ofMsb (r.take 7))) (r.getD 7 false) (r.getD 8 false)
  | .hufSample nodes nodeCount =>
    match bits with
    | [] => .reject .truncated
    | sign :: after =>
      match decodePath nodes nodeCount Config.hufNodeCap 0 after with
      | .ok (path, rest) => .ok (.hufSample sign path) rest
      | .error r => .reject r
  | .sddHdr => decodeField 8 bits fun m => .sddHdr (BitVec.ofNat 8 (ofMsb m))
  | .sddInit => decodeField 8 bits fun a => .sddInit (BitVec.ofNat 8 (ofLsb a))
  | .sddWord width => decodeField width bits fun v => classifySdd width (BitVec.ofNat 9 (ofLsb v))
  | .nduScan escape =>
    match takeBits 8 bits with
    | none => .reject .truncated
    | some (b, rest) =>
      if BitVec.ofNat 8 (ofMsb b) = escape then decodeEsc rest
      else .ok (.nduLit (BitVec.ofNat 8 (ofMsb b))) rest
  | .nduRun => decodeField 8 bits fun p =>
      .nduPair (BitVec.ofNat 4 (ofMsb (p.take 4))) (BitVec.ofNat 4 (ofMsb (p.drop 4)))

/-! ## The encoder -/

/-- The bits of an LZW code, if it fits the width. -/
def encodeLzw (width code : Nat) : Option (List Bool) :=
  if code < 2 ^ width then some (toLsb width code) else none

/-- Does a path lead from `node` to a leaf, or end with a bit that selects no node of the table (R98, R187)? -/
def pathFits (nodes : Table Node) (nodeCount : Nat) : Nat → NodeIdx → List Bool → Bool
  | 0, _, _ => false
  | fuel + 1, node, path =>
    match tableGet nodes node.toNat with
    | none => false
    | some n =>
      match path with
      | [] => isLeaf n
      | d :: rest =>
        if isLeaf n then false
        else
          match childOf n d with
          | none => rest.isEmpty
          | some child => if nodeCount ≤ child.toNat then rest.isEmpty else pathFits nodes nodeCount fuel child rest

/-- The encoder: the bits of an instruction in a format, in the order the format reads them, written from
spec/30_encoding.md; `none` where the format has no such instruction (a micro-operation has no encoding, R112; a
class whose condition on the decoder's registers fails is another class). Reserved command bits are written 0
(R91). -/
def encode (f : Format) (i : Instr) : Option (List Bool) :=
  match f, i with
  | .cmd, .decLzw => some (toLsb 32 0)
  | .cmd, .decHuf => some (toLsb 32 1)
  | .cmd, .decSdd => some (toLsb 32 2)
  | .cmd, .decNdu => some (toLsb 32 3)
  | .lzw width _, .lzwEnd => encodeLzw width Config.lzwEnd
  | .lzw width nextIndex, .lzwCorrupt c =>
    if nextIndex.toNat < c.toNat ∧ c.toNat ≠ Config.lzwEnd then encodeLzw width c.toNat else none
  | .lzw width nextIndex, .lzwReset =>
    if Config.lzwReset ≤ nextIndex.toNat then encodeLzw width Config.lzwReset else none
  | .lzw width nextIndex, .lzwLit b => if b.toNat ≤ nextIndex.toNat then encodeLzw width b.toNat else none
  | .lzw width nextIndex, .lzwRef c =>
    if 258 ≤ c.toNat ∧ c.toNat < nextIndex.toNat then encodeLzw width c.toNat else none
  | .lzw width nextIndex, .lzwKwkwk c =>
    if 258 ≤ c.toNat ∧ c.toNat = nextIndex.toNat then encodeLzw width c.toNat else none
  | .hufNode, .hufNode v l r => some (toMsb 7 v.toNat ++ [l, r])
  | .hufSample nodes nodeCount, .hufSample sign path =>
    if pathFits nodes nodeCount Config.hufNodeCap 0 path then some (sign :: path) else none
  | .sddHdr, .sddHdr m => some (toMsb 8 m.toNat)
  | .sddInit, .sddInit a => some (toLsb 8 a.toNat)
  | .sddWord width, .sddEsc => some (toLsb width 0)
  | .sddWord width, .sddHold v =>
    if v.toNat < 2 ^ width ∧ v ≠ 0 ∧ v.getLsbD (width - 1) then some (toLsb width v.toNat) else none
  | .sddWord width, .sddDelta v =>
    if v.toNat < 2 ^ width ∧ v ≠ 0 ∧ v.getLsbD (width - 1) = false then some (toLsb width v.toNat) else none
  | .nduScan escape, .nduLit b => if b = escape then none else some (toMsb 8 b.toNat)
  | .nduScan escape, .nduEsc seed count =>
    some (toMsb 8 escape.toNat ++ toMsb 8 seed.toNat ++ toMsb 16 count.toNat)
  | .nduRun, .nduPair h l => some (toMsb 4 h.toNat ++ toMsb 4 l.toNat)
  | _, _ => none

/-! ## The opcode table's words -/

/-- The format the opcode table's words of a row stand in, by the row's size: 9 to 16 bits are an LZW code
zero-extended to 13 bits, read while the dictionary is as a command start leaves it; up to 32 bits are a command
word (R112, log 18). -/
def tableFormat (nbits : Nat) : Option (Format × Nat) :=
  if 8 < nbits ∧ nbits ≤ 16 then some (.lzw 13 257, 13)
  else if nbits ≤ 32 then some (.cmd, 32)
  else none

/-- The instruction the decoder reads from a word of the opcode table. -/
def decodeTableWord (nbits w : Nat) : Option Instr :=
  match tableFormat nbits with
  | none => none
  | some (f, len) =>
    if w < 2 ^ len then
      match decode f (toLsb len w) with
      | .ok i _ => some i
      | .reject _ => none
    else none

end Sys2Proof
end

