-- ==== Sys2Proof/Machine/HostPort.lean ====
section
/-! DEFINITION. The host's accesses: the register window (spec/10_state.md R30 to R35, spec/45_commands.md R266), the
memory behind the two spaces, and the reset input (spec/70_reset_and_hazards.md R330 to R332). -/

namespace Sys2Proof.Machine

/-- A write of a register other than `CMD`: a parameter register while idle (R32); ignored while busy (R266); the
read-only registers ignore it (log 14). -/
def writeRegister (number : BitVec 3) (value : Word) (s : State) : State :=
  if s.status.busy then s
  else if number.toNat = 1 then { s with par := { s.par with inLen := value } }
  else if number.toNat = 2 then { s with par := { s.par with startOffset := value } }
  else if number.toNat = 3 then { s with par := { s.par with reqSize := value } }
  else if number.toNat = 4 then { s with par := { s.par with escape := value.setWidth 8 } }
  else s

/-- The word a register reads as (R30, R33); while busy the results read as drawn (R266, U1). -/
def registerWord (number : BitVec 3) (draw : Word) (s : State) : Word :=
  if number.toNat = 0 then 0
  else if number.toNat = 1 then s.par.inLen
  else if number.toNat = 2 then s.par.startOffset
  else if number.toNat = 3 then s.par.reqSize
  else if number.toNat = 4 then s.par.escape.setWidth 32
  else if number.toNat = 5 then (if s.status.busy then busyStatusWord draw else statusWord s.status)
  else if number.toNat = 6 then (if s.status.busy then draw else s.outLen)
  else (if s.status.busy then draw else s.consumed)

/-- A register read: one draw a read (U1). -/
def readRegister (number : BitVec 3) (s : State) : State :=
  { s with hostData := registerWord number (Config.freeWord s.draws) s, draws := s.draws + 1 }

/-- A read of the memory behind `OUT`: as drawn while busy (U2) and where a reset during a command left the byte
open (U8). -/
def readOutByte (index : Word) (s : State) : State :=
  { s with
    hostData :=
      if s.status.busy || isOpen s.outOpen index.toNat then ((Config.freeWord s.draws).setWidth 8).setWidth 32
      else (memRead s.outSpace index.toNat).setWidth 32
    draws := s.draws + 1 }

/-- The host places bytes in `IN` (R334), at most as many as a 32-bit index names, which it must not do while a command
runs (R340, U4). -/
def placeInput (bytes : List Byte) (s : State) : Host.Outcome State Fault Refusal :=
  if s.status.busy then .refused .inputChangedWhileBusy
  else .next { s with inSpace := memWriteAll s.inSpace 0 (bytes.take (2 ^ 32)) }

/-- The host binds the ports (R334), which it must not do while a command runs (R340, R343). What the two spaces hold
after a new binding is the platform's (R74) and the spec is silent; DESIGN CHOICE (log 27), unsafe: both keep their
bytes and the open ones stay open, until the host places or writes others. -/
def bindPorts (p : Ports) (s : State) : Host.Outcome State Fault Refusal :=
  if s.status.busy then .refused .portsChangedWhileBusy else .next { s with ports := p }

/-- What a reset leaves open in `OUT`: all of `OUT[0 .. REQ_SIZE-1]` if a command was running (R332, U8). -/
def openAfterReset (s : State) : List (Nat × Nat) :=
  if s.status.busy then (0, s.par.reqSize.toNat) :: s.outOpen else s.outOpen

/-- The reset input (R330 to R332): every piece of the block's state as R44 says, no stop; the two spaces and their
binding are not the block's, and what the host still does stays to come. -/
def resetBlock (s : State) : State :=
  { State.reset with
    inSpace := s.inSpace
    outSpace := s.outSpace
    ports := s.ports
    host := s.host
    hostData := s.hostData
    draws := s.draws
    outOpen := openAfterReset s }

end Sys2Proof.Machine
end

