-- ==== Sys2Proof/Machine/Fetch.lean ====
section
/-! DEFINITION. What a step does before a meaning runs: it takes the host's next action, or reads the next stream
symbol through the bit cursor (the loop heads of spec/41 R152, spec/42 R181, R186, spec/43 R210, R215, spec/44 R242).
A symbol that the input or the output cuts short is no instruction: what its rule does before the cut is done here. -/

namespace Sys2Proof.Machine

/-- What a step found. -/
inductive Fetched where
  /-- An instruction, and the state with its bits read. -/
  | run (i : Instr) (s : State)
  /-- No instruction: the step is already whole (a host access, an idle engine, a stop before or inside a symbol). -/
  | acted (o : Host.Outcome State Fault Refusal)

/-- Goes on with the value a micro-operation of a decoder delivers, or stops with `EXHAUSTED` after `cut`, what the
symbol's rule has done by then (R131, R135, R301). -/
def reading {α : Type} (s : State) (d : Delivery α) (cut : State → State) (k : α → State → Fetched) : Fetched :=
  match d with
  | .value v c => k v { s with cur := c }
  | .exhausted c => .acted (raiseStop .exhausted (cut { s with cur := c }))

/-- `FETCHB` by a decoder. -/
def readingByte (s : State) (cut : State → State) (k : Byte → State → Fetched) : Fetched :=
  reading s (fetchByte s.inSpace s.par.inLen s.cur) cut k

/-- `RDBITS_L n` by a decoder. -/
def readingLsb (n : Nat) (s : State) (k : Code → State → Fetched) : Fetched :=
  reading s (readBitsLsb s.inSpace s.par.inLen n s.cur) id k

/-- `RDBIT_M` by a decoder. -/
def readingBit (s : State) (cut : State → State) (k : Bool → State → Fetched) : Fetched :=
  reading s (readBitMsb s.inSpace s.par.inLen s.cur) cut k

/-- The full test of a loop head (R291). -/
def atLoopHead (s : State) (k : Fetched) : Fetched :=
  if outputIsFull s then .acted (raiseStop .full s) else k

/-- An LZW code, at the width in force (R152 to R154, R94). -/
def fetchLzw (s : State) : Fetched :=
  atLoopHead s <|
    readingLsb s.lzw.codeWidth.toNat s fun code t => .run (classifyLzw s.lzw.nextIndex code) t

/-- The slot that `Build()` allocates before it reads the record's bits (R182, R184). -/
def slotTaken (s : State) : State := { s with huf := allocNode 0 s.huf }

/-- A node record (R182, R96): the slot test comes before any of its bits (R183); a record cut short leaves its slot
allocated, as R184 says of `nodeCount` (log 19). -/
def fetchNode (s : State) : Fetched :=
  if Config.hufNodeCap ≤ s.huf.nodeCount.toNat then .acted (raiseStop .nodeRange s)
  else
    reading s (readBitsMsb s.inSpace s.par.inLen 7 s.cur) slotTaken fun v t1 =>
      readingBit t1 slotTaken fun l t2 =>
        readingBit t2 slotTaken fun r t3 => .run (.hufNode v l r) t3

/-- The path bits of a sample code from `node` on, `path` being those taken, latest first; at most `fuel` nodes are
visited (R187). The code ends at a leaf, or with a bit that selects no node of the table (R189, R190); one cut short has
no effect but on the cursor (R135, R301). -/
def fetchPath (sign : Bool) : Nat → NodeIdx → List Bool → State → Fetched
  | 0, _, _, _ => .acted (.fault .walkTooLong)
  | fuel + 1, node, path, s =>
    match tableGet s.huf.nodes node.toNat with
    | none => .acted (.fault .nodeUnwritten)
    | some n =>
      if isLeaf n then .run (.hufSample sign path.reverse) s
      else
        readingBit s id fun d t =>
          match childOf n d with
          | none => .run (.hufSample sign (d :: path).reverse) t
          | some child =>
            if t.huf.nodeCount.toNat ≤ child.toNat then .run (.hufSample sign (d :: path).reverse) t
            else fetchPath sign fuel child (d :: path) t

/-- A sample code (R186, R187, R98). -/
def fetchSample (s : State) : Fetched :=
  atLoopHead s <| readingBit s id fun sign t => fetchPath sign Config.hufNodeCap 0 [] t

/-- The sigma-delta header byte, read whatever `REQ_SIZE` is (R211). -/
def fetchHeader (s : State) : Fetched := readingByte s id fun m t => .run (.sddHdr m) t

/-- The stop of the sigma-delta loop head (R220). -/
def sddFull (s : State) : Host.Outcome State Fault Refusal :=
  raiseStop (if s.sdd.effSize = s.par.reqSize then .full else .exhausted) s

/-- The sigma-delta initial value (R214); with a clamped size of 0 nothing is read and the loop head stops (R220). -/
def fetchInit (s : State) : Fetched :=
  if s.sdd.effSize.toNat = 0 then .acted (sddFull s)
  else readingLsb 8 s fun a t => .run (.sddInit (a.setWidth 8)) t

/-- A sigma-delta value word, at the width in force (R215, R220, R101). -/
def fetchWord (s : State) : Fetched :=
  if s.sdd.effSize.toNat ≤ s.outLen.toNat then .acted (sddFull s)
  else
    readingLsb s.sdd.bitWidth.toNat s fun v t => .run (classifySdd s.sdd.bitWidth.toNat (v.setWidth 9)) t

/-- An escape sequence after its escape byte (R244). Once the seed is read it is in the output: if that fills it, or
a count byte is missing, the command stops with the seed written. -/
def fetchEsc (s : State) : Fetched :=
  readingByte s id fun seed t =>
    if t.par.reqSize.toNat ≤ t.outLen.toNat + 1 then .acted (nduSeed seed t .next)
    else
      match fetchByte t.inSpace t.par.inLen t.cur with
      | .exhausted c => .acted (nduSeed seed { t with cur := c } (raiseStop .exhausted))
      | .value hi c1 =>
        match fetchByte t.inSpace t.par.inLen c1 with
        | .exhausted c => .acted (nduSeed seed { t with cur := c } (raiseStop .exhausted))
        | .value lo c2 => .run (.nduEsc seed (runCount hi lo)) { t with cur := c2 }

/-- A nibble-delta byte in scan state (R242, R103). -/
def fetchScan (s : State) : Fetched :=
  atLoopHead s <|
    readingByte s id fun b t => if b = t.par.escape then fetchEsc t else .run (.nduLit b) t

/-- A nibble-delta byte in run state (R245, R104). -/
def fetchPair (s : State) : Fetched :=
  readingByte s id fun p t => .run (.nduPair (p.extractLsb' 4 4) (p.extractLsb' 0 4)) t

/-- The engine's next symbol; an idle engine stays idle (R300). -/
def fetchStream (s : State) : Fetched :=
  match s.phase with
  | .idle => .acted (.next s)
  | .lzwCode => fetchLzw s
  | .hufNode => fetchNode s
  | .hufSample => fetchSample s
  | .sddHdr => fetchHeader s
  | .sddInit => fetchInit s
  | .sddWord => fetchWord s
  | .nduScan => fetchScan s
  | .nduRun => fetchPair s

/-- A host action, in the state with the action taken off the list (R275). A write of `CMD` gives the command its
word encodes (R31, R260). -/
def hostAct (a : HostAction) (s : State) : Fetched :=
  match a with
  | .writeReg number value =>
    if number = 0 then .run (decodeCmd value) s else .acted (.next (writeRegister number value s))
  | .readReg number => .acted (.next (readRegister number s))
  | .placeInput bytes => .acted (placeInput bytes s)
  | .bindPorts p => .acted (bindPorts p s)
  | .readOut index => .acted (.next (readOutByte index s))
  | .writeOut index value => .acted (.next (writeOutByte index.toNat value s))
  | .assertReset => .acted (.next (resetBlock s))
  | .engine => fetchStream s

/-- What this step is: the host's next action, or the engine's step where the host has none (log 2). -/
def fetch (s : State) : Fetched :=
  match s.host with
  | [] => fetchStream s
  | a :: rest => hostAct a { s with host := rest }

/-- The format the engine expects next, with the registers that tell the symbols apart (R95, R102). -/
def expects (s : State) : Option Format :=
  match s.phase with
  | .idle => none
  | .lzwCode => some (.lzw s.lzw.codeWidth.toNat s.lzw.nextIndex)
  | .hufNode => some .hufNode
  | .hufSample => some (.hufSample s.huf.nodes s.huf.nodeCount.toNat)
  | .sddHdr => some .sddHdr
  | .sddInit => some .sddInit
  | .sddWord => some (.sddWord s.sdd.bitWidth.toNat)
  | .nduScan => some (.nduScan s.par.escape)
  | .nduRun => some .nduRun

/-! ## Placing the next instruction -/

/-- An idle block whose host is about to write a command word (R31, R260). -/
def withCommandWord (w : Nat) (s : State) : State :=
  { s with
    status := { s.status with busy := false }
    phase := .idle
    host := .writeReg 0 (BitVec.ofNat 32 w) :: s.host }

/-- The width an LZW code needs: the one in force, or 13 if the code does not fit it. -/
def widthFor (w : Nat) (width : BitVec 4) : BitVec 4 := if w < 2 ^ width.toNat then width else 13

/-- A running `DEC_LZW`, at the start of its input and output, whose next code is `w`: the code's bits are the first
of `IN` (R67, R93), and there is room in the output. -/
def withLzwCode (w : Nat) (s : State) : State :=
  { s with
    status := statusAtIssue s.status
    phase := .lzwCode
    cur := initCursor 0 .lsb
    par := { s.par with
      inLen := 2
      startOffset := 0
      reqSize := if s.par.reqSize = 0 then 1 else s.par.reqSize }
    outLen := 0
    inSpace := memWriteAll s.inSpace 0 [BitVec.ofNat 8 w, BitVec.ofNat 8 (w / 256)]
    lzw := { s.lzw with codeWidth := widthFor w s.lzw.codeWidth }
    host := .engine :: s.host }

/-- The state in which the next step runs a word of the opcode table, by the row's size (log 18). -/
def placeWord (nbits w : Nat) (s : State) : State :=
  match tableFormat nbits with
  | some (.lzw _ _, _) => withLzwCode w s
  | _ => withCommandWord w s

end Sys2Proof.Machine
end

