-- ==== Sys2Proof/Machine/Step.lean ====
section
/-! DEFINITION. One step of the machine: a host action, or one stream symbol of the running command (logs 1, 2). -/

namespace Sys2Proof.Machine

/-- The step: what was fetched, run if it is an instruction. -/
def step (s : State) : Host.Outcome State Fault Refusal :=
  match fetch s with
  | .run i t => exec i t
  | .acted o => o

/-- `s` with a word of the opcode table placed where the next step reads it (log 18). -/
def State.withFetchWord (s : State) (nbits w : Nat) : State := placeWord nbits w s

end Sys2Proof.Machine
end

