-- ==== Sys2Proof/Safety.lean ====
section
/-! DEFINITION. The terms claims use: what holds of every state a run reaches, the bits ahead of the cursor, the
string a code stands for, and the trees a node table holds. Each is written from the spec's rules, not from the
machine's functions. -/

namespace Sys2Proof.Safety

open Sys2Proof.Machine

/-! ## Runs -/

/-- `k` steps, stopping at the first fault or refusal. -/
def run : Nat → State → Host.Outcome State Fault Refusal
  | 0, s => .next s
  | k + 1, s =>
    match step s with
    | .next t => run k t
    | .fault f => .fault f
    | .refused r => .refused r

/-- A list of instructions one after another, stopping at the first fault or refusal. -/
def execAll : List Instr → State → Host.Outcome State Fault Refusal
  | [], s => .next s
  | i :: rest, s =>
    match exec i s with
    | .next t => execAll rest t
    | .fault f => .fault f
    | .refused r => .refused r

/-- The bits of the input not yet delivered: those held and those of the bytes not yet fetched (R24). -/
def bitsLeft (s : State) : Nat := s.cur.bitsAvailable.toNat + 8 * (s.par.inLen.toNat - s.cur.bytePos.toNat)

/-! ## What holds of every state a run reaches -/

/-- The two spaces and the two tables are in canonical form. -/
def StorageInv (s : State) : Prop :=
  s.inSpace.wf = true ∧ s.outSpace.wf = true ∧ s.lzw.dict.wf = true ∧ s.huf.nodes.wf = true

/-- `BUSY` says that a command runs; `BUSY` and `DONE` are never both 1 (R33). -/
def StatusInv (s : State) : Prop :=
  (s.status.busy = true ↔ s.phase ≠ .idle) ∧ ¬ (s.status.busy = true ∧ s.status.done = true)

/-- The mode a command reads in, where it stands in its body (R23). -/
def modeOf : Phase → Option CursorMode
  | .idle => none
  | .lzwCode | .sddInit | .sddWord => some .lsb
  | .hufNode | .hufSample => some .msb
  | .sddHdr | .nduScan | .nduRun => some .byte

/-- What the buffer holds between two reads of a mode (R22 items 3 to 5). -/
def BufferOk (c : Cursor) : Prop :=
  match c.mode with
  | .lsb => c.bitsAvailable.toNat ≤ 7 ∧ c.bitBuffer.toNat < 2 ^ c.bitsAvailable.toNat
  | .msb => c.bitsAvailable.toNat ≤ 8 ∧ c.bitBuffer.toNat < 256
  | .byte => c.bitsAvailable = 0 ∧ c.bitBuffer = 0

/-- While a command runs: the cursor is in the command's mode, its buffer is as that mode keeps it, nothing has been
exhausted, and it stands inside the input or where the command started (R22, R23, R36). -/
def CursorInv (s : State) : Prop :=
  s.phase ≠ .idle →
    modeOf s.phase = some s.cur.mode ∧ BufferOk s.cur ∧ s.cur.exhausted = false ∧
      (s.cur.bytePos.toNat ≤ s.par.inLen.toNat ∨ s.cur.bytePos = s.par.startOffset)

/-- While a command runs its output is within the requested size (R66, R168 item 5). -/
def OutputInv (s : State) : Prop :=
  s.phase ≠ .idle → s.outLen.toNat ≤ s.par.reqSize.toNat

/-- A normal code (R18): neither 256 nor 257. -/
def NormalCode (c : Code) : Prop := c.toNat < 256 ∨ 258 ≤ c.toNat

/-- Every built entry below `top` has been written, and its prefix is an earlier normal code (R168 item 2). -/
def DictBuilt (dict : Table DictEntry) (top : Nat) : Prop :=
  ∀ i, 258 ≤ i → i < top →
    ∃ e, tableGet dict i = some e ∧ NormalCode e.prefixCode ∧ e.prefixCode.toNat < i

/-- At the loop head of `DEC_LZW` (R168): the ranges, the width that `nextIndex` calls for, the built entries, and,
while the output has room, a previous code that is normal and below `nextIndex`. -/
def LzwInv (s : State) : Prop :=
  s.phase = .lzwCode →
    257 ≤ s.lzw.nextIndex.toNat ∧ s.lzw.nextIndex.toNat ≤ 8192 ∧
    9 ≤ s.lzw.codeWidth.toNat ∧ s.lzw.codeWidth.toNat ≤ 13 ∧
    (s.lzw.nextIndex.toNat < 2 ^ s.lzw.codeWidth.toNat ∨ s.lzw.codeWidth.toNat = 13) ∧
    (s.lzw.codeWidth.toNat = 9 ∨ 2 ^ (s.lzw.codeWidth.toNat - 1) ≤ s.lzw.nextIndex.toNat) ∧
    DictBuilt s.lzw.dict s.lzw.nextIndex.toNat ∧
    (s.outLen.toNat < s.par.reqSize.toNat →
      NormalCode s.lzw.prevCode ∧ s.lzw.prevCode.toNat < s.lzw.nextIndex.toNat)

/-- Every allocated slot holds a node, and a link leads to a later allocated slot (R194). -/
def NodesLinked (nodes : Table Node) (count : Nat) : Prop :=
  ∀ i, i < count →
    ∃ n, tableGet nodes i = some n ∧
      ∀ d child, childOf n d = some child → i < child.toNat ∧ child.toNat < count

/-- The nodes that wait on the construction stack are allocated, the latest on top (R40, R182). -/
def StackOrdered (stack : List BuildFrame) (count : Nat) : Prop :=
  (stack.map fun f => f.node.toNat).Pairwise (fun a b => b < a) ∧ ∀ f ∈ stack, f.node.toNat < count

/-- While `DEC_HUF` runs: at most 256 slots, all linked forward; in the build a node waits on the stack unless none is
allocated (R40, R182); in the sample phase the root has two children (R183, R185, R194). -/
def HufInv (s : State) : Prop :=
  (s.phase = .hufNode →
    s.huf.nodeCount.toNat ≤ 256 ∧ NodesLinked s.huf.nodes s.huf.nodeCount.toNat ∧
      StackOrdered s.huf.stack s.huf.nodeCount.toNat ∧ (s.huf.stack = [] ↔ s.huf.nodeCount = 0)) ∧
  (s.phase = .hufSample →
    1 ≤ s.huf.nodeCount.toNat ∧ s.huf.nodeCount.toNat ≤ 256 ∧ NodesLinked s.huf.nodes s.huf.nodeCount.toNat ∧
      ∃ root, tableGet s.huf.nodes 0 = some root ∧ root.left ≠ none ∧ root.right ≠ none)

/-- While `DEC_SDD` runs (R222): nothing is out before the first sample; after the header the widths and the run
counter are in their ranges and the clamped size is within the requested one. -/
def SddInv (s : State) : Prop :=
  (s.phase = .sddHdr ∨ s.phase = .sddInit → s.outLen = 0) ∧
  (s.phase = .sddInit ∨ s.phase = .sddWord →
    1 ≤ s.sdd.bitWidth.toNat ∧ s.sdd.bitWidth.toNat ≤ 9 ∧
    1 ≤ s.sdd.runCounter.toNat ∧ s.sdd.runCounter.toNat ≤ s.sdd.maxRunLength.toNat ∧
    s.outLen.toNat ≤ s.sdd.effSize.toNat ∧ s.sdd.effSize.toNat ≤ s.par.reqSize.toNat) ∧
  (s.phase = .sddWord → 1 ≤ s.outLen.toNat)

/-- While `DEC_NDU` runs: a run is under way exactly in run state, and then the output has room (R242, R245). -/
def NduInv (s : State) : Prop :=
  (s.phase = .nduScan → s.ndu.count = 0) ∧
  (s.phase = .nduRun → s.ndu.count ≠ 0 ∧ s.outLen.toNat < s.par.reqSize.toNat)

/-- All of it: what every state of a run from reset satisfies. -/
def Inv (s : State) : Prop :=
  StorageInv s ∧ StatusInv s ∧ CursorInv s ∧ OutputInv s ∧ LzwInv s ∧ HufInv s ∧ SddInv s ∧ NduInv s

/-! ## The bits ahead -/

/-- The `n` bytes of a space from index `a` on. -/
def bytesFrom (m : Memory) : Nat → Nat → List Byte
  | _, 0 => []
  | a, n + 1 => memRead m a :: bytesFrom m (a + 1) n

/-- The bits ahead of the cursor, first one first, in the order of its mode: those held, then those of the bytes not
yet fetched (R24, R67, R68). -/
def ahead (inp : Memory) (inLen : Word) (c : Cursor) : List Bool :=
  let bytes := bytesFrom inp c.bytePos.toNat (inLen.toNat - c.bytePos.toNat)
  match c.mode with
  | .lsb => toLsb c.bitsAvailable.toNat c.bitBuffer.toNat ++ bytes.flatMap fun b => toLsb 8 b.toNat
  | .msb | .byte => toMsb c.bitsAvailable.toNat c.bitBuffer.toNat ++ bytes.flatMap fun b => toMsb 8 b.toNat

/-- The bits ahead of a state's cursor. -/
def aheadOf (s : State) : List Bool := ahead s.inSpace s.par.inLen s.cur

/-- The tests that come before the next symbol's bits are read all pass (R153, R183, R186, R214, R215, R242). -/
def readsNext (s : State) : Prop :=
  match s.phase with
  | .idle => False
  | .lzwCode | .hufSample | .nduScan => s.outLen.toNat < s.par.reqSize.toNat
  | .hufNode => s.huf.nodeCount.toNat < 256
  | .sddHdr | .nduRun => True
  | .sddInit => 0 < s.sdd.effSize.toNat
  | .sddWord => s.outLen.toNat < s.sdd.effSize.toNat

/-! ## Symbols -/

/-- The bits a symbol takes (R109). -/
def symbolBits : Format → Instr → Nat
  | .cmd, _ => 32
  | .lzw width _, _ => width
  | .hufNode, _ => 9
  | .hufSample _ _, .hufSample _ path => 1 + path.length
  | .hufSample _ _, _ => 0
  | .sddHdr, _ => 8
  | .sddInit, _ => 8
  | .sddWord width, _ => width
  | .nduScan _, .nduEsc _ _ => 32
  | .nduScan _, _ => 8
  | .nduRun, _ => 8

/-- `String(c)` (R161): a literal is its own byte; a built entry is its prefix's string and its value. -/
inductive Spells (dict : Table DictEntry) : Code → List Byte → Prop where
  | literal (c : Code) (h : c.toNat < 256) : Spells dict c [c.setWidth 8]
  | built (c : Code) (e : DictEntry) (str : List Byte) (h : 256 ≤ c.toNat) (he : tableGet dict c.toNat = some e)
      (hs : Spells dict e.prefixCode str) : Spells dict c (str ++ [e.value])

/-- The path bits lead from a node to a node, inside the table: 0 to the left child, 1 to the right one (R187). -/
inductive Visits (nodes : Table Node) (count : Nat) : NodeIdx → List Bool → NodeIdx → Prop where
  | here (i : NodeIdx) : Visits nodes count i [] i
  | down (i j k : NodeIdx) (n : Node) (d : Bool) (path : List Bool) (h : tableGet nodes i.toNat = some n)
      (hd : (if d then n.right else n.left) = some j) (hj : j.toNat < count) (hp : Visits nodes count j path k) :
      Visits nodes count i (d :: path) k

/-- A string is appended in forward order at `OUT_LEN`, cut to the room left; every other byte of `OUT` stays (R66,
R162). -/
def Appends (str : List Byte) (s t : State) : Prop :=
  let n := min str.length (s.par.reqSize.toNat - s.outLen.toNat)
  t.outLen.toNat = s.outLen.toNat + n ∧
  (∀ j, j < n → memRead t.outSpace (s.outLen.toNat + j) = str.getD j 0) ∧
  ∀ a, a < s.outLen.toNat ∨ s.outLen.toNat + n ≤ a → memRead t.outSpace a = memRead s.outSpace a

/-- One byte of `OUT` is written; every other one reads as before, and the written one is open no more (log 10). -/
def WritesOut (i : Nat) (v : Byte) (s t : State) : Prop :=
  memRead t.outSpace i = v ∧
  (∀ a, a ≠ i → memRead t.outSpace a = memRead s.outSpace a) ∧
  (∀ a, isOpen t.outOpen a = true ↔ isOpen s.outOpen a = true ∧ a ≠ i) ∧
  t = { s with outSpace := t.outSpace, outOpen := t.outOpen }

/-- After the emission that leads to `t`, an entry is inserted at `nextIndex` unless the output or the table is full,
and the width grows when the new `nextIndex` is `2^codeWidth`, up to 13 (R163 to R165). -/
def Inserts (first : Byte) (s t : State) : Prop :=
  if t.outLen.toNat < s.par.reqSize.toNat ∧ s.lzw.nextIndex.toNat < 8192 then
    t.lzw.nextIndex.toNat = s.lzw.nextIndex.toNat + 1 ∧
    tableGet t.lzw.dict s.lzw.nextIndex.toNat = some { prefixCode := s.lzw.prevCode, value := first } ∧
    (∀ i, i ≠ s.lzw.nextIndex.toNat → tableGet t.lzw.dict i = tableGet s.lzw.dict i) ∧
    t.lzw.codeWidth.toNat =
      if s.lzw.nextIndex.toNat + 1 = 2 ^ s.lzw.codeWidth.toNat ∧ s.lzw.codeWidth.toNat < 13 then
        s.lzw.codeWidth.toNat + 1
      else s.lzw.codeWidth.toNat
  else t.lzw.nextIndex = s.lzw.nextIndex ∧ t.lzw.dict = s.lzw.dict ∧ t.lzw.codeWidth = s.lzw.codeWidth

/-- What a normal code that stands for `str` does (R162 to R166); everything it may not touch stays. -/
def RunsNormalCode (code : Code) (str : List Byte) (s t : State) : Prop :=
  Appends str s t ∧ Inserts (str.getD 0 0) s t ∧ t.lzw.prevCode = code ∧
  t = { s with outSpace := t.outSpace, outOpen := t.outOpen, outLen := t.outLen, lzw := t.lzw }

/-- `t` is `s` after a stop that records `cause` and `consumed`: the outcome from the cause and the lengths (R296),
`BUSY` 0, `DONE` 1, the engine idle, everything else as it stood (R300). -/
def StoppedAs (cause : StopCause) (consumed : Nat) (s t : State) : Prop :=
  t = { s with
    consumed := BitVec.ofNat 32 consumed
    status := { busy := false, done := true, cause := cause,
                outcome := if cause = .invalidTree then .invalidTree
                           else if s.outLen = s.par.reqSize then .success else .partialResult }
    phase := .idle }

/-- The input bytes from `START_OFFSET` to the cursor, or 0 where the command started past the input (R167, R192). -/
def bytesRead (s : State) : Nat :=
  if s.par.startOffset.toNat ≤ s.par.inLen.toNat then s.cur.bytePos.toNat - s.par.startOffset.toNat else 0

/-- Rounded up to a multiple of 4 (R16). -/
def roundUp4 (x : Nat) : Nat := 4 * ((x + 3) / 4)

/-- `CONSUMED` by the running command's formula (R35), from the cursor: the bytes read, rounded up for `DEC_LZW` (R167)
and not for `DEC_HUF` (R192); the header and the rounded bit region of `DEC_SDD`, 0 without a header (R221); the
position of `DEC_NDU` (R249). -/
def consumedFor (s : State) : Nat :=
  match s.phase with
  | .idle => s.consumed.toNat
  | .lzwCode => roundUp4 (bytesRead s)
  | .hufNode | .hufSample => bytesRead s
  | .sddHdr => 0
  | .sddInit | .sddWord => 1 + roundUp4 (s.cur.bytePos.toNat - s.sdd.regionStart.toNat)
  | .nduScan | .nduRun => s.cur.bytePos.toNat

/-- The values that R44 gives after reset, the engine idle; R44 leaves the tables unspecified. -/
def ResetValues (s : State) : Prop :=
  s.status = { busy := false, done := false, outcome := .success, cause := .none } ∧
  s.outLen = 0 ∧ s.consumed = 0 ∧
  s.par = { inLen := 0, startOffset := 0, reqSize := 0, escape := 0 } ∧
  s.cur = { bytePos := 0, bitBuffer := 0, bitsAvailable := 0, mode := .byte, exhausted := false } ∧
  s.lzw.codeWidth = 9 ∧ s.lzw.nextIndex = 257 ∧ s.lzw.prevCode = 0 ∧
  s.huf.nodeCount = 0 ∧ s.huf.runningValue = 0 ∧ s.huf.curNode = 0 ∧ s.huf.signBit = false ∧
  s.sdd.accumulator = 0 ∧ s.sdd.bitWidth = 8 ∧ s.sdd.runCounter = 0 ∧ s.sdd.maxRunLength = 1 ∧
  s.sdd.regionStart = 0 ∧ s.sdd.effSize = 0 ∧
  s.ndu.accumulator = 0 ∧ s.ndu.count = 0 ∧
  s.phase = .idle

/-- The host may issue a command: none runs, and the launch breaks no host duty (R260, R266, U3, U6, U7). -/
def MayLaunch (s : State) : Prop :=
  s.status.busy = false ∧ s.par.inLen.toNat ≤ 2 ^ 32 - 4 ∧ s.par.reqSize.toNat ≤ s.ports.outRoom ∧
  (s.ports.oneMemory = true →
    s.par.inLen.toNat = 0 ∨ s.par.reqSize.toNat = 0 ∨
    s.ports.outBase + s.par.reqSize.toNat ≤ s.ports.inBase ∨ s.ports.inBase + s.par.inLen.toNat ≤ s.ports.outBase)

/-- A Huffman tree: a value and up to two children (R39, R97). -/
inductive CodeTree where
  | leaf (v : BitVec 7)
  | leftOnly (v : BitVec 7) (l : CodeTree)
  | rightOnly (v : BitVec 7) (r : CodeTree)
  | both (v : BitVec 7) (l r : CodeTree)
deriving DecidableEq, Repr

/-- The nodes of a tree. -/
def CodeTree.size : CodeTree → Nat
  | .leaf _ => 1
  | .leftOnly _ l => 1 + l.size
  | .rightOnly _ r => 1 + r.size
  | .both _ l r => 1 + l.size + r.size

/-- The node records of a tree in pre-order (R97). -/
def CodeTree.records : CodeTree → List Instr
  | .leaf v => [.hufNode v false false]
  | .leftOnly v l => .hufNode v true false :: l.records
  | .rightOnly v r => .hufNode v false true :: r.records
  | .both v l r => .hufNode v true true :: (l.records ++ r.records)

/-- The slots of a tree whose root takes slot `i`: a node, its left subtree, its right subtree (R182). -/
def CodeTree.layout : Nat → CodeTree → List Node
  | _, .leaf v => [{ left := none, right := none, value := v }]
  | i, .leftOnly v l => { left := some (BitVec.ofNat 8 (i + 1)), right := none, value := v } :: l.layout (i + 1)
  | i, .rightOnly v r => { left := none, right := some (BitVec.ofNat 8 (i + 1)), value := v } :: r.layout (i + 1)
  | i, .both v l r =>
    { left := some (BitVec.ofNat 8 (i + 1)), right := some (BitVec.ofNat 8 (i + 1 + l.size)), value := v }
      :: (l.layout (i + 1) ++ r.layout (i + 1 + l.size))

/-- The decoded output: `OUT[0 .. OUT_LEN-1]`. -/
def outputOf (s : State) : List Byte := bytesFrom s.outSpace 0 s.outLen.toNat

/-- What the host gets from a finished command (R268, R270). -/
structure Result where
  output : List Byte
  consumed : Word
  outcome : DecodeOutcome
  cause : StopCause
deriving DecidableEq, Repr

/-- The result a state holds. -/
def resultOf (s : State) : Result :=
  { output := outputOf s, consumed := s.consumed, outcome := s.status.outcome, cause := s.status.cause }

/-- Two states look the same to a command: the same parameters and the same input bytes (R270 item 1). -/
def SameArguments (s t : State) : Prop :=
  s.par = t.par ∧ ∀ i, i < s.par.inLen.toNat → memRead s.inSpace i = memRead t.inSpace i

/-- An idle block whose host has nothing more to do. -/
def Quiet (s : State) : Prop := s.status.busy = false ∧ s.phase = .idle ∧ s.host = []

end Sys2Proof.Safety
end

