-- ==== Sys2Proof/Certificates/Slice0/Obligations.lean ====
section
/-! DEFINITION. The statements for the provers. Each docstring names the rules of spec/ it comes from. -/

open Sys2Proof Sys2Proof.Machine Sys2Proof.Safety

/-! ## Reset and the register window -/

/-- R330, R44: asserting the reset input gives every register its reset value, whatever the state; the two spaces stay. -/
def Obligations.ResetInputResetsTheBlock : Prop :=
  ∀ (s : State) rest, s.host = .assertReset :: rest →
    ∃ t, step s = .next t ∧ ResetValues t ∧ t.inSpace = s.inSpace ∧ t.outSpace = s.outSpace ∧ t.host = rest

/-- R32, R334, R342: what a host write does while no command runs. A parameter register keeps what is written (`ESCAPE` its
low byte); a written byte of `OUT` and the placed bytes of `IN` read back, and every other byte reads as before; nothing
else changes. That a new binding of the ports leaves both spaces as they were is the model's choice (log 27), and so is
`outOpen` (log 10). -/
def Obligations.ParameterWriteWhileIdle : Prop :=
  ∀ (s : State) w rest, s.status.busy = false →
    step { s with host := .writeReg 1 w :: rest } = .next { s with host := rest, par := { s.par with inLen := w } } ∧
    step { s with host := .writeReg 2 w :: rest } = .next { s with host := rest, par := { s.par with startOffset := w } } ∧
    step { s with host := .writeReg 3 w :: rest } = .next { s with host := rest, par := { s.par with reqSize := w } } ∧
    step { s with host := .writeReg 4 w :: rest } =
      .next { s with host := rest, par := { s.par with escape := BitVec.ofNat 8 (w.toNat % 256) } } ∧
    (∀ (i : Word) v, s.outSpace.wf = true →
      ∃ t, step { s with host := .writeOut i v :: rest } = .next t ∧ WritesOut i.toNat v { s with host := rest } t) ∧
    (∀ bytes, s.inSpace.wf = true → bytes.length ≤ 2 ^ 32 →
      ∃ t, step { s with host := .placeInput bytes :: rest } = .next t ∧
        (∀ j, j < bytes.length → memRead t.inSpace j = bytes.getD j 0) ∧
        (∀ a, bytes.length ≤ a → memRead t.inSpace a = memRead s.inSpace a) ∧
        t = { s with host := rest, inSpace := t.inSpace }) ∧
    (∀ p, step { s with host := .bindPorts p :: rest } = .next { s with host := rest, ports := p })

/-- R266, R341, R344: while a command runs, a write of `CMD` or of a parameter register is ignored. R342: a write of `OUT`
changes only what the host later finds (that it is performed: log 21). U4: a change of `IN` is refused, and so, by the
model's choice, is a new binding of the ports (log 12). -/
def Obligations.WritesWhileBusyAreIgnored : Prop :=
  ∀ (s : State) rest, s.status.busy = true →
    (∀ (n : BitVec 3) w, n.toNat ≤ 4 → step { s with host := .writeReg n w :: rest } = .next { s with host := rest }) ∧
    (∀ (i : Word) v, s.outSpace.wf = true →
      ∃ t, step { s with host := .writeOut i v :: rest } = .next t ∧ WritesOut i.toNat v { s with host := rest } t) ∧
    (∀ bytes, step { s with host := .placeInput bytes :: rest } = .refused .inputChangedWhileBusy) ∧
    (∀ p, step { s with host := .bindPorts p :: rest } = .refused .portsChangedWhileBusy)

/-- R30, R33, R35, R62: what a host read gives while no command runs: each register of the window, and each byte of `OUT`,
as it stands unless a reset during a command left it open, when it is any byte (U8). A read changes no register of the
block, and a reset while idle opens no byte. (`hostData`, `draws` and `outOpen` are the model's own: logs 8, 10, 17.) -/
def Obligations.RegisterReadWhileIdle : Prop :=
  ∀ (s : State) (n : BitVec 3) (i : Word) rest, s.status.busy = false →
    (isOpen s.outOpen i.toNat = false →
      step { s with host := .readOut i :: rest } =
        .next { s with host := rest, hostData := (memRead s.outSpace i.toNat).setWidth 32, draws := s.draws + 1 }) ∧
    (isOpen s.outOpen i.toNat = true →
      ∃ t, step { s with host := .readOut i :: rest } = .next t ∧ t.hostData.toNat < 256 ∧
        t = { s with host := rest, hostData := t.hostData, draws := t.draws }) ∧
    (∃ t, step { s with host := .assertReset :: rest } = .next t ∧ t.outOpen = s.outOpen) ∧
    ∃ t, step { s with host := .readReg n :: rest } = .next t ∧
      t = { s with host := rest, hostData := t.hostData, draws := t.draws } ∧
      t.hostData.toNat =
        (match n.toNat with
        | 0 => 0
        | 1 => s.par.inLen.toNat
        | 2 => s.par.startOffset.toNat
        | 3 => s.par.reqSize.toNat
        | 4 => s.par.escape.toNat
        | 5 => 2 * s.status.done.toNat
            + 4 * (match s.status.outcome with | .success => 0 | .partialResult => 1 | .invalidTree => 2)
            + 16 * (match s.status.cause with
                | .none => 0 | .full => 1 | .exhausted => 2 | .endCode => 3 | .corrupt => 4 | .invalidTree => 5
                | .nodeRange => 6)
        | 6 => s.outLen.toNat
        | _ => s.consumed.toNat)

/-- R266, R276, U1: while a command runs a read of a register changes nothing of the block. `CMD` reads 0 (R30), a
parameter register as its value, `STATUS` with `BUSY` 1, `DONE` 0 and bits [31:7] 0, whatever is drawn for its open bits;
`OUT_LEN` and `CONSUMED` give any value. R342, U2: a read of `OUT` gives any byte and changes nothing of the block. R332,
U8: a reset then opens `OUT[0 .. REQ_SIZE-1]`, whose bytes stay. (`hostData`, `draws` and `outOpen` are the model's own:
logs 8, 9, 10, 17.) -/
def Obligations.StatusReadWhileBusy : Prop :=
  ∀ (s : State) rest, s.status.busy = true →
    (∀ n : BitVec 3, ∃ t, step { s with host := .readReg n :: rest } = .next t ∧
      t = { s with host := rest, hostData := t.hostData, draws := t.draws } ∧
      (match n.toNat with
      | 0 => t.hostData = 0
      | 1 => t.hostData = s.par.inLen
      | 2 => t.hostData = s.par.startOffset
      | 3 => t.hostData = s.par.reqSize
      | 4 => t.hostData = s.par.escape.setWidth 32
      | 5 => t.hostData.toNat % 4 = 1 ∧ t.hostData.toNat < 128
      | _ => True)) ∧
    (∀ i : Word, ∃ t, step { s with host := .readOut i :: rest } = .next t ∧ t.hostData.toNat < 256 ∧
      t = { s with host := rest, hostData := t.hostData, draws := t.draws }) ∧
    (∃ t, step { s with host := .assertReset :: rest } = .next t ∧ t.outSpace = s.outSpace ∧
      ∀ a, isOpen t.outOpen a = true ↔ a < s.par.reqSize.toNat ∨ isOpen s.outOpen a = true)

/-! ## Steps and decoding -/

/-- A step runs the instruction it fetched, in the state the fetch leaves; and where the host lets the engine go first, the
step is the one the engine takes with no host action to come. The split of a step into a fetch and a meaning, and the
list of host actions with `engine` among them, are the model's own choice (logs 1, 2): R271 leaves the grain and the order
of engine and host steps open. -/
def Obligations.StepRunsTheFetchedInstruction : Prop :=
  (∀ (s : State) i (t : State), fetch s = .run i t → step s = exec i t) ∧
  ∀ (s : State) rest, step { s with host := .engine :: rest } =
    match step { s with host := [] } with
    | .next t => .next { t with host := rest }
    | .fault f => .fault f
    | .refused r => .refused r

/-- R31, R91, R260: a write of `CMD` runs the command of its two low bits, the other bits ignored. -/
def Obligations.CommandWordRunsItsCommand : Prop :=
  ∀ (s : State) (w : Word) rest,
    step { s with host := .writeReg 0 w :: rest } =
      exec (match w.toNat % 4 with | 0 => .decLzw | 1 => .decHuf | 2 => .decSdd | _ => .decNdu) { s with host := rest }

/-- A few words of the opcode table, a node record and an escape sequence, decoded (R91 to R105). -/
def Obligations.WrittenOutWordsDecode : Prop :=
  decodeTableWord 32 0xFFFFFFFD = some .decHuf ∧
  decodeTableWord 16 0x0101 = some .lzwEnd ∧
  decodeTableWord 16 0x0041 = some (.lzwLit 0x41) ∧
  decode .hufNode [false, false, false, false, false, true, true, true, false] = .ok (.hufNode 3 true false) [] ∧
  decode (.nduScan 0xFE)
    ([true, true, true, true, true, true, true, false] ++ [false, false, false, true, false, false, false, false] ++
      [false, false, false, false, false, false, false, true] ++ [false, false, false, false, false, false, true, false]) =
    .ok (.nduEsc 0x10 0x0102) []

/-- Every instruction that a format can say decodes, from the bits the encoder gives it, to itself, whatever follows
(R91 to R105). -/
def Obligations.DecodeInvertsEncode : Prop :=
  ∀ f i bits rest, encode f i = some bits → decode f (bits ++ rest) = .ok i rest

/-- No bit of a stream symbol is dropped: what the decoder takes for an instruction is that instruction's encoding. -/
def Obligations.EncodeInvertsDecode : Prop :=
  ∀ f i bits rest,
    (match f with
      | .cmd => False
      | .lzw width _ => 9 ≤ width ∧ width ≤ 13
      | .sddWord width => 1 ≤ width ∧ width ≤ 9
      | _ => True) →
    decode f bits = .ok i rest → ∃ front, encode f i = some front ∧ bits = front ++ rest

/-- R94: the classes of an LZW code, each by its condition alone. -/
def Obligations.LzwClassesByCondition : Prop :=
  ∀ (next : BitVec 14) (code : Code), 257 ≤ next.toNat → next.toNat ≤ 8192 →
    (code.toNat = 257 → classifyLzw next code = .lzwEnd) ∧
    (next.toNat < code.toNat → classifyLzw next code = .lzwCorrupt code) ∧
    (code.toNat = 256 → classifyLzw next code = .lzwReset) ∧
    (code.toNat ≤ 255 → classifyLzw next code = .lzwLit (BitVec.ofNat 8 code.toNat)) ∧
    (258 ≤ code.toNat → code.toNat < next.toNat → classifyLzw next code = .lzwRef code) ∧
    (258 ≤ code.toNat → code.toNat = next.toNat → classifyLzw next code = .lzwKwkwk code)

/-- R24, R67, R68, R109: where the bits ahead of the cursor decode to an instruction of the format the engine expects,
the step reads exactly those bits and runs that instruction; reading changes nothing but the cursor, which keeps its
invariant, and no byte is fetched before a bit of it is wanted (R133, R137: at most 7 bits are held). (An escape sequence
whose seed fills the output is cut short before its count, R244: CutSymbolExhausts.) -/
def Obligations.StepReadsTheDecodedSymbol : Prop :=
  ∀ (s : State) f i rest, Inv s → s.host = [] → readsNext s → expects s = some f → decode f (aheadOf s) = .ok i rest →
    ((∀ seed count, i ≠ .nduEsc seed count) ∨ s.outLen.toNat + 1 < s.par.reqSize.toNat) →
    ∃ t, fetch s = .run i t ∧ step s = exec i t ∧ t = { s with cur := t.cur } ∧ aheadOf t = rest ∧
      CursorInv t ∧ t.cur.bitsAvailable.toNat ≤ 7

/-- R131 to R135, R292, R35: a symbol cut short. Where the bits ahead end inside it, the command stops with `EXHAUSTED`,
all input fetched and counted by the command's formula; of the rest only the cursor has moved (R301), but a node record has
its slot (R184) and an escape sequence whose seed is there has written it (R244). That seed is out and in the accumulator:
if it leaves room and a count byte is missing, the stop is `EXHAUSTED`; if it fills the output, the stop is `FULL` with the
count bytes unread (R248). (That R184 and R244 go before R301's general sentence: log 19.) -/
def Obligations.CutSymbolExhausts : Prop :=
  ∀ (s : State) f, Inv s → s.host = [] → readsNext s → expects s = some f →
    (decode f (aheadOf s) = .reject .truncated →
      (s.phase = .nduScan → s.par.inLen.toNat ≤ s.cur.bytePos.toNat + 1) →
      ∃ u t, step s = .next t ∧ u = { s with cur := u.cur, huf := u.huf } ∧ StoppedAs .exhausted (consumedFor u) u t ∧
        u.cur.exhausted = true ∧ u.cur.mode = s.cur.mode ∧
        u.cur.bytePos.toNat = max s.par.inLen.toNat s.cur.bytePos.toNat ∧
        aheadOf u = (if s.cur.mode = .lsb then aheadOf s else []) ∧
        (s.phase ≠ .hufNode → u.huf = s.huf) ∧
        (s.phase = .hufNode →
          u.huf = { s.huf with nodes := u.huf.nodes, nodeCount := u.huf.nodeCount } ∧
          u.huf.nodeCount.toNat = s.huf.nodeCount.toNat + 1 ∧
          tableGet u.huf.nodes s.huf.nodeCount.toNat = some { left := none, right := none, value := 0 } ∧
          ∀ i, i ≠ s.huf.nodeCount.toNat → tableGet u.huf.nodes i = tableGet s.huf.nodes i)) ∧
    (s.phase = .nduScan → memRead s.inSpace s.cur.bytePos.toNat = s.par.escape →
      s.cur.bytePos.toNat + 2 ≤ s.par.inLen.toNat →
      ∀ seed, seed = memRead s.inSpace (s.cur.bytePos.toNat + 1) →
      (s.par.inLen.toNat < s.cur.bytePos.toNat + 4 → s.outLen.toNat + 1 < s.par.reqSize.toNat →
        ∃ u t, step s = .next t ∧ Appends [seed] s u ∧
          u = { s with outSpace := u.outSpace, outOpen := u.outOpen, outLen := u.outLen,
                       cur := { s.cur with bytePos := s.par.inLen, exhausted := true },
                       ndu := { s.ndu with accumulator := seed } } ∧
          StoppedAs .exhausted s.par.inLen.toNat u t) ∧
      (s.outLen.toNat + 1 = s.par.reqSize.toNat →
        ∃ u t, step s = .next t ∧ Appends [seed] s u ∧
          u = { s with outSpace := u.outSpace, outOpen := u.outOpen, outLen := u.outLen,
                       cur := { s.cur with bytePos := s.cur.bytePos + 2 },
                       ndu := { s.ndu with accumulator := seed } } ∧
          StoppedAs .full (s.cur.bytePos.toNat + 2) u t))

/-! ## The commands -/

/-- R260 to R265, R45, R151, R181, R210, R241: each command issued while idle; `DEC_NDU` starts at index 0 whatever
`START_OFFSET` is. Three points are the model's choice: that the issue ends here, with the symbols to follow (log 1); that
`OUT_LEN` is set to 0 now, where R260 lets it keep its old value until the stop (log 7); and that `DEC_SDD` leaves
`bitWidth` for its header to set (R213), where R45 lists it among the values at the start (log 26). -/
def Obligations.CommandsIssueWhileIdle : Prop :=
  ∀ (s : State), MayLaunch s →
    exec .decLzw s = .next { s with
      status := { s.status with busy := true, done := false }, outLen := 0, phase := .lzwCode,
      cur := { bytePos := s.par.startOffset, bitBuffer := 0, bitsAvailable := 0, mode := .lsb, exhausted := false },
      lzw := { s.lzw with codeWidth := 9, nextIndex := 257, prevCode := 0 } } ∧
    exec .decHuf s = .next { s with
      status := { s.status with busy := true, done := false }, outLen := 0, phase := .hufNode,
      cur := { bytePos := s.par.startOffset, bitBuffer := 0, bitsAvailable := 0, mode := .msb, exhausted := false },
      huf := { s.huf with nodeCount := 0, runningValue := 0, stack := [] } } ∧
    exec .decSdd s = .next { s with
      status := { s.status with busy := true, done := false }, outLen := 0, phase := .sddHdr,
      cur := { bytePos := s.par.startOffset, bitBuffer := 0, bitsAvailable := 0, mode := .byte, exhausted := false } } ∧
    exec .decNdu s = .next { s with
      status := { s.status with busy := true, done := false }, outLen := 0, phase := .nduScan,
      cur := { bytePos := 0, bitBuffer := 0, bitsAvailable := 0, mode := .byte, exhausted := false },
      ndu := { accumulator := 0, count := 0 } }

/-- U3, U6, U7: a launch that breaks a host duty is refused (spec/93_implementation_defined.md; the ports and the order of
the tests are the model's choice, logs 11 and 13). -/
def Obligations.BadLaunchIsRefused : Prop :=
  ∀ (s : State), s.status.busy = false → ∀ i ∈ [Instr.decLzw, .decHuf, .decSdd, .decNdu],
    (2 ^ 32 - 4 < s.par.inLen.toNat → exec i s = .refused .inLenAboveContract) ∧
    (s.par.inLen.toNat ≤ 2 ^ 32 - 4 → s.ports.oneMemory = true → 0 < s.par.inLen.toNat → 0 < s.par.reqSize.toNat →
      s.ports.inBase < s.ports.outBase + s.par.reqSize.toNat → s.ports.outBase < s.ports.inBase + s.par.inLen.toNat →
      exec i s = .refused .portsOverlap) ∧
    (s.par.inLen.toNat ≤ 2 ^ 32 - 4 →
      (s.ports.oneMemory = true →
        s.par.inLen.toNat = 0 ∨ s.par.reqSize.toNat = 0 ∨
        s.ports.outBase + s.par.reqSize.toNat ≤ s.ports.inBase ∨ s.ports.inBase + s.par.inLen.toNat ≤ s.ports.outBase) →
      s.ports.outRoom < s.par.reqSize.toNat → exec i s = .refused .outputRoomTooSmall)

/-! ## The stop -/

/-- R300, R296, R298, R35: what a stop records, whichever command it ends. -/
def Obligations.StopRecordsTheResult : Prop :=
  ∀ cause (s : State), s.phase ≠ .idle →
    ∃ t consumed, raiseStop cause s = .next t ∧ StoppedAs cause consumed s t ∧
      (s.phase = .lzwCode → consumed = roundUp4 (bytesRead s)) ∧
      (s.phase = .hufNode ∨ s.phase = .hufSample → consumed = bytesRead s) ∧
      (s.phase = .sddHdr → consumed = 0) ∧
      (s.phase = .sddInit ∨ s.phase = .sddWord →
        consumed = 1 + roundUp4 (s.cur.bytePos.toNat - s.sdd.regionStart.toNat)) ∧
      (s.phase = .nduScan ∨ s.phase = .nduRun → consumed = s.cur.bytePos.toNat)

/-- R291, R302 item 1: at a loop head with the output full the command stops with `FULL` and outcome `Success`, and the
input is not examined; so too before the initial value of `DEC_SDD` with a request of 0 (R214, R220), where `CONSUMED` is 1
while the cursor stands at the start of the bit region (R221). -/
def Obligations.FullIsTestedBeforeAnyRead : Prop :=
  ∀ (s : State), s.host = [] → s.phase = .lzwCode ∨ s.phase = .hufSample ∨ s.phase = .nduScan ∨
      (s.phase = .sddWord ∧ s.sdd.effSize = s.par.reqSize) ∨
      (s.phase = .sddInit ∧ s.sdd.effSize = s.par.reqSize ∧ s.par.reqSize = 0) →
    s.outLen = s.par.reqSize →
    ∃ t consumed, step s = .next t ∧ StoppedAs .full consumed s t ∧ t.status.outcome = .success ∧
      (s.phase = .lzwCode → consumed = roundUp4 (bytesRead s)) ∧
      (s.phase = .hufSample → consumed = bytesRead s) ∧
      (s.phase = .sddInit ∨ s.phase = .sddWord →
        consumed = 1 + roundUp4 (s.cur.bytePos.toNat - s.sdd.regionStart.toNat)) ∧
      (s.phase = .sddInit → s.cur.bytePos = s.sdd.regionStart → consumed = 1) ∧
      (s.phase = .nduScan → consumed = s.cur.bytePos.toNat)

/-! ## The cursor micro-operations -/

/-- R130: `CURSOR_INIT`, on every start index. -/
def Obligations.CursorInitSetsTheCursor : Prop :=
  ∀ start m (s : State), exec (.cursorInit start m) s = .next { s with
    cur := { bytePos := start, bitBuffer := 0, bitsAvailable := 0, mode := m, exhausted := false } }

/-- R131: `FETCHB` by a decoder, inside the input. (As an instruction of its own it puts the byte in `delivered`, a field of
the model's own: log 15.) -/
def Obligations.FetchbReadsTheByteAtTheCursor : Prop :=
  ∀ (s : State), s.cur.mode = .byte → s.cur.bytePos.toNat < s.par.inLen.toNat →
    ∃ t, exec .fetchb s = .next t ∧ t = { s with cur := { s.cur with bytePos := t.cur.bytePos }, delivered := t.delivered } ∧
      t.cur.bytePos.toNat = s.cur.bytePos.toNat + 1 ∧
      t.delivered.toNat = (memRead s.inSpace s.cur.bytePos.toNat).toNat

/-- R131 to R135, R35: a micro-operation that finds too little input stops the command with `EXHAUSTED`, `CONSUMED` by the
command's formula at that cursor. `FETCHB` and `RDBIT_M` take nothing; `RDBITS_L` has fetched every byte and keeps the
bits gathered undelivered; `RDBITS_M` keeps the bits it took. -/
def Obligations.MicroOperationsExhaust : Prop :=
  ∀ n (s : State), BufferOk s.cur → s.phase ≠ .idle →
    (s.cur.mode = .byte → s.par.inLen.toNat ≤ s.cur.bytePos.toNat →
      ∃ u t, exec .fetchb s = .next t ∧ StoppedAs .exhausted (consumedFor u) u t ∧
        u = { s with cur := { s.cur with exhausted := true } }) ∧
    (s.cur.mode = .msb → aheadOf s = [] →
      ∃ u t, exec .rdbitM s = .next t ∧ StoppedAs .exhausted (consumedFor u) u t ∧
        u = { s with cur := { s.cur with exhausted := true } }) ∧
    (1 ≤ n → n ≤ 13 → s.cur.mode = .lsb → takeBits n (aheadOf s) = none →
      ∃ u t, exec (.rdbitsL n) s = .next t ∧ StoppedAs .exhausted (consumedFor u) u t ∧ u = { s with cur := u.cur } ∧
        u.cur.exhausted = true ∧ u.cur.mode = .lsb ∧
        u.cur.bytePos.toNat = max s.par.inLen.toNat s.cur.bytePos.toNat ∧ aheadOf u = aheadOf s) ∧
    (1 ≤ n → n ≤ 7 → s.cur.mode = .msb → takeBits n (aheadOf s) = none →
      ∃ u t, exec (.rdbitsM n) s = .next t ∧ StoppedAs .exhausted (consumedFor u) u t ∧ u = { s with cur := u.cur } ∧
        u.cur.exhausted = true ∧ u.cur.mode = .msb ∧
        u.cur.bytePos.toNat = max s.par.inLen.toNat s.cur.bytePos.toNat ∧ aheadOf u = [])

/-- R132, R67: `RDBITS_L n` delivers the next `n` bits, first stream bit its bit 0, and takes exactly them. (`delivered` is
the model's own: log 15.) -/
def Obligations.RdbitsLDeliversTheNextField : Prop :=
  ∀ n (s : State) front rest, 1 ≤ n → n ≤ 13 → s.cur.mode = .lsb → BufferOk s.cur → takeBits n (aheadOf s) = some (front, rest) →
    ∃ t, exec (.rdbitsL n) s = .next t ∧ t.delivered.toNat = ofLsb front ∧ aheadOf t = rest ∧ BufferOk t.cur ∧
      t = { s with cur := t.cur, delivered := t.delivered } ∧ t.cur.mode = .lsb ∧ t.cur.exhausted = s.cur.exhausted

/-- R133, R68: `RDBIT_M` delivers the next bit, the top bit of a byte first, and takes exactly it; a byte is fetched when,
and only when, no bit is held. (`delivered` is the model's own: log 15.) -/
def Obligations.RdbitMDeliversTheNextBit : Prop :=
  ∀ (s : State) d rest, s.cur.mode = .msb → BufferOk s.cur → aheadOf s = d :: rest →
    ∃ t, exec .rdbitM s = .next t ∧ t.delivered.toNat = d.toNat ∧ aheadOf t = rest ∧ BufferOk t.cur ∧
      t.cur.bitsAvailable.toNat ≤ 7 ∧
      t.cur.bytePos.toNat = s.cur.bytePos.toNat + (if s.cur.bitsAvailable = 0 then 1 else 0) ∧
      t = { s with cur := t.cur, delivered := t.delivered } ∧ t.cur.mode = .msb ∧ t.cur.exhausted = s.cur.exhausted

/-- R134, R133: `RDBITS_M n` delivers the next `n` bits, first stream bit its most significant bit; a byte is fetched when,
and only when, fewer are held. (`delivered` is the model's own: log 15.) -/
def Obligations.RdbitsMDeliversTheNextField : Prop :=
  ∀ n (s : State) front rest, 1 ≤ n → n ≤ 7 → s.cur.mode = .msb → BufferOk s.cur → takeBits n (aheadOf s) = some (front, rest) →
    ∃ t, exec (.rdbitsM n) s = .next t ∧ t.delivered.toNat = ofMsb front ∧ aheadOf t = rest ∧ BufferOk t.cur ∧
      t.cur.bitsAvailable.toNat ≤ 7 ∧
      t.cur.bytePos.toNat = s.cur.bytePos.toNat + (if s.cur.bitsAvailable.toNat < n then 1 else 0) ∧
      t = { s with cur := t.cur, delivered := t.delivered } ∧ t.cur.mode = .msb ∧ t.cur.exhausted = s.cur.exhausted

/-- Outside its mode or its range of bit counts a micro-operation is refused: R138 gives "unrepresentable or a refusal",
and the refusals are the model's choice (log 15). -/
def Obligations.MicroOperationsKeepToTheirModes : Prop :=
  ∀ (s : State) n,
    (s.cur.mode ≠ .byte → exec .fetchb s = .refused .wrongMode) ∧
    (s.cur.mode ≠ .msb → exec .rdbitM s = .refused .wrongMode) ∧
    (1 ≤ n → n ≤ 13 → s.cur.mode ≠ .lsb → exec (.rdbitsL n) s = .refused .wrongMode) ∧
    (1 ≤ n → n ≤ 7 → s.cur.mode ≠ .msb → exec (.rdbitsM n) s = .refused .wrongMode) ∧
    (n = 0 ∨ 13 < n → exec (.rdbitsL n) s = .refused .bitCountOutOfRange) ∧
    (n = 0 ∨ 7 < n → exec (.rdbitsM n) s = .refused .bitCountOutOfRange)

/-! ## LZW -/

/-- R158, R161 to R166: a literal; `MATCH` holds its byte. -/
def Obligations.LzwLiteralRuns : Prop :=
  ∀ b (s : State), s.phase = .lzwCode → s.outSpace.wf = true →
    ∃ t, exec (.lzwLit b) s = .next t ∧ RunsNormalCode (b.setWidth 13) [b] s t ∧ t.lzw.scratch = [b]

/-- R159 to R166: a reference to an entry whose string is `str`, and the self-reference where the previous code's string
is `str`. -/
def Obligations.LzwReferencesRun : Prop :=
  ∀ c (s : State) str, s.phase = .lzwCode → s.outSpace.wf = true → str.length ≤ 8192 →
    (Spells s.lzw.dict c str →
      ∃ t, exec (.lzwRef c) s = .next t ∧ RunsNormalCode c str s t ∧ t.lzw.scratch = str) ∧
    (Spells s.lzw.dict s.lzw.prevCode str →
      ∃ t, exec (.lzwKwkwk c) s = .next t ∧ RunsNormalCode c (str ++ [str.getD 0 0]) s t ∧ t.lzw.scratch = str)

/-- R168 item 2: where the entries are built, every normal code below the top stands for one string, of at most
`c - 256` bytes for a built entry. -/
def Obligations.LzwStringsAreWellDefined : Prop :=
  ∀ dict top (c : Code), DictBuilt dict top → NormalCode c → c.toNat < top →
    ∃ str, Spells dict c str ∧ str ≠ [] ∧ (258 ≤ c.toNat → str.length ≤ c.toNat - 256) ∧
      ∀ other, Spells dict c other → other = str

/-- R157: the dictionary reset. -/
def Obligations.LzwResetResetsTheCounters : Prop :=
  ∀ (s : State), s.phase = .lzwCode →
    exec .lzwReset s = .next { s with lzw := { s.lzw with codeWidth := 9, nextIndex := 257, prevCode := 0 } }

/-- R155, R156, R293, R294, R167: the end code and a corrupt code stop the command; nothing is emitted or inserted. -/
def Obligations.LzwEndAndCorruptStop : Prop :=
  ∀ c (s : State), s.phase = .lzwCode → s.outLen.toNat < s.par.reqSize.toNat →
    (∃ t, exec .lzwEnd s = .next t ∧ StoppedAs .endCode (roundUp4 (bytesRead s)) s t ∧ t.status.outcome = .partialResult) ∧
    (∃ t, exec (.lzwCorrupt c) s = .next t ∧ StoppedAs .corrupt (roundUp4 (bytesRead s)) s t ∧
      t.status.outcome = .partialResult)

/-! ## Huffman -/

/-- R182: a node record with a child takes the next slot, and the build goes on with its first child. (R40 gives a stack
slot the node and which child is pending; that `leftChild` also holds whether the right one follows is the model's choice,
log 6. The record of a leaf stands in HufBuildsTheTree and OneSidedRootIsInvalid.) -/
def Obligations.HufNodeWithChildDescends : Prop :=
  ∀ v (s : State), s.phase = .hufNode → s.huf.nodeCount.toNat < 256 → ∀ l r, l = true ∨ r = true →
    ∃ t, exec (.hufNode v l r) s = .next t ∧
      t = { s with huf := { s.huf with nodes := t.huf.nodes, nodeCount := t.huf.nodeCount, stack := t.huf.stack } } ∧
      t.huf.nodeCount.toNat = s.huf.nodeCount.toNat + 1 ∧
      tableGet t.huf.nodes s.huf.nodeCount.toNat = some { left := none, right := none, value := v } ∧
      (∀ i, i ≠ s.huf.nodeCount.toNat → tableGet t.huf.nodes i = tableGet s.huf.nodes i) ∧
      t.huf.stack =
        { node := BitVec.ofNat 8 s.huf.nodeCount.toNat, pending := if l then .leftChild r else .rightChild } :: s.huf.stack

/-- R183, R297: a record wanted when 256 slots are allocated stops the command with `NODE_RANGE`, before its bits are
read. -/
def Obligations.NodeTableOverflowStops : Prop :=
  ∀ (s : State), s.phase = .hufNode → s.huf.nodeCount.toNat = 256 →
    (∀ v l r, ∃ t, exec (.hufNode v l r) s = .next t ∧ StoppedAs .nodeRange (bytesRead s) s t) ∧
    (s.host = [] → ∃ t, step s = .next t ∧ StoppedAs .nodeRange (bytesRead s) s t)

/-- R182, R185, R194: the node records of a tree of at most 256 nodes whose root has two children, run one after another
from an empty table, build that tree's slots in pre-order and leave the engine at the samples. -/
def Obligations.HufBuildsTheTree : Prop :=
  ∀ (v : BitVec 7) (l r : CodeTree) (s : State), s.phase = .hufNode → s.huf.nodeCount = 0 → s.huf.stack = [] →
    (CodeTree.both v l r).size ≤ 256 →
    ∃ t, execAll (CodeTree.both v l r).records s = .next t ∧ t.phase = .hufSample ∧ t.huf.stack = [] ∧
      t.huf.nodeCount.toNat = (CodeTree.both v l r).size ∧
      (∀ i, i < (CodeTree.both v l r).size → tableGet t.huf.nodes i = (CodeTree.layout 0 (CodeTree.both v l r))[i]?) ∧
      t = { s with phase := .hufSample, huf := { s.huf with nodes := t.huf.nodes, nodeCount := t.huf.nodeCount } }

/-- R185, R295: a tree whose root has fewer than two children stops the command with `InvalidTree` once its last record is
in, with no output. -/
def Obligations.OneSidedRootIsInvalid : Prop :=
  ∀ (tree : CodeTree) (s : State), s.phase = .hufNode → s.huf.nodeCount = 0 → s.huf.stack = [] → s.outLen = 0 → tree.size ≤ 256 →
    (∀ v l r, tree ≠ .both v l r) →
    ∃ t, execAll tree.records s = .next t ∧ StoppedAs .invalidTree (bytesRead s) { s with huf := t.huf } t ∧
      t.status.outcome = .invalidTree ∧ t.outLen = 0

/-- R187, R188, R14: a sample whose path leads from the root to a leaf. -/
def Obligations.HufSampleAddsTheLeaf : Prop :=
  ∀ sign path (s : State) k leaf, s.phase = .hufSample → s.outLen.toNat < s.par.reqSize.toNat → s.outSpace.wf = true →
    path.length ≤ 255 → Visits s.huf.nodes s.huf.nodeCount.toNat 0 path k → tableGet s.huf.nodes k.toNat = some leaf →
    leaf.left = none → leaf.right = none →
    ∃ t, exec (.hufSample sign path) s = .next t ∧ Appends [t.huf.runningValue] s t ∧
      t.huf.runningValue.toNat =
        (s.huf.runningValue.toNat + (if sign then 255 - leaf.value.toNat else leaf.value.toNat)) % 256 ∧
      t = { s with outSpace := t.outSpace, outOpen := t.outOpen, outLen := t.outLen,
                   huf := { s.huf with runningValue := t.huf.runningValue, signBit := sign, curNode := k } }

/-- R189, R190, R297: a path bit that selects an absent child, or one outside the table, stops the command with
`NODE_RANGE`; no sample is produced, and the symbol has no effect on the working registers (R135, R301; that this goes for
the `signBit` and `curNode` that R187's pseudocode writes on its way is the model's reading, log 19). -/
def Obligations.AbsentChildStops : Prop :=
  ∀ sign path d (s : State) k n, s.phase = .hufSample → path.length ≤ 255 →
    Visits s.huf.nodes s.huf.nodeCount.toNat 0 path k → tableGet s.huf.nodes k.toNat = some n →
    n.left ≠ none ∨ n.right ≠ none →
    (∀ j, (if d then n.right else n.left) = some j → s.huf.nodeCount.toNat ≤ j.toNat) →
    ∃ t, exec (.hufSample sign (path ++ [d])) s = .next t ∧
      StoppedAs .nodeRange (bytesRead s) s t

/-! ## Sigma-delta -/

/-- R211 to R213: the header byte, the clamp and the entry to the bit region. -/
def Obligations.SddHeaderEntersTheRegion : Prop :=
  ∀ m (s : State), s.phase = .sddHdr →
    ∃ t, exec (.sddHdr m) s = .next t ∧
      t = { s with cur := { s.cur with mode := .lsb }, phase := .sddInit,
                   sdd := { accumulator := s.sdd.accumulator, bitWidth := 8, runCounter := t.sdd.maxRunLength,
                            maxRunLength := t.sdd.maxRunLength, regionStart := s.cur.bytePos, effSize := t.sdd.effSize } } ∧
      t.sdd.maxRunLength.toNat = max m.toNat 1 ∧
      t.sdd.effSize.toNat = min s.par.reqSize.toNat (8 * (s.par.inLen.toNat - s.cur.bytePos.toNat))

/-- R214: the initial value is the accumulator and the first output; with a clamped size of 0 nothing is output. -/
def Obligations.SddInitIsTheFirstSample : Prop :=
  ∀ a (s : State), s.phase = .sddInit → s.outSpace.wf = true →
    (0 < s.sdd.effSize.toNat → s.outLen.toNat < s.par.reqSize.toNat →
      ∃ t, exec (.sddInit a) s = .next t ∧ Appends [a] s t ∧
        t = { s with outSpace := t.outSpace, outOpen := t.outOpen, outLen := t.outLen, phase := .sddWord,
                     sdd := { s.sdd with accumulator := a } }) ∧
    (s.sdd.effSize = 0 → exec (.sddInit a) s = .next { s with phase := .sddWord })

/-- R216: the escape widens, up to 9, reloads the run counter and emits nothing. -/
def Obligations.SddEscapeWidens : Prop :=
  ∀ (s : State), s.phase = .sddWord → 1 ≤ s.sdd.bitWidth.toNat → s.sdd.bitWidth.toNat ≤ 9 →
    ∃ t, exec .sddEsc s = .next t ∧ t.sdd.bitWidth.toNat = min (s.sdd.bitWidth.toNat + 1) 9 ∧
      t = { s with sdd := { s.sdd with bitWidth := t.sdd.bitWidth, runCounter := s.sdd.maxRunLength } }

/-- R217, R218, R15: a hold adds or subtracts its magnitude, outputs the sample, reloads the run counter and keeps the
width. -/
def Obligations.SddHoldKeepsTheWidth : Prop :=
  ∀ (v : BitVec 9) (s : State), s.phase = .sddWord → s.outLen.toNat < s.par.reqSize.toNat → s.outSpace.wf = true →
    ∃ t, exec (.sddHold v) s = .next t ∧ Appends [t.sdd.accumulator] s t ∧
      t.sdd.accumulator.toNat =
        (if v.toNat % 2 = 1 then s.sdd.accumulator.toNat + 256 - v.toNat / 2 else s.sdd.accumulator.toNat + v.toNat / 2) % 256 ∧
      t = { s with outSpace := t.outSpace, outOpen := t.outOpen, outLen := t.outLen,
                   sdd := { s.sdd with accumulator := t.sdd.accumulator, runCounter := s.sdd.maxRunLength } }

/-- R217, R219, R15: a delta does the same sample arithmetic, then counts down, and shrinks the width when the counter
reaches 0. -/
def Obligations.SddDeltaCountsDown : Prop :=
  ∀ (v : BitVec 9) (s : State), s.phase = .sddWord → s.outLen.toNat < s.par.reqSize.toNat → s.outSpace.wf = true →
    1 ≤ s.sdd.runCounter.toNat → 1 ≤ s.sdd.bitWidth.toNat → s.sdd.bitWidth.toNat ≤ 9 →
    ∃ t, exec (.sddDelta v) s = .next t ∧ Appends [t.sdd.accumulator] s t ∧
      t.sdd.accumulator.toNat =
        (if v.toNat % 2 = 1 then s.sdd.accumulator.toNat + 256 - v.toNat / 2 else s.sdd.accumulator.toNat + v.toNat / 2) % 256 ∧
      (s.sdd.runCounter.toNat = 1 →
        t.sdd.bitWidth.toNat = max (s.sdd.bitWidth.toNat - 1) 1 ∧ t.sdd.runCounter = s.sdd.maxRunLength) ∧
      (s.sdd.runCounter.toNat ≠ 1 →
        t.sdd.bitWidth = s.sdd.bitWidth ∧ t.sdd.runCounter.toNat = s.sdd.runCounter.toNat - 1) ∧
      t = { s with outSpace := t.outSpace, outOpen := t.outOpen, outLen := t.outLen,
                   sdd := { s.sdd with accumulator := t.sdd.accumulator, bitWidth := t.sdd.bitWidth,
                                       runCounter := t.sdd.runCounter } }

/-- R220: at a loop head (or with nothing to read) the clamped size decides the stop, `EXHAUSTED` where the clamp cut the
request. -/
def Obligations.SddClampStops : Prop :=
  ∀ (s : State), s.host = [] → s.sdd.effSize ≠ s.par.reqSize →
    (s.phase = .sddWord ∧ s.sdd.effSize.toNat ≤ s.outLen.toNat) ∨ (s.phase = .sddInit ∧ s.sdd.effSize = 0) →
    ∃ t, step s = .next t ∧
      StoppedAs .exhausted (1 + roundUp4 (s.cur.bytePos.toNat - s.sdd.regionStart.toNat)) s t

/-! ## Nibble-delta -/

/-- R243: a literal byte is the output and the accumulator. -/
def Obligations.NduLiteralIsCopied : Prop :=
  ∀ b (s : State), s.phase = .nduScan → s.outLen.toNat < s.par.reqSize.toNat → s.outSpace.wf = true →
    ∃ t, exec (.nduLit b) s = .next t ∧ Appends [b] s t ∧
      t = { s with outSpace := t.outSpace, outOpen := t.outOpen, outLen := t.outLen,
                   ndu := { s.ndu with accumulator := b } }

/-- R244, R246, R248: the seed is output; then `FULL`, or the run of `count` samples, none of them where `count` is 0. -/
def Obligations.NduEscapeStartsARun : Prop :=
  ∀ seed count (s : State), s.phase = .nduScan → s.outSpace.wf = true →
    (s.outLen.toNat + 1 < s.par.reqSize.toNat →
      ∃ t, exec (.nduEsc seed count) s = .next t ∧ Appends [seed] s t ∧
        t = { s with outSpace := t.outSpace, outOpen := t.outOpen, outLen := t.outLen,
                     phase := if count.toNat = 0 then .nduScan else .nduRun,
                     ndu := { accumulator := seed, count := count } }) ∧
    (s.outLen.toNat + 1 = s.par.reqSize.toNat →
      ∃ u t, exec (.nduEsc seed count) s = .next t ∧ Appends [seed] s u ∧
        u = { s with outSpace := u.outSpace, outOpen := u.outOpen, outLen := u.outLen,
                     ndu := { s.ndu with accumulator := seed } } ∧
        StoppedAs .full s.cur.bytePos.toNat u t)

/-- R245, R13: a pair inside a run outputs two samples, each the accumulator plus a signed nibble modulo 256; the run ends
when its count reaches 0. -/
def Obligations.NduPairAddsTwoNibbles : Prop :=
  ∀ (h l : Nibble) (s : State), s.phase = .nduRun → 2 ≤ s.ndu.count.toNat → s.outLen.toNat + 2 < s.par.reqSize.toNat →
    s.outSpace.wf = true →
    ∃ (t : State) (first second : Byte), exec (.nduPair h l) s = .next t ∧ Appends [first, second] s t ∧
      first.toNat = (s.ndu.accumulator.toNat + (if h.toNat < 8 then h.toNat else h.toNat + 240)) % 256 ∧
      second.toNat = (first.toNat + (if l.toNat < 8 then l.toNat else l.toNat + 240)) % 256 ∧
      t.ndu.count.toNat = s.ndu.count.toNat - 2 ∧
      t = { s with outSpace := t.outSpace, outOpen := t.outOpen, outLen := t.outLen,
                   phase := if s.ndu.count.toNat = 2 then .nduScan else .nduRun,
                   ndu := { accumulator := second, count := t.ndu.count } }

/-- R245, R247, R248: where a run ends. The last sample of an odd run is a high nibble, the low one is dropped and the scan
goes on; a run cut by `FULL` after the high nibble leaves the low one unapplied; one cut after the low nibble has both.
Either cut leaves `count` where it stands. -/
def Obligations.NduRunEnds : Prop :=
  ∀ (h l : Nibble) (s : State), s.phase = .nduRun → s.outSpace.wf = true →
    ∀ first second : Byte,
      first.toNat = (s.ndu.accumulator.toNat + (if h.toNat < 8 then h.toNat else h.toNat + 240)) % 256 →
      second.toNat = (first.toNat + (if l.toNat < 8 then l.toNat else l.toNat + 240)) % 256 →
    (s.ndu.count.toNat = 1 → s.outLen.toNat + 1 < s.par.reqSize.toNat →
      ∃ t, exec (.nduPair h l) s = .next t ∧ Appends [first] s t ∧
        t = { s with outSpace := t.outSpace, outOpen := t.outOpen, outLen := t.outLen, phase := .nduScan,
                     ndu := { accumulator := first, count := 0 } }) ∧
    (1 ≤ s.ndu.count.toNat → s.outLen.toNat + 1 = s.par.reqSize.toNat →
      ∃ u t, exec (.nduPair h l) s = .next t ∧ Appends [first] s u ∧ u.ndu.count.toNat = s.ndu.count.toNat - 1 ∧
        u = { s with outSpace := u.outSpace, outOpen := u.outOpen, outLen := u.outLen,
                     ndu := { accumulator := first, count := u.ndu.count } } ∧
        StoppedAs .full s.cur.bytePos.toNat u t) ∧
    (2 ≤ s.ndu.count.toNat → s.outLen.toNat + 2 = s.par.reqSize.toNat →
      ∃ u t, exec (.nduPair h l) s = .next t ∧ Appends [first, second] s u ∧
        u.ndu.count.toNat = s.ndu.count.toNat - 2 ∧
        u = { s with outSpace := u.outSpace, outOpen := u.outOpen, outLen := u.outLen,
                     ndu := { accumulator := second, count := u.ndu.count } } ∧
        StoppedAs .full s.cur.bytePos.toNat u t)

/-! ## The whole machine -/

/-- R44, R331: the state after reset has the values of R44 and satisfies the invariant. (That its tables and both spaces are
empty is the model's choice: logs 3 and 5.) -/
def Obligations.ResetStateIsSound : Prop := ResetValues State.reset ∧ Inv State.reset

/-- Every step keeps the two spaces and the two tables in canonical form. -/
def Obligations.StepKeepsStorage : Prop := ∀ (s : State) (t : State), StorageInv s → step s = .next t → StorageInv t

/-- R33: `BUSY` says that a command runs, and `BUSY` and `DONE` are never both 1. -/
def Obligations.StepKeepsStatus : Prop := ∀ (s : State) (t : State), StatusInv s → step s = .next t → StatusInv t

/-- R22, R23, R36: every step keeps the cursor's invariants. -/
def Obligations.StepKeepsCursor : Prop :=
  ∀ (s : State) (t : State), StatusInv s → CursorInv s → step s = .next t → CursorInv t

/-- R66: every step keeps the output within the requested size. -/
def Obligations.StepKeepsOutputInBounds : Prop :=
  ∀ (s : State) (t : State), StatusInv s → OutputInv s → step s = .next t → OutputInv t

/-- R168: every step keeps the invariants of the LZW loop head. -/
def Obligations.StepKeepsLzw : Prop := ∀ (s : State) (t : State), StatusInv s → LzwInv s → step s = .next t → LzwInv t

/-- R40, R182, R183, R185, R194: every step keeps the node table linked forward and the stack ordered, empty exactly when
no slot is allocated. -/
def Obligations.StepKeepsHuffman : Prop := ∀ (s : State) (t : State), HufInv s → step s = .next t → HufInv t

/-- R222: every step keeps the sigma-delta ranges. -/
def Obligations.StepKeepsSigmaDelta : Prop := ∀ (s : State) (t : State), StatusInv s → SddInv s → step s = .next t → SddInv t

/-- R242, R245: every step keeps a run under way exactly in run state. -/
def Obligations.StepKeepsNibbleDelta : Prop := ∀ (s : State) (t : State), StatusInv s → NduInv s → step s = .next t → NduInv t

/-- R299: nothing else can go wrong inside the block: from a state of the invariant the engine's step neither faults nor is
refused. -/
def Obligations.EngineNeverFaults : Prop := ∀ (s : State), Inv s → s.host = [] → ∃ t, step s = .next t

/-- R267, R348, R270 item 3: a command stops after at most one step more than it has bits left, a step being one symbol
(log 1). -/
def Obligations.EveryCommandStops : Prop :=
  ∀ (s : State), Inv s → s.host = [] → ∃ t, run (bitsLeft s + 1) s = .next t ∧ t.phase = .idle

/-- R63: what a step does never depends on an input byte at or past `IN_LEN`. -/
def Obligations.NoReadPastTheInput : Prop :=
  ∀ (s : State) m, s.host = [] → (∀ i, i < s.par.inLen.toNat → memRead m i = memRead s.inSpace i) →
    step { s with inSpace := m } =
      match step s with
      | .next t => .next { t with inSpace := m }
      | .fault f => .fault f
      | .refused r => .refused r

/-- R66, R62, U10: an engine step writes output bytes from the old `OUT_LEN` up to the new one alone, none at or past
`REQ_SIZE`, and `OUT_LEN` never decreases. (The written bytes, and no others, are open no more: the model's form, log 10.) -/
def Obligations.OutputIsWrittenOnce : Prop :=
  ∀ (s : State) (t : State), Inv s → s.host = [] → step s = .next t →
    s.outLen.toNat ≤ t.outLen.toNat ∧
    (∀ a, a < s.outLen.toNat ∨ t.outLen.toNat ≤ a ∨ s.par.reqSize.toNat ≤ a →
      memRead t.outSpace a = memRead s.outSpace a) ∧
    ∀ a, isOpen t.outOpen a = true ↔ isOpen s.outOpen a = true ∧ ¬ (s.outLen.toNat ≤ a ∧ a < t.outLen.toNat)

/-- R3, R29: an engine step of one command leaves the other units, the parameters and the input as they are. -/
def Obligations.UnitsAreIndependent : Prop :=
  ∀ (s : State) (t : State), s.host = [] → step s = .next t →
    t.par = s.par ∧ t.inSpace = s.inSpace ∧ t.ports = s.ports ∧
    (s.phase ≠ .lzwCode → t.lzw = s.lzw) ∧
    (s.phase ≠ .hufNode → s.phase ≠ .hufSample → t.huf = s.huf) ∧
    (s.phase ≠ .sddHdr → s.phase ≠ .sddInit → s.phase ≠ .sddWord → t.sdd = s.sdd) ∧
    (s.phase ≠ .nduScan → s.phase ≠ .nduRun → t.ndu = s.ndu)

/-- R270 items 1 and 3, R333, R139, R268: a command's result is a function of its arguments: from two idle blocks that agree
on the parameters and the input bytes, whatever ran before, the same command ends after the same steps with the same
output, consumed count, outcome and cause. -/
def Obligations.ResultDependsOnArgumentsAlone : Prop :=
  ∀ (s : State) (t : State), Quiet s → Quiet t → MayLaunch s → MayLaunch t → SameArguments s t → s.outSpace.wf = true → t.outSpace.wf = true →
    ∀ i ∈ [Instr.decLzw, .decHuf, .decSdd, .decNdu],
      ∃ s1 t1 s2 t2, exec i s = .next s1 ∧ exec i t = .next t1 ∧
        run (8 * s.par.inLen.toNat + 1) s1 = .next s2 ∧ run (8 * s.par.inLen.toNat + 1) t1 = .next t2 ∧
        s2.phase = .idle ∧ t2.phase = .idle ∧ resultOf s2 = resultOf t2
end

