-- ==== Sys2Proof/Laws/Memory.lean ====
section
/-! SUPPORT. The byte spaces and the tables: what a write does to each read, and that it keeps the canonical form. -/

namespace Sys2Proof.Laws

open Sys2Proof.Machine

/-! ## Rising keys -/

/-- A list of keys is strictly rising exactly when its first key is below all the others and they are rising. -/
theorem rising_cons {a : Nat} {keys : List Nat} :
    rising (a :: keys) = true ↔ (∀ k ∈ keys, a < k) ∧ rising keys = true := by
  induction keys generalizing a with
  | nil => simp [rising]
  | cons b rest ih =>
    simp only [rising, Bool.and_eq_true, decide_eq_true_eq, List.mem_cons, forall_eq_or_imp, ih]
    constructor
    · rintro ⟨hab, hb, hr⟩
      exact ⟨⟨hab, fun k hk => lt_trans hab (hb k hk)⟩, hb, hr⟩
    · rintro ⟨⟨hab, _⟩, hb, hr⟩
      exact ⟨hab, hb, hr⟩

/-- The canonical form of a space, cell by cell. -/
theorem Memory_wf_cons {b : Nat} {w : Byte} {rest : Memory} :
    Memory.wf ((b, w) :: rest) = true ↔
      (∀ c ∈ rest, b < c.1) ∧ w ≠ Config.blank ∧ Memory.wf rest = true := by
  simp only [Memory.wf, List.map_cons, Bool.and_eq_true, rising_cons, List.all_cons, bne_iff_ne, ne_eq,
    List.mem_map, forall_exists_index, and_imp, forall_apply_eq_imp_iff₂]
  tauto

/-! ## The byte spaces -/

/-- Below every listed index, a space reads as an unlisted index does. -/
theorem memRead_of_lt {m : Memory} {a : Nat} (h : ∀ c ∈ m, a < c.1) : memRead m a = Config.blank := by
  induction m with
  | nil => rfl
  | cons c rest ih =>
    have hc : a < c.1 := h c (List.mem_cons_self ..)
    simp only [memRead, Nat.ne_of_gt hc, if_false]
    exact ih fun d hd => h d (List.mem_cons_of_mem _ hd)

/-- The keys after a write: those before it, and at most the written one. -/
theorem mem_memWrite {m : Memory} {a : Nat} {v : Byte} {c : Host.Cell} (h : c ∈ memWrite m a v) :
    c = (a, v) ∨ c ∈ m := by
  have hcell : ∀ d, d ∈ cellFor a v → d = (a, v) := by
    intro d hd
    unfold cellFor at hd
    split at hd <;> simp_all
  induction m with
  | nil => exact .inl (hcell c h)
  | cons d rest ih =>
    obtain ⟨b, w⟩ := d
    simp only [memWrite] at h
    split at h
    · rcases List.mem_append.1 h with h | h
      · exact .inl (hcell c h)
      · exact .inr h
    · split at h
      · rcases List.mem_append.1 h with h | h
        · exact .inl (hcell c h)
        · exact .inr (List.mem_cons_of_mem _ h)
      · rcases List.mem_cons.1 h with h | h
        · exact .inr (h ▸ List.mem_cons_self ..)
        · exact (ih h).imp_right (List.mem_cons_of_mem _)

/-- A cell put before rising, larger keys keeps the form. -/
theorem cellFor_append_wf {m : Memory} {a : Nat} {v : Byte} (hm : m.wf = true) (h : ∀ c ∈ m, a < c.1) :
    Memory.wf (cellFor a v ++ m) = true := by
  unfold cellFor
  split
  · exact hm
  · exact Memory_wf_cons.2 ⟨h, by assumption, hm⟩

/-- A write keeps the canonical form. -/
theorem memWrite_wf {m : Memory} {a : Nat} {v : Byte} (h : m.wf = true) : (memWrite m a v).wf = true := by
  induction m with
  | nil => simpa [memWrite] using cellFor_append_wf (m := []) (a := a) (v := v) h (by simp)
  | cons d rest ih =>
    obtain ⟨b, w⟩ := d
    obtain ⟨hb, hw, hr⟩ := Memory_wf_cons.1 h
    simp only [memWrite]
    split
    · rename_i hab
      exact cellFor_append_wf h fun c hc => by
        rcases List.mem_cons.1 hc with rfl | hc
        · exact hab
        · exact lt_trans hab (hb c hc)
    · split
      · rename_i hab
        exact cellFor_append_wf hr (hab ▸ hb)
      · refine Memory_wf_cons.2 ⟨fun c hc => ?_, hw, ih hr⟩
        rcases mem_memWrite hc with rfl | hc
        · change b < a
          omega
        · exact hb c hc

/-- A write and a read of the same index give the byte written. -/
theorem memRead_memWrite_same {m : Memory} {a : Nat} {v : Byte} (h : m.wf = true) :
    memRead (memWrite m a v) a = v := by
  have hcell : ∀ rest : Memory, (∀ c ∈ rest, a < c.1) → memRead (cellFor a v ++ rest) a = v := by
    intro rest hrest
    unfold cellFor
    split
    · rename_i hv
      simpa [hv] using memRead_of_lt hrest
    · simp [memRead]
  induction m with
  | nil => simpa [memWrite] using hcell [] (by simp)
  | cons d rest ih =>
    obtain ⟨b, w⟩ := d
    obtain ⟨hb, hw, hr⟩ := Memory_wf_cons.1 h
    simp only [memWrite]
    split
    · rename_i hab
      exact hcell _ fun c hc => by
        rcases List.mem_cons.1 hc with rfl | hc
        · exact hab
        · exact lt_trans hab (hb c hc)
    · split
      · rename_i hab
        exact hcell _ (hab ▸ hb)
      · rename_i h1 h2
        simp only [memRead, if_neg (Ne.symm h2)]
        exact ih hr

/-- A write leaves every other index as it reads. -/
theorem memRead_memWrite_other {m : Memory} {a c : Nat} {v : Byte} (h : c ≠ a) :
    memRead (memWrite m a v) c = memRead m c := by
  have hcell : ∀ rest : Memory, memRead (cellFor a v ++ rest) c = memRead rest c := by
    intro rest
    unfold cellFor
    split
    · rfl
    · simp [memRead, h.symm]
  induction m with
  | nil => simpa [memWrite] using hcell []
  | cons d rest ih =>
    obtain ⟨b, w⟩ := d
    simp only [memWrite]
    split
    · exact hcell _
    · split
      · rename_i hab
        rw [hcell]
        simp [memRead, ← hab, h.symm]
      · simp only [memRead, ih]

/-- Writing bytes one after another keeps the canonical form. -/
theorem memWriteAll_wf {bytes : List Byte} {m : Memory} {a : Nat} (h : m.wf = true) :
    (memWriteAll m a bytes).wf = true := by
  induction bytes generalizing m a with
  | nil => exact h
  | cons v rest ih => exact ih (memWrite_wf h)

/-- Bytes written from `a` on leave every other index as it reads. -/
theorem memRead_memWriteAll_other {bytes : List Byte} {m : Memory} {a c : Nat}
    (h : c < a ∨ a + bytes.length ≤ c) : memRead (memWriteAll m a bytes) c = memRead m c := by
  induction bytes generalizing m a with
  | nil => rfl
  | cons v rest ih =>
    simp only [List.length_cons] at h
    simp only [memWriteAll]
    rw [ih (by omega), memRead_memWrite_other (by omega)]

/-- Bytes written from `a` on read back in order. -/
theorem memRead_memWriteAll {bytes : List Byte} {m : Memory} {a j : Nat} (h : m.wf = true) (hj : j < bytes.length) :
    memRead (memWriteAll m a bytes) (a + j) = bytes[j] := by
  induction bytes generalizing m a j with
  | nil => simp at hj
  | cons v rest ih =>
    simp only [memWriteAll]
    cases j with
    | zero =>
      exact (memRead_memWriteAll_other (.inl (Nat.lt_succ_self a))).trans (memRead_memWrite_same h)
    | succ j =>
      have := ih (m := memWrite m a v) (a := a + 1) (j := j) (memWrite_wf h) (by simpa using hj)
      simpa [Nat.add_assoc, Nat.add_comm 1 j] using this

/-! ## The tables -/

/-- A write and a read of the same index give the entry written. -/
theorem tableGet_tableSet_same {α : Type} {t : Table α} {i : Nat} {x : α} :
    tableGet (tableSet t i x) i = some x := by
  induction t with
  | nil => simp [tableSet, tableGet]
  | cons d rest ih =>
    obtain ⟨j, b⟩ := d
    simp only [tableSet]
    split
    · simp [tableGet]
    · split
      · simp [tableGet]
      · rename_i h1 h2
        simp only [tableGet, if_neg (Ne.symm h2), ih]

/-- A write leaves every other entry. -/
theorem tableGet_tableSet_other {α : Type} {t : Table α} {i k : Nat} {x : α} (h : k ≠ i) :
    tableGet (tableSet t i x) k = tableGet t k := by
  induction t with
  | nil => simp [tableSet, tableGet, h.symm]
  | cons d rest ih =>
    obtain ⟨j, b⟩ := d
    simp only [tableSet]
    split
    · simp [tableGet, h.symm]
    · split
      · rename_i hij
        simp [tableGet, ← hij, h.symm]
      · simp only [tableGet, ih]

/-- The canonical form of a table, entry by entry. -/
theorem Table_wf_cons {α : Type} {j : Nat} {b : α} {rest : Table α} :
    Table.wf ((j, b) :: rest) = true ↔ (∀ c ∈ rest, j < c.1) ∧ Table.wf rest = true := by
  simp [Table.wf, rising_cons]

/-- The keys after a write: those before it, and the written one. -/
theorem mem_tableSet {α : Type} {t : Table α} {i : Nat} {x : α} {c : Nat × α} (h : c ∈ tableSet t i x) :
    c = (i, x) ∨ c ∈ t := by
  induction t with
  | nil => simpa [tableSet] using h
  | cons d rest ih =>
    obtain ⟨j, b⟩ := d
    simp only [tableSet] at h
    split at h
    · simpa using h
    · split at h
      · rcases List.mem_cons.1 h with h | h
        · exact .inl h
        · exact .inr (List.mem_cons_of_mem _ h)
      · rcases List.mem_cons.1 h with h | h
        · exact .inr (h ▸ List.mem_cons_self ..)
        · exact (ih h).imp_right (List.mem_cons_of_mem _)

/-- A write keeps the canonical form of a table. -/
theorem tableSet_wf {α : Type} {t : Table α} {i : Nat} {x : α} (h : Table.wf t = true) :
    Table.wf (tableSet t i x) = true := by
  induction t with
  | nil => rfl
  | cons d rest ih =>
    obtain ⟨j, b⟩ := d
    obtain ⟨hj, hr⟩ := Table_wf_cons.1 h
    simp only [tableSet]
    split
    · rename_i hij
      exact Table_wf_cons.2 ⟨fun c hc => by
        rcases List.mem_cons.1 hc with rfl | hc
        · exact hij
        · exact lt_trans hij (hj c hc), h⟩
    · split
      · rename_i hij
        exact Table_wf_cons.2 ⟨hij ▸ hj, hr⟩
      · refine Table_wf_cons.2 ⟨fun c hc => ?_, ih hr⟩
        rcases mem_tableSet hc with rfl | hc
        · change j < i
          omega
        · exact hj c hc

/-! ## After reset -/

/-- Both spaces are in canonical form after reset. -/
theorem reset_spaces_wf : State.reset.inSpace.wf = true ∧ State.reset.outSpace.wf = true := ⟨rfl, rfl⟩

end Sys2Proof.Laws
end

