-- ==== Sys2Proof/Laws/State.lean ====
section
/-! SUPPORT. What each named update of State leaves in each field: true by unfolding, for `simp` to rewrite with, so
that no later proof unfolds a record update. -/

namespace Sys2Proof.Laws

open Sys2Proof.Machine

/-! ## `writeOutByte` -/

@[simp] theorem writeOutByte_inSpace (i : Nat) (v : Byte) (s : State) : (writeOutByte i v s).inSpace = s.inSpace := rfl
@[simp] theorem writeOutByte_outSpace (i : Nat) (v : Byte) (s : State) : (writeOutByte i v s).outSpace = memWrite s.outSpace i v := rfl
@[simp] theorem writeOutByte_par (i : Nat) (v : Byte) (s : State) : (writeOutByte i v s).par = s.par := rfl
@[simp] theorem writeOutByte_status (i : Nat) (v : Byte) (s : State) : (writeOutByte i v s).status = s.status := rfl
@[simp] theorem writeOutByte_outLen (i : Nat) (v : Byte) (s : State) : (writeOutByte i v s).outLen = s.outLen := rfl
@[simp] theorem writeOutByte_consumed (i : Nat) (v : Byte) (s : State) : (writeOutByte i v s).consumed = s.consumed := rfl
@[simp] theorem writeOutByte_cur (i : Nat) (v : Byte) (s : State) : (writeOutByte i v s).cur = s.cur := rfl
@[simp] theorem writeOutByte_phase (i : Nat) (v : Byte) (s : State) : (writeOutByte i v s).phase = s.phase := rfl
@[simp] theorem writeOutByte_lzw (i : Nat) (v : Byte) (s : State) : (writeOutByte i v s).lzw = s.lzw := rfl
@[simp] theorem writeOutByte_huf (i : Nat) (v : Byte) (s : State) : (writeOutByte i v s).huf = s.huf := rfl
@[simp] theorem writeOutByte_sdd (i : Nat) (v : Byte) (s : State) : (writeOutByte i v s).sdd = s.sdd := rfl
@[simp] theorem writeOutByte_ndu (i : Nat) (v : Byte) (s : State) : (writeOutByte i v s).ndu = s.ndu := rfl
@[simp] theorem writeOutByte_ports (i : Nat) (v : Byte) (s : State) : (writeOutByte i v s).ports = s.ports := rfl
@[simp] theorem writeOutByte_host (i : Nat) (v : Byte) (s : State) : (writeOutByte i v s).host = s.host := rfl
@[simp] theorem writeOutByte_hostData (i : Nat) (v : Byte) (s : State) : (writeOutByte i v s).hostData = s.hostData := rfl
@[simp] theorem writeOutByte_delivered (i : Nat) (v : Byte) (s : State) : (writeOutByte i v s).delivered = s.delivered := rfl
@[simp] theorem writeOutByte_draws (i : Nat) (v : Byte) (s : State) : (writeOutByte i v s).draws = s.draws := rfl
@[simp] theorem writeOutByte_outOpen (i : Nat) (v : Byte) (s : State) : (writeOutByte i v s).outOpen = closeIndex i s.outOpen := rfl

/-! ## `appendByte` -/

@[simp] theorem appendByte_inSpace (v : Byte) (s : State) : (appendByte v s).inSpace = s.inSpace := rfl
@[simp] theorem appendByte_outSpace (v : Byte) (s : State) : (appendByte v s).outSpace = memWrite s.outSpace s.outLen.toNat v := rfl
@[simp] theorem appendByte_par (v : Byte) (s : State) : (appendByte v s).par = s.par := rfl
@[simp] theorem appendByte_status (v : Byte) (s : State) : (appendByte v s).status = s.status := rfl
@[simp] theorem appendByte_outLen (v : Byte) (s : State) : (appendByte v s).outLen = s.outLen + 1 := rfl
@[simp] theorem appendByte_consumed (v : Byte) (s : State) : (appendByte v s).consumed = s.consumed := rfl
@[simp] theorem appendByte_cur (v : Byte) (s : State) : (appendByte v s).cur = s.cur := rfl
@[simp] theorem appendByte_phase (v : Byte) (s : State) : (appendByte v s).phase = s.phase := rfl
@[simp] theorem appendByte_lzw (v : Byte) (s : State) : (appendByte v s).lzw = s.lzw := rfl
@[simp] theorem appendByte_huf (v : Byte) (s : State) : (appendByte v s).huf = s.huf := rfl
@[simp] theorem appendByte_sdd (v : Byte) (s : State) : (appendByte v s).sdd = s.sdd := rfl
@[simp] theorem appendByte_ndu (v : Byte) (s : State) : (appendByte v s).ndu = s.ndu := rfl
@[simp] theorem appendByte_ports (v : Byte) (s : State) : (appendByte v s).ports = s.ports := rfl
@[simp] theorem appendByte_host (v : Byte) (s : State) : (appendByte v s).host = s.host := rfl
@[simp] theorem appendByte_hostData (v : Byte) (s : State) : (appendByte v s).hostData = s.hostData := rfl
@[simp] theorem appendByte_delivered (v : Byte) (s : State) : (appendByte v s).delivered = s.delivered := rfl
@[simp] theorem appendByte_draws (v : Byte) (s : State) : (appendByte v s).draws = s.draws := rfl
@[simp] theorem appendByte_outOpen (v : Byte) (s : State) : (appendByte v s).outOpen = closeIndex s.outLen.toNat s.outOpen := rfl

/-! ## `stopped` -/

@[simp] theorem stopped_inSpace (cause : StopCause) (s : State) : (stopped cause s).inSpace = s.inSpace := rfl
@[simp] theorem stopped_outSpace (cause : StopCause) (s : State) : (stopped cause s).outSpace = s.outSpace := rfl
@[simp] theorem stopped_par (cause : StopCause) (s : State) : (stopped cause s).par = s.par := rfl
@[simp] theorem stopped_status (cause : StopCause) (s : State) : (stopped cause s).status = statusAtStop cause s.outLen s.par.reqSize := rfl
@[simp] theorem stopped_outLen (cause : StopCause) (s : State) : (stopped cause s).outLen = s.outLen := rfl
@[simp] theorem stopped_consumed (cause : StopCause) (s : State) : (stopped cause s).consumed = consumedAtStop s := rfl
@[simp] theorem stopped_cur (cause : StopCause) (s : State) : (stopped cause s).cur = s.cur := rfl
@[simp] theorem stopped_phase (cause : StopCause) (s : State) : (stopped cause s).phase = .idle := rfl
@[simp] theorem stopped_lzw (cause : StopCause) (s : State) : (stopped cause s).lzw = s.lzw := rfl
@[simp] theorem stopped_huf (cause : StopCause) (s : State) : (stopped cause s).huf = s.huf := rfl
@[simp] theorem stopped_sdd (cause : StopCause) (s : State) : (stopped cause s).sdd = s.sdd := rfl
@[simp] theorem stopped_ndu (cause : StopCause) (s : State) : (stopped cause s).ndu = s.ndu := rfl
@[simp] theorem stopped_ports (cause : StopCause) (s : State) : (stopped cause s).ports = s.ports := rfl
@[simp] theorem stopped_host (cause : StopCause) (s : State) : (stopped cause s).host = s.host := rfl
@[simp] theorem stopped_hostData (cause : StopCause) (s : State) : (stopped cause s).hostData = s.hostData := rfl
@[simp] theorem stopped_delivered (cause : StopCause) (s : State) : (stopped cause s).delivered = s.delivered := rfl
@[simp] theorem stopped_draws (cause : StopCause) (s : State) : (stopped cause s).draws = s.draws := rfl
@[simp] theorem stopped_outOpen (cause : StopCause) (s : State) : (stopped cause s).outOpen = s.outOpen := rfl

/-! ## `issued` -/

@[simp] theorem issued_inSpace (p : Phase) (c : Cursor) (s : State) : (issued p c s).inSpace = s.inSpace := rfl
@[simp] theorem issued_outSpace (p : Phase) (c : Cursor) (s : State) : (issued p c s).outSpace = s.outSpace := rfl
@[simp] theorem issued_par (p : Phase) (c : Cursor) (s : State) : (issued p c s).par = s.par := rfl
@[simp] theorem issued_status (p : Phase) (c : Cursor) (s : State) : (issued p c s).status = statusAtIssue s.status := rfl
@[simp] theorem issued_outLen (p : Phase) (c : Cursor) (s : State) : (issued p c s).outLen = 0 := rfl
@[simp] theorem issued_consumed (p : Phase) (c : Cursor) (s : State) : (issued p c s).consumed = s.consumed := rfl
@[simp] theorem issued_cur (p : Phase) (c : Cursor) (s : State) : (issued p c s).cur = c := rfl
@[simp] theorem issued_phase (p : Phase) (c : Cursor) (s : State) : (issued p c s).phase = p := rfl
@[simp] theorem issued_lzw (p : Phase) (c : Cursor) (s : State) : (issued p c s).lzw = s.lzw := rfl
@[simp] theorem issued_huf (p : Phase) (c : Cursor) (s : State) : (issued p c s).huf = s.huf := rfl
@[simp] theorem issued_sdd (p : Phase) (c : Cursor) (s : State) : (issued p c s).sdd = s.sdd := rfl
@[simp] theorem issued_ndu (p : Phase) (c : Cursor) (s : State) : (issued p c s).ndu = s.ndu := rfl
@[simp] theorem issued_ports (p : Phase) (c : Cursor) (s : State) : (issued p c s).ports = s.ports := rfl
@[simp] theorem issued_host (p : Phase) (c : Cursor) (s : State) : (issued p c s).host = s.host := rfl
@[simp] theorem issued_hostData (p : Phase) (c : Cursor) (s : State) : (issued p c s).hostData = s.hostData := rfl
@[simp] theorem issued_delivered (p : Phase) (c : Cursor) (s : State) : (issued p c s).delivered = s.delivered := rfl
@[simp] theorem issued_draws (p : Phase) (c : Cursor) (s : State) : (issued p c s).draws = s.draws := rfl
@[simp] theorem issued_outOpen (p : Phase) (c : Cursor) (s : State) : (issued p c s).outOpen = s.outOpen := rfl

/-! ## `startLzw` -/

@[simp] theorem startLzw_inSpace (s : State) : (startLzw s).inSpace = s.inSpace := rfl
@[simp] theorem startLzw_outSpace (s : State) : (startLzw s).outSpace = s.outSpace := rfl
@[simp] theorem startLzw_par (s : State) : (startLzw s).par = s.par := rfl
@[simp] theorem startLzw_status (s : State) : (startLzw s).status = statusAtIssue s.status := rfl
@[simp] theorem startLzw_outLen (s : State) : (startLzw s).outLen = 0 := rfl
@[simp] theorem startLzw_consumed (s : State) : (startLzw s).consumed = s.consumed := rfl
@[simp] theorem startLzw_cur (s : State) : (startLzw s).cur = initCursor s.par.startOffset .lsb := rfl
@[simp] theorem startLzw_phase (s : State) : (startLzw s).phase = .lzwCode := rfl
@[simp] theorem startLzw_lzw (s : State) : (startLzw s).lzw = { s.lzw with codeWidth := 9, nextIndex := 257, prevCode := 0 } := rfl
@[simp] theorem startLzw_huf (s : State) : (startLzw s).huf = s.huf := rfl
@[simp] theorem startLzw_sdd (s : State) : (startLzw s).sdd = s.sdd := rfl
@[simp] theorem startLzw_ndu (s : State) : (startLzw s).ndu = s.ndu := rfl
@[simp] theorem startLzw_ports (s : State) : (startLzw s).ports = s.ports := rfl
@[simp] theorem startLzw_host (s : State) : (startLzw s).host = s.host := rfl
@[simp] theorem startLzw_hostData (s : State) : (startLzw s).hostData = s.hostData := rfl
@[simp] theorem startLzw_delivered (s : State) : (startLzw s).delivered = s.delivered := rfl
@[simp] theorem startLzw_draws (s : State) : (startLzw s).draws = s.draws := rfl
@[simp] theorem startLzw_outOpen (s : State) : (startLzw s).outOpen = s.outOpen := rfl

/-! ## `startHuf` -/

@[simp] theorem startHuf_inSpace (s : State) : (startHuf s).inSpace = s.inSpace := rfl
@[simp] theorem startHuf_outSpace (s : State) : (startHuf s).outSpace = s.outSpace := rfl
@[simp] theorem startHuf_par (s : State) : (startHuf s).par = s.par := rfl
@[simp] theorem startHuf_status (s : State) : (startHuf s).status = statusAtIssue s.status := rfl
@[simp] theorem startHuf_outLen (s : State) : (startHuf s).outLen = 0 := rfl
@[simp] theorem startHuf_consumed (s : State) : (startHuf s).consumed = s.consumed := rfl
@[simp] theorem startHuf_cur (s : State) : (startHuf s).cur = initCursor s.par.startOffset .msb := rfl
@[simp] theorem startHuf_phase (s : State) : (startHuf s).phase = .hufNode := rfl
@[simp] theorem startHuf_lzw (s : State) : (startHuf s).lzw = s.lzw := rfl
@[simp] theorem startHuf_huf (s : State) : (startHuf s).huf = { s.huf with nodeCount := 0, runningValue := 0, stack := [] } := rfl
@[simp] theorem startHuf_sdd (s : State) : (startHuf s).sdd = s.sdd := rfl
@[simp] theorem startHuf_ndu (s : State) : (startHuf s).ndu = s.ndu := rfl
@[simp] theorem startHuf_ports (s : State) : (startHuf s).ports = s.ports := rfl
@[simp] theorem startHuf_host (s : State) : (startHuf s).host = s.host := rfl
@[simp] theorem startHuf_hostData (s : State) : (startHuf s).hostData = s.hostData := rfl
@[simp] theorem startHuf_delivered (s : State) : (startHuf s).delivered = s.delivered := rfl
@[simp] theorem startHuf_draws (s : State) : (startHuf s).draws = s.draws := rfl
@[simp] theorem startHuf_outOpen (s : State) : (startHuf s).outOpen = s.outOpen := rfl

/-! ## `startSdd` -/

@[simp] theorem startSdd_inSpace (s : State) : (startSdd s).inSpace = s.inSpace := rfl
@[simp] theorem startSdd_outSpace (s : State) : (startSdd s).outSpace = s.outSpace := rfl
@[simp] theorem startSdd_par (s : State) : (startSdd s).par = s.par := rfl
@[simp] theorem startSdd_status (s : State) : (startSdd s).status = statusAtIssue s.status := rfl
@[simp] theorem startSdd_outLen (s : State) : (startSdd s).outLen = 0 := rfl
@[simp] theorem startSdd_consumed (s : State) : (startSdd s).consumed = s.consumed := rfl
@[simp] theorem startSdd_cur (s : State) : (startSdd s).cur = initCursor s.par.startOffset .byte := rfl
@[simp] theorem startSdd_phase (s : State) : (startSdd s).phase = .sddHdr := rfl
@[simp] theorem startSdd_lzw (s : State) : (startSdd s).lzw = s.lzw := rfl
@[simp] theorem startSdd_huf (s : State) : (startSdd s).huf = s.huf := rfl
@[simp] theorem startSdd_sdd (s : State) : (startSdd s).sdd = s.sdd := rfl
@[simp] theorem startSdd_ndu (s : State) : (startSdd s).ndu = s.ndu := rfl
@[simp] theorem startSdd_ports (s : State) : (startSdd s).ports = s.ports := rfl
@[simp] theorem startSdd_host (s : State) : (startSdd s).host = s.host := rfl
@[simp] theorem startSdd_hostData (s : State) : (startSdd s).hostData = s.hostData := rfl
@[simp] theorem startSdd_delivered (s : State) : (startSdd s).delivered = s.delivered := rfl
@[simp] theorem startSdd_draws (s : State) : (startSdd s).draws = s.draws := rfl
@[simp] theorem startSdd_outOpen (s : State) : (startSdd s).outOpen = s.outOpen := rfl

/-! ## `startNdu` -/

@[simp] theorem startNdu_inSpace (s : State) : (startNdu s).inSpace = s.inSpace := rfl
@[simp] theorem startNdu_outSpace (s : State) : (startNdu s).outSpace = s.outSpace := rfl
@[simp] theorem startNdu_par (s : State) : (startNdu s).par = s.par := rfl
@[simp] theorem startNdu_status (s : State) : (startNdu s).status = statusAtIssue s.status := rfl
@[simp] theorem startNdu_outLen (s : State) : (startNdu s).outLen = 0 := rfl
@[simp] theorem startNdu_consumed (s : State) : (startNdu s).consumed = s.consumed := rfl
@[simp] theorem startNdu_cur (s : State) : (startNdu s).cur = initCursor 0 .byte := rfl
@[simp] theorem startNdu_phase (s : State) : (startNdu s).phase = .nduScan := rfl
@[simp] theorem startNdu_lzw (s : State) : (startNdu s).lzw = s.lzw := rfl
@[simp] theorem startNdu_huf (s : State) : (startNdu s).huf = s.huf := rfl
@[simp] theorem startNdu_sdd (s : State) : (startNdu s).sdd = s.sdd := rfl
@[simp] theorem startNdu_ndu (s : State) : (startNdu s).ndu = { accumulator := 0, count := 0 } := rfl
@[simp] theorem startNdu_ports (s : State) : (startNdu s).ports = s.ports := rfl
@[simp] theorem startNdu_host (s : State) : (startNdu s).host = s.host := rfl
@[simp] theorem startNdu_hostData (s : State) : (startNdu s).hostData = s.hostData := rfl
@[simp] theorem startNdu_delivered (s : State) : (startNdu s).delivered = s.delivered := rfl
@[simp] theorem startNdu_draws (s : State) : (startNdu s).draws = s.draws := rfl
@[simp] theorem startNdu_outOpen (s : State) : (startNdu s).outOpen = s.outOpen := rfl

/-! ## `slotTaken` -/

@[simp] theorem slotTaken_inSpace (s : State) : (slotTaken s).inSpace = s.inSpace := rfl
@[simp] theorem slotTaken_outSpace (s : State) : (slotTaken s).outSpace = s.outSpace := rfl
@[simp] theorem slotTaken_par (s : State) : (slotTaken s).par = s.par := rfl
@[simp] theorem slotTaken_status (s : State) : (slotTaken s).status = s.status := rfl
@[simp] theorem slotTaken_outLen (s : State) : (slotTaken s).outLen = s.outLen := rfl
@[simp] theorem slotTaken_consumed (s : State) : (slotTaken s).consumed = s.consumed := rfl
@[simp] theorem slotTaken_cur (s : State) : (slotTaken s).cur = s.cur := rfl
@[simp] theorem slotTaken_phase (s : State) : (slotTaken s).phase = s.phase := rfl
@[simp] theorem slotTaken_lzw (s : State) : (slotTaken s).lzw = s.lzw := rfl
@[simp] theorem slotTaken_huf (s : State) : (slotTaken s).huf = allocNode 0 s.huf := rfl
@[simp] theorem slotTaken_sdd (s : State) : (slotTaken s).sdd = s.sdd := rfl
@[simp] theorem slotTaken_ndu (s : State) : (slotTaken s).ndu = s.ndu := rfl
@[simp] theorem slotTaken_ports (s : State) : (slotTaken s).ports = s.ports := rfl
@[simp] theorem slotTaken_host (s : State) : (slotTaken s).host = s.host := rfl
@[simp] theorem slotTaken_hostData (s : State) : (slotTaken s).hostData = s.hostData := rfl
@[simp] theorem slotTaken_delivered (s : State) : (slotTaken s).delivered = s.delivered := rfl
@[simp] theorem slotTaken_draws (s : State) : (slotTaken s).draws = s.draws := rfl
@[simp] theorem slotTaken_outOpen (s : State) : (slotTaken s).outOpen = s.outOpen := rfl

/-! ## `walked` -/

@[simp] theorem walked_inSpace (sign : Bool) (node : NodeIdx) (sum : Byte) (s : State) : (walked sign node sum s).inSpace = s.inSpace := rfl
@[simp] theorem walked_outSpace (sign : Bool) (node : NodeIdx) (sum : Byte) (s : State) : (walked sign node sum s).outSpace = s.outSpace := rfl
@[simp] theorem walked_par (sign : Bool) (node : NodeIdx) (sum : Byte) (s : State) : (walked sign node sum s).par = s.par := rfl
@[simp] theorem walked_status (sign : Bool) (node : NodeIdx) (sum : Byte) (s : State) : (walked sign node sum s).status = s.status := rfl
@[simp] theorem walked_outLen (sign : Bool) (node : NodeIdx) (sum : Byte) (s : State) : (walked sign node sum s).outLen = s.outLen := rfl
@[simp] theorem walked_consumed (sign : Bool) (node : NodeIdx) (sum : Byte) (s : State) : (walked sign node sum s).consumed = s.consumed := rfl
@[simp] theorem walked_cur (sign : Bool) (node : NodeIdx) (sum : Byte) (s : State) : (walked sign node sum s).cur = s.cur := rfl
@[simp] theorem walked_phase (sign : Bool) (node : NodeIdx) (sum : Byte) (s : State) : (walked sign node sum s).phase = s.phase := rfl
@[simp] theorem walked_lzw (sign : Bool) (node : NodeIdx) (sum : Byte) (s : State) : (walked sign node sum s).lzw = s.lzw := rfl
@[simp] theorem walked_huf (sign : Bool) (node : NodeIdx) (sum : Byte) (s : State) : (walked sign node sum s).huf = { s.huf with signBit := sign, curNode := node, runningValue := sum } := rfl
@[simp] theorem walked_sdd (sign : Bool) (node : NodeIdx) (sum : Byte) (s : State) : (walked sign node sum s).sdd = s.sdd := rfl
@[simp] theorem walked_ndu (sign : Bool) (node : NodeIdx) (sum : Byte) (s : State) : (walked sign node sum s).ndu = s.ndu := rfl
@[simp] theorem walked_ports (sign : Bool) (node : NodeIdx) (sum : Byte) (s : State) : (walked sign node sum s).ports = s.ports := rfl
@[simp] theorem walked_host (sign : Bool) (node : NodeIdx) (sum : Byte) (s : State) : (walked sign node sum s).host = s.host := rfl
@[simp] theorem walked_hostData (sign : Bool) (node : NodeIdx) (sum : Byte) (s : State) : (walked sign node sum s).hostData = s.hostData := rfl
@[simp] theorem walked_delivered (sign : Bool) (node : NodeIdx) (sum : Byte) (s : State) : (walked sign node sum s).delivered = s.delivered := rfl
@[simp] theorem walked_draws (sign : Bool) (node : NodeIdx) (sum : Byte) (s : State) : (walked sign node sum s).draws = s.draws := rfl
@[simp] theorem walked_outOpen (sign : Bool) (node : NodeIdx) (sum : Byte) (s : State) : (walked sign node sum s).outOpen = s.outOpen := rfl

/-! ## `readRegister` -/

@[simp] theorem readRegister_inSpace (n : BitVec 3) (s : State) : (readRegister n s).inSpace = s.inSpace := rfl
@[simp] theorem readRegister_outSpace (n : BitVec 3) (s : State) : (readRegister n s).outSpace = s.outSpace := rfl
@[simp] theorem readRegister_par (n : BitVec 3) (s : State) : (readRegister n s).par = s.par := rfl
@[simp] theorem readRegister_status (n : BitVec 3) (s : State) : (readRegister n s).status = s.status := rfl
@[simp] theorem readRegister_outLen (n : BitVec 3) (s : State) : (readRegister n s).outLen = s.outLen := rfl
@[simp] theorem readRegister_consumed (n : BitVec 3) (s : State) : (readRegister n s).consumed = s.consumed := rfl
@[simp] theorem readRegister_cur (n : BitVec 3) (s : State) : (readRegister n s).cur = s.cur := rfl
@[simp] theorem readRegister_phase (n : BitVec 3) (s : State) : (readRegister n s).phase = s.phase := rfl
@[simp] theorem readRegister_lzw (n : BitVec 3) (s : State) : (readRegister n s).lzw = s.lzw := rfl
@[simp] theorem readRegister_huf (n : BitVec 3) (s : State) : (readRegister n s).huf = s.huf := rfl
@[simp] theorem readRegister_sdd (n : BitVec 3) (s : State) : (readRegister n s).sdd = s.sdd := rfl
@[simp] theorem readRegister_ndu (n : BitVec 3) (s : State) : (readRegister n s).ndu = s.ndu := rfl
@[simp] theorem readRegister_ports (n : BitVec 3) (s : State) : (readRegister n s).ports = s.ports := rfl
@[simp] theorem readRegister_host (n : BitVec 3) (s : State) : (readRegister n s).host = s.host := rfl
@[simp] theorem readRegister_hostData (n : BitVec 3) (s : State) : (readRegister n s).hostData = registerWord n (Config.freeWord s.draws) s := rfl
@[simp] theorem readRegister_delivered (n : BitVec 3) (s : State) : (readRegister n s).delivered = s.delivered := rfl
@[simp] theorem readRegister_draws (n : BitVec 3) (s : State) : (readRegister n s).draws = s.draws + 1 := rfl
@[simp] theorem readRegister_outOpen (n : BitVec 3) (s : State) : (readRegister n s).outOpen = s.outOpen := rfl

/-! ## `readOutByte` -/

@[simp] theorem readOutByte_inSpace (i : Word) (s : State) : (readOutByte i s).inSpace = s.inSpace := rfl
@[simp] theorem readOutByte_outSpace (i : Word) (s : State) : (readOutByte i s).outSpace = s.outSpace := rfl
@[simp] theorem readOutByte_par (i : Word) (s : State) : (readOutByte i s).par = s.par := rfl
@[simp] theorem readOutByte_status (i : Word) (s : State) : (readOutByte i s).status = s.status := rfl
@[simp] theorem readOutByte_outLen (i : Word) (s : State) : (readOutByte i s).outLen = s.outLen := rfl
@[simp] theorem readOutByte_consumed (i : Word) (s : State) : (readOutByte i s).consumed = s.consumed := rfl
@[simp] theorem readOutByte_cur (i : Word) (s : State) : (readOutByte i s).cur = s.cur := rfl
@[simp] theorem readOutByte_phase (i : Word) (s : State) : (readOutByte i s).phase = s.phase := rfl
@[simp] theorem readOutByte_lzw (i : Word) (s : State) : (readOutByte i s).lzw = s.lzw := rfl
@[simp] theorem readOutByte_huf (i : Word) (s : State) : (readOutByte i s).huf = s.huf := rfl
@[simp] theorem readOutByte_sdd (i : Word) (s : State) : (readOutByte i s).sdd = s.sdd := rfl
@[simp] theorem readOutByte_ndu (i : Word) (s : State) : (readOutByte i s).ndu = s.ndu := rfl
@[simp] theorem readOutByte_ports (i : Word) (s : State) : (readOutByte i s).ports = s.ports := rfl
@[simp] theorem readOutByte_host (i : Word) (s : State) : (readOutByte i s).host = s.host := rfl
@[simp] theorem readOutByte_delivered (i : Word) (s : State) : (readOutByte i s).delivered = s.delivered := rfl
@[simp] theorem readOutByte_draws (i : Word) (s : State) : (readOutByte i s).draws = s.draws + 1 := rfl
@[simp] theorem readOutByte_outOpen (i : Word) (s : State) : (readOutByte i s).outOpen = s.outOpen := rfl

/-! ## `resetBlock` -/

@[simp] theorem resetBlock_inSpace (s : State) : (resetBlock s).inSpace = s.inSpace := rfl
@[simp] theorem resetBlock_outSpace (s : State) : (resetBlock s).outSpace = s.outSpace := rfl
@[simp] theorem resetBlock_par (s : State) : (resetBlock s).par = State.reset.par := rfl
@[simp] theorem resetBlock_status (s : State) : (resetBlock s).status = State.reset.status := rfl
@[simp] theorem resetBlock_outLen (s : State) : (resetBlock s).outLen = State.reset.outLen := rfl
@[simp] theorem resetBlock_consumed (s : State) : (resetBlock s).consumed = State.reset.consumed := rfl
@[simp] theorem resetBlock_cur (s : State) : (resetBlock s).cur = State.reset.cur := rfl
@[simp] theorem resetBlock_phase (s : State) : (resetBlock s).phase = State.reset.phase := rfl
@[simp] theorem resetBlock_lzw (s : State) : (resetBlock s).lzw = State.reset.lzw := rfl
@[simp] theorem resetBlock_huf (s : State) : (resetBlock s).huf = State.reset.huf := rfl
@[simp] theorem resetBlock_sdd (s : State) : (resetBlock s).sdd = State.reset.sdd := rfl
@[simp] theorem resetBlock_ndu (s : State) : (resetBlock s).ndu = State.reset.ndu := rfl
@[simp] theorem resetBlock_ports (s : State) : (resetBlock s).ports = s.ports := rfl
@[simp] theorem resetBlock_host (s : State) : (resetBlock s).host = s.host := rfl
@[simp] theorem resetBlock_hostData (s : State) : (resetBlock s).hostData = s.hostData := rfl
@[simp] theorem resetBlock_delivered (s : State) : (resetBlock s).delivered = State.reset.delivered := rfl
@[simp] theorem resetBlock_draws (s : State) : (resetBlock s).draws = s.draws := rfl
@[simp] theorem resetBlock_outOpen (s : State) : (resetBlock s).outOpen = openAfterReset s := rfl

/-! ## `allocNode` -/

@[simp] theorem allocNode_nodeCount (v : BitVec 7) (u : HufUnit) : (allocNode v u).nodeCount = u.nodeCount + 1 := rfl
@[simp] theorem allocNode_runningValue (v : BitVec 7) (u : HufUnit) : (allocNode v u).runningValue = u.runningValue := rfl
@[simp] theorem allocNode_curNode (v : BitVec 7) (u : HufUnit) : (allocNode v u).curNode = u.curNode := rfl
@[simp] theorem allocNode_signBit (v : BitVec 7) (u : HufUnit) : (allocNode v u).signBit = u.signBit := rfl
@[simp] theorem allocNode_stack (v : BitVec 7) (u : HufUnit) : (allocNode v u).stack = u.stack := rfl
@[simp] theorem allocNode_nodes (v : BitVec 7) (u : HufUnit) : (allocNode v u).nodes = tableSet u.nodes u.nodeCount.toNat { left := none, right := none, value := v } := rfl

end Sys2Proof.Laws
end

