-- ==== Sys2Proof/Laws/Ops.lean ====
section
/-! SUPPORT. What each shared operation can do, once each: a proof about an instruction cites these and unfolds none of
them. -/

namespace Sys2Proof.Laws

open Sys2Proof.Machine

/-! ## The bit cursor -/

/-- `FETCHB` finds the input over, or takes one byte (R131). -/
theorem fetchByte_cases (inp : Memory) (inLen : Word) (c : Cursor) :
    (inLen.toNat ≤ c.bytePos.toNat ∧ fetchByte inp inLen c = .exhausted { c with exhausted := true }) ∨
    (c.bytePos.toNat < inLen.toNat ∧
      fetchByte inp inLen c = .value (memRead inp c.bytePos.toNat) { c with bytePos := c.bytePos + 1 }) := by
  unfold fetchByte
  split
  · exact .inl ⟨by assumption, rfl⟩
  · exact .inr ⟨by omega, rfl⟩

/-- A byte position inside the input advances by one without wrapping. -/
theorem bytePos_succ {inLen : Word} {c : Cursor} (h : c.bytePos.toNat < inLen.toNat) :
    (c.bytePos + 1).toNat = c.bytePos.toNat + 1 := by
  have := inLen.isLt
  rw [BitVec.toNat_add, show (1 : Word).toNat = 1 from rfl]
  omega

/-- With enough bits held the refill fetches nothing (R132). -/
theorem refill_enough {inp : Memory} {inLen : Word} {n k : Nat} {c : Cursor} (h : n ≤ c.bitsAvailable.toNat) :
    refill inp inLen n k c = .value () c := by
  cases k with
  | zero => rfl
  | succ k => simp [refill, Nat.not_lt.2 h]

/-- With too few bits held the refill finds the input over, or puts the next byte above the bits held and goes on
(R132). -/
theorem refill_short {inp : Memory} {inLen : Word} {n k : Nat} {c : Cursor} (h : c.bitsAvailable.toNat < n) :
    (inLen.toNat ≤ c.bytePos.toNat ∧ refill inp inLen n (k + 1) c = .exhausted { c with exhausted := true }) ∨
    (c.bytePos.toNat < inLen.toNat ∧
      refill inp inLen n (k + 1) c = refill inp inLen n k { c with
        bytePos := c.bytePos + 1
        bitBuffer := c.bitBuffer ||| ((memRead inp c.bytePos.toNat).setWidth 32 <<< c.bitsAvailable.toNat)
        bitsAvailable := c.bitsAvailable + 8 }) := by
  rcases fetchByte_cases inp inLen c with ⟨hl, he⟩ | ⟨hl, he⟩
  · exact .inl ⟨hl, by simp [refill, h, he]⟩
  · exact .inr ⟨hl, by simp [refill, h, he]⟩

/-- `RDBIT_M` delivers from the byte held, delivers the top bit of a fresh byte, or finds the input over (R133). -/
theorem readBitMsb_cases (inp : Memory) (inLen : Word) (c : Cursor) :
    (c.bitsAvailable ≠ 0 ∧ readBitMsb inp inLen c = takeTopBit c) ∨
    (c.bitsAvailable = 0 ∧ c.bytePos.toNat < inLen.toNat ∧
      readBitMsb inp inLen c = takeTopBit { c with
        bytePos := c.bytePos + 1, bitBuffer := (memRead inp c.bytePos.toNat).setWidth 32, bitsAvailable := 8 }) ∨
    (c.bitsAvailable = 0 ∧ inLen.toNat ≤ c.bytePos.toNat ∧
      readBitMsb inp inLen c = .exhausted { c with exhausted := true }) := by
  by_cases h : c.bitsAvailable = 0
  · rcases fetchByte_cases inp inLen c with ⟨hl, he⟩ | ⟨hl, he⟩
    · exact .inr (.inr ⟨h, hl, by simp [readBitMsb, h, he]⟩)
    · exact .inr (.inl ⟨h, hl, by simp [readBitMsb, h, he]⟩)
  · exact .inl ⟨h, if_neg h⟩

/-! ## The output -/

/-- An index is open after a byte of `OUT` is written exactly if it was and is not the one written. -/
theorem isOpen_closeIndex (i k : Nat) (ranges : List (Nat × Nat)) :
    isOpen (closeIndex i ranges) k = (isOpen ranges k && decide (k ≠ i)) := by
  induction ranges with
  | nil => simp [isOpen, closeIndex]
  | cons r rest ih =>
    have hr : isOpen (cutRange i r) k = (decide (r.1 ≤ k ∧ k < r.2) && decide (k ≠ i)) := by
      by_cases h : r.1 ≤ i ∧ i < r.2
      · rw [Bool.eq_iff_iff]
        by_cases h1 : r.1 < i <;> by_cases h2 : i + 1 < r.2 <;>
          simp [isOpen, cutRange, h, h1, h2] <;> omega
      · rw [Bool.eq_iff_iff]
        simp [isOpen, cutRange, h]
        omega
    have happ : ∀ a b : List (Nat × Nat), isOpen (a ++ b) k = (isOpen a k || isOpen b k) := by
      simp [isOpen, List.any_append]
    have hcons : closeIndex i (r :: rest) = cutRange i r ++ closeIndex i rest := rfl
    rw [hcons, happ, hr, ih]
    have : isOpen (r :: rest) k = (decide (r.1 ≤ k ∧ k < r.2) || isOpen rest k) := rfl
    rw [this, Bool.and_or_distrib_right]

/-- With room in the output an append writes the byte and goes on (R11). -/
theorem appendThen_room {v : Byte} {s : State} {k : State → Host.Outcome State Fault Refusal}
    (h : s.outLen.toNat < s.par.reqSize.toNat) : appendThen v s k = k (appendByte v s) := by
  simp [appendThen, outAppend, Nat.not_le.2 h]

/-- An append whose continuation answers a next state had room (R11, R66). -/
theorem appendThen_next {v : Byte} {s t : State} {k : State → Host.Outcome State Fault Refusal}
    (h : appendThen v s k = .next t) : s.outLen.toNat < s.par.reqSize.toNat ∧ k (appendByte v s) = .next t := by
  by_cases hr : s.outLen.toNat < s.par.reqSize.toNat
  · exact ⟨hr, by rwa [appendThen_room hr] at h⟩
  · simp [appendThen, outAppend, Nat.not_lt.1 hr] at h

/-- An append with room adds one to `OUT_LEN` without wrapping. -/
theorem appendByte_outLen_toNat {v : Byte} {s : State} (h : s.outLen.toNat < s.par.reqSize.toNat) :
    (appendByte v s).outLen.toNat = s.outLen.toNat + 1 := by
  have := s.par.reqSize.isLt
  rw [appendByte_outLen, BitVec.toNat_add, show (1 : Word).toNat = 1 from rfl]
  omega

/-- Appending bytes one after another changes the output alone. -/
theorem foldl_appendByte (str : List Byte) (s : State) :
    ∃ space ranges len, str.foldl (fun t v => appendByte v t) s =
      { s with outSpace := space, outOpen := ranges, outLen := len } := by
  induction str generalizing s with
  | nil => exact ⟨_, _, _, rfl⟩
  | cons v rest ih =>
    obtain ⟨space, ranges, len, h⟩ := ih (appendByte v s)
    exact ⟨space, ranges, len, by rw [List.foldl_cons, h]; rfl⟩

/-- An emission changes the output alone (R162). -/
theorem emit_frame (str : List Byte) (s : State) :
    emit str s = { s with outSpace := (emit str s).outSpace, outOpen := (emit str s).outOpen,
                          outLen := (emit str s).outLen } := by
  obtain ⟨space, ranges, len, h⟩ := foldl_appendByte (str.take (s.par.reqSize.toNat - s.outLen.toNat)) s
  unfold emit
  rw [h]

/-- An emission keeps `OUT` in canonical form. -/
theorem emit_wf {str : List Byte} {s : State} (h : s.outSpace.wf = true) : (emit str s).outSpace.wf = true := by
  have : ∀ (l : List Byte) (u : State), u.outSpace.wf = true →
      (l.foldl (fun t v => appendByte v t) u).outSpace.wf = true := by
    intro l
    induction l with
    | nil => exact fun _ hu => hu
    | cons v rest ih => exact fun u hu => ih _ (by simpa using memWrite_wf hu)
  exact this _ _ h

/-! ## The stop -/

/-- A stop of a running command (R300). -/
theorem raiseStop_running {cause : StopCause} {s : State} (h : s.phase ≠ .idle) :
    raiseStop cause s = .next (stopped cause s) := by
  simp [raiseStop, h]

/-- A stop that answers a next state ends a running command. -/
theorem raiseStop_next {cause : StopCause} {s t : State} (h : raiseStop cause s = .next t) :
    s.phase ≠ .idle ∧ t = stopped cause s := by
  unfold raiseStop at h
  split at h
  · cases h
  · exact ⟨by assumption, by cases h; rfl⟩

/-- The full test stops with `FULL` or goes on (R291). -/
theorem unlessFull_cases (s : State) (k : State → Host.Outcome State Fault Refusal) :
    (s.par.reqSize.toNat ≤ s.outLen.toNat ∧ unlessFull s k = raiseStop .full s) ∨
    (s.outLen.toNat < s.par.reqSize.toNat ∧ unlessFull s k = k s) := by
  by_cases h : s.par.reqSize.toNat ≤ s.outLen.toNat
  · exact .inl ⟨h, by simp [unlessFull, outputIsFull, h]⟩
  · exact .inr ⟨by omega, by simp [unlessFull, outputIsFull, h]⟩

/-- A stream symbol that answers a next state ran in its phase. -/
theorem inPhase_next {p : Phase} {s t : State} {k : Host.Outcome State Fault Refusal} (h : inPhase p s k = .next t) :
    s.phase = p ∧ k = .next t := by
  unfold inPhase at h
  split at h
  · exact ⟨by assumption, h⟩
  · cases h

/-- A stream symbol in its phase runs. -/
theorem inPhase_of_phase {p : Phase} {s : State} {k : Host.Outcome State Fault Refusal} (h : s.phase = p) :
    inPhase p s k = k := by
  simp [inPhase, h]

/-! ## The commands -/

/-- The issue of a command that answers a next state was ignored while busy, or was accepted with every host duty kept
(R260, R266, U3, U6, U7). -/
theorem issue_next {s start t : State} (h : issue s start = .next t) :
    (s.status.busy = true ∧ t = s) ∨
    (s.status.busy = false ∧ s.par.inLen.toNat ≤ Config.maxInLen ∧ portsCollide s = false ∧
      s.par.reqSize.toNat ≤ s.ports.outRoom ∧ t = start) := by
  unfold issue at h
  split at h
  · exact .inl ⟨by assumption, by cases h; rfl⟩
  · split at h
    · cases h
    · split at h
      · cases h
      · split at h
        · cases h
        · refine .inr ⟨by simp_all, by omega, by simp_all, by omega, by cases h; rfl⟩

/-! ## The micro-operations as instructions -/

/-- The end of a micro-operation that answers a next state: a value in `delivered`, or a stop of the running command. -/
theorem settle_next {α : Type} {s t : State} {d : Delivery α} {f : α → Code} (h : settle s d f = .next t) :
    (∃ v c, d = .value v c ∧ t = { s with cur := c, delivered := f v }) ∨
    (∃ c, d = .exhausted c ∧ s.phase ≠ .idle ∧ t = stopped .exhausted { s with cur := c }) := by
  cases d with
  | value v c => exact .inl ⟨v, c, rfl, by cases h; rfl⟩
  | exhausted c =>
    obtain ⟨hp, ht⟩ := raiseStop_next h
    exact .inr ⟨c, rfl, hp, ht⟩

/-- A micro-operation that answers a next state ran in its mode (R138). -/
theorem inMode_next {m : CursorMode} {s t : State} {k : Host.Outcome State Fault Refusal}
    (h : inMode m s k = .next t) : s.cur.mode = m ∧ k = .next t := by
  unfold inMode at h
  split at h
  · exact ⟨by assumption, h⟩
  · cases h

/-- A micro-operation that answers a next state had a bit count in its range (R132, R134). -/
theorem inRange_next {n hi : Nat} {t : State} {k : Host.Outcome State Fault Refusal} (h : inRange n hi k = .next t) :
    1 ≤ n ∧ n ≤ hi ∧ k = .next t := by
  unfold inRange at h
  split at h
  · rename_i hn
    exact ⟨hn.1, hn.2, h⟩
  · cases h

/-! ## The fetch -/

/-- A decoder's read goes on with the value, or stops the command (R131, R135). -/
theorem reading_cases {α : Type} (s : State) (d : Delivery α) (cut : State → State) (k : α → State → Fetched) :
    (∃ v c, d = .value v c ∧ reading s d cut k = k v { s with cur := c }) ∨
    (∃ c, d = .exhausted c ∧ reading s d cut k = .acted (raiseStop .exhausted (cut { s with cur := c }))) := by
  cases d with
  | value v c => exact .inl ⟨v, c, rfl, rfl⟩
  | exhausted c => exact .inr ⟨c, rfl, rfl⟩

/-- A loop head stops with `FULL` or goes on (R291). -/
theorem atLoopHead_cases (s : State) (k : Fetched) :
    (s.par.reqSize.toNat ≤ s.outLen.toNat ∧ atLoopHead s k = .acted (raiseStop .full s)) ∨
    (s.outLen.toNat < s.par.reqSize.toNat ∧ atLoopHead s k = k) := by
  by_cases h : s.par.reqSize.toNat ≤ s.outLen.toNat
  · exact .inl ⟨h, by simp [atLoopHead, outputIsFull, h]⟩
  · exact .inr ⟨by omega, by simp [atLoopHead, outputIsFull, h]⟩

/-- With no host action to come, a step is the engine's. -/
theorem fetch_engine {s : State} (h : s.host = []) : fetch s = fetchStream s := by
  simp [fetch, h]

/-- With a host action to come, a step is that action, in the state without it. -/
theorem fetch_host {s : State} {a : HostAction} {rest : List HostAction} (h : s.host = a :: rest) :
    fetch s = hostAct a { s with host := rest } := by
  simp [fetch, h]

/-! ## The host's memory accesses -/

/-- Placing input is refused while a command runs, or writes the bytes from index 0 on (R334, U4). -/
theorem placeInput_cases (bytes : List Byte) (s : State) :
    (s.status.busy = true ∧ placeInput bytes s = .refused .inputChangedWhileBusy) ∨
    (s.status.busy = false ∧
      placeInput bytes s = .next { s with inSpace := memWriteAll s.inSpace 0 (bytes.take (2 ^ 32)) }) := by
  cases h : s.status.busy <;> simp [placeInput, h]

/-- Binding the ports is refused while a command runs, or changes the binding alone (R334, logs 12 and 27). -/
theorem bindPorts_cases (p : Ports) (s : State) :
    (s.status.busy = true ∧ bindPorts p s = .refused .portsChangedWhileBusy) ∨
    (s.status.busy = false ∧ bindPorts p s = .next { s with ports := p }) := by
  cases h : s.status.busy <;> simp [bindPorts, h]

/-- What a reset leaves open: all that was, and `OUT[0 .. REQ_SIZE-1]` if a command was running (R332, U8). -/
theorem isOpen_openAfterReset (s : State) (a : Nat) :
    isOpen (openAfterReset s) a = ((s.status.busy && decide (a < s.par.reqSize.toNat)) || isOpen s.outOpen a) := by
  cases h : s.status.busy <;> simp [openAfterReset, h, isOpen]

/-! ## The units -/

/-- An insertion writes the entry at `nextIndex` and grows the width at a power of two, or does nothing (R163 to R165). -/
theorem insertEntry_cases (first : Byte) (out : State) (u : LzwUnit) :
    (out.outLen.toNat < out.par.reqSize.toNat ∧ u.nextIndex.toNat < Config.lzwDictSize ∧
      insertEntry first out u =
        { u with
          dict := tableSet u.dict u.nextIndex.toNat { prefixCode := u.prevCode, value := first }
          nextIndex := u.nextIndex + 1
          codeWidth :=
            if u.nextIndex.toNat + 1 = 2 ^ u.codeWidth.toNat ∧ u.codeWidth.toNat < Config.lzwMaxWidth then
              u.codeWidth + 1
            else u.codeWidth }) ∨
    (¬ (out.outLen.toNat < out.par.reqSize.toNat ∧ u.nextIndex.toNat < Config.lzwDictSize) ∧
      insertEntry first out u = u) := by
  by_cases h : out.outLen.toNat < out.par.reqSize.toNat ∧ u.nextIndex.toNat < Config.lzwDictSize
  · exact .inl ⟨h.1, h.2, by rw [insertEntry, if_pos h]⟩
  · exact .inr ⟨h, by rw [insertEntry, if_neg h]⟩

/-- A change of a node that stands in the table, read back. -/
theorem tableGet_updateNode_same {nodes : Table Node} {i : NodeIdx} {f : Node → Node} :
    tableGet (updateNode nodes i f) i.toNat = (tableGet nodes i.toNat).map f := by
  unfold updateNode
  split
  · rename_i h
    simp [h]
  · rename_i n h
    simp [h, tableGet_tableSet_same]

/-- A change of a node leaves the others. -/
theorem tableGet_updateNode_other {nodes : Table Node} {i : NodeIdx} {f : Node → Node} {k : Nat} (h : k ≠ i.toNat) :
    tableGet (updateNode nodes i f) k = tableGet nodes k := by
  unfold updateNode
  split
  · rfl
  · exact tableGet_tableSet_other h

/-- The root check that answers a next state stops with `INVALID_TREE` or enters the samples (R185). -/
theorem checkRoot_next {s t : State} (h : checkRoot s = .next t) :
    ∃ root, tableGet s.huf.nodes 0 = some root ∧
      (((root.left = none ∨ root.right = none) ∧ s.phase ≠ .idle ∧ t = stopped .invalidTree s) ∨
       (root.left ≠ none ∧ root.right ≠ none ∧ t = { s with phase := .hufSample })) := by
  unfold checkRoot at h
  split at h
  · cases h
  · rename_i root hroot
    refine ⟨root, hroot, ?_⟩
    split at h
    · rename_i hone
      obtain ⟨hp, ht⟩ := raiseStop_next h
      exact .inl ⟨hone, hp, ht⟩
    · rename_i hboth
      rw [not_or] at hboth
      exact .inr ⟨hboth.1, hboth.2, by cases h; rfl⟩

end Sys2Proof.Laws
end

