-- ==== Sys2Proof/Laws/Engine.lean ====
section
/-! SUPPORT. The engine and the host's list: an instruction, and what the engine fetches, do the same whatever the host
still has to do, and leave that list as it stands. -/

namespace Sys2Proof.Laws

open Sys2Proof.Machine

/-- A state with another list of host actions to come. -/
def withHost (h : List HostAction) (s : State) : State := { s with host := h }

/-- An outcome with another list of host actions to come in its next state. -/
def outcomeWithHost (h : List HostAction) : Host.Outcome State Fault Refusal → Host.Outcome State Fault Refusal
  | .next t => .next (withHost h t)
  | .fault f => .fault f
  | .refused r => .refused r

/-- What was fetched, with another list of host actions to come. -/
def fetchedWithHost (h : List HostAction) : Fetched → Fetched
  | .run i t => .run i (withHost h t)
  | .acted o => .acted (outcomeWithHost h o)

/-! ## The shared operations -/

theorem raiseStop_withHost (h : List HostAction) (c : StopCause) (s : State) :
    raiseStop c (withHost h s) = outcomeWithHost h (raiseStop c s) := by
  by_cases hp : s.phase = .idle
  · simp [raiseStop, withHost, hp, outcomeWithHost]
  · simp [raiseStop, withHost, hp, outcomeWithHost, stopped]; rfl

theorem inPhase_withHost (h : List HostAction) (p : Phase) (s : State) {k l : Host.Outcome State Fault Refusal}
    (hk : l = outcomeWithHost h k) : inPhase p (withHost h s) l = outcomeWithHost h (inPhase p s k) := by
  by_cases hp : s.phase = p <;> simp [inPhase, withHost, hp, hk, outcomeWithHost]

theorem appendThen_withHost (h : List HostAction) (v : Byte) (s : State)
    {k l : State → Host.Outcome State Fault Refusal} (hk : ∀ t, l (withHost h t) = outcomeWithHost h (k t)) :
    appendThen v (withHost h s) l = outcomeWithHost h (appendThen v s k) := by
  have happ : outAppend v (withHost h s) = (outAppend v s).map (withHost h) := by
    show (if s.par.reqSize.toNat ≤ s.outLen.toNat then _ else _) = Except.map _ (if _ then _ else _)
    split <;> rfl
  unfold appendThen
  rw [happ]
  cases outAppend v s with
  | error f => rfl
  | ok t => exact hk t

theorem unlessFull_withHost (h : List HostAction) (s : State) {k l : State → Host.Outcome State Fault Refusal}
    (hk : l (withHost h s) = outcomeWithHost h (k s)) :
    unlessFull (withHost h s) l = outcomeWithHost h (unlessFull s k) := by
  have hf : outputIsFull (withHost h s) = outputIsFull s := rfl
  unfold unlessFull
  rw [hf]
  split
  · exact raiseStop_withHost h _ s
  · exact hk

theorem issue_withHost (h : List HostAction) (s start : State) :
    issue (withHost h s) (withHost h start) = outcomeWithHost h (issue s start) := by
  have hc : portsCollide (withHost h s) = portsCollide s := rfl
  unfold issue
  rw [hc]
  show (if s.status.busy = true then _ else if Config.maxInLen < s.par.inLen.toNat then _ else if _ then _ else
    if s.ports.outRoom < s.par.reqSize.toNat then _ else _) = _
  split_ifs <;> rfl

theorem settle_withHost {α : Type} (h : List HostAction) (s : State) (d : Delivery α) (f : α → Code) :
    settle (withHost h s) d f = outcomeWithHost h (settle s d f) := by
  cases d with
  | value v c => rfl
  | exhausted c => exact raiseStop_withHost h _ { s with cur := c }

theorem inMode_withHost (h : List HostAction) (m : CursorMode) (s : State) {k l : Host.Outcome State Fault Refusal}
    (hk : l = outcomeWithHost h k) : inMode m (withHost h s) l = outcomeWithHost h (inMode m s k) := by
  by_cases hp : s.cur.mode = m <;> simp [inMode, withHost, hp, hk, outcomeWithHost]

theorem inRange_withHost (h : List HostAction) (n hi : Nat) {k l : Host.Outcome State Fault Refusal}
    (hk : l = outcomeWithHost h k) : inRange n hi l = outcomeWithHost h (inRange n hi k) := by
  subst hk
  unfold inRange
  split <;> rfl

theorem emit_withHost (h : List HostAction) (str : List Byte) (s : State) :
    emit str (withHost h s) = withHost h (emit str s) := by
  have : ∀ (l : List Byte) (t : State), l.foldl (fun u v => appendByte v u) (withHost h t) =
      withHost h (l.foldl (fun u v => appendByte v u) t) := by
    intro l
    induction l with
    | nil => exact fun _ => rfl
    | cons v rest ih => exact fun t => ih (appendByte v t)
  exact this _ s

/-! ## The instructions -/

theorem normalCode_withHost (h : List HostAction) (code start : Code) (again : Bool) (s : State) :
    normalCode code start again (withHost h s) = outcomeWithHost h (normalCode code start again s) := by
  refine inPhase_withHost h _ s ?_
  show (match stringOf s.lzw.dict start with | .error f => _ | .ok str => _) = _
  cases stringOf s.lzw.dict start with
  | error f => rfl
  | ok str =>
    simp only [emit_withHost]
    rfl

theorem checkRoot_withHost (h : List HostAction) (s : State) :
    checkRoot (withHost h s) = outcomeWithHost h (checkRoot s) := by
  unfold checkRoot
  show (match tableGet s.huf.nodes 0 with | none => _ | some root => _) = _
  cases tableGet s.huf.nodes 0 with
  | none => rfl
  | some root =>
    show (if _ then _ else _) = outcomeWithHost h (if _ then _ else _)
    split
    · exact raiseStop_withHost h _ s
    · rfl

theorem execHufNode_withHost (h : List HostAction) (v : BitVec 7) (l r : Bool) (s : State) :
    execHufNode v l r (withHost h s) = outcomeWithHost h (execHufNode v l r s) := by
  refine inPhase_withHost h _ s ?_
  show (if Config.hufNodeCap ≤ s.huf.nodeCount.toNat then _ else _) = _
  split
  · exact raiseStop_withHost h _ s
  · cases l
    · cases r
      · simp only [Bool.false_eq_true, if_false]
        show (match returnBuild (s.huf.nodeCount.setWidth 8) (allocNode v s.huf).nodes (allocNode v s.huf).stack with
          | (nodes, some stack) => _
          | (nodes, none) => _) = _
        rcases returnBuild (s.huf.nodeCount.setWidth 8) (allocNode v s.huf).nodes (allocNode v s.huf).stack with
          ⟨nodes, _ | stack⟩
        · exact checkRoot_withHost h { s with huf := { allocNode v s.huf with nodes := nodes, stack := [] } }
        · rfl
      · rfl
    · rfl

theorem execHufSample_withHost (h : List HostAction) (sign : Bool) (path : List Bool) (s : State) :
    execHufSample sign path (withHost h s) = outcomeWithHost h (execHufSample sign path s) := by
  refine inPhase_withHost h _ s ?_
  show (match walk s.huf.nodes s.huf.nodeCount.toNat Config.hufNodeCap 0 path with
    | .broken f => _ | .mismatch => _ | .outside => _ | .leaf node value => _) = _
  cases walk s.huf.nodes s.huf.nodeCount.toNat Config.hufNodeCap 0 path with
  | broken f => rfl
  | mismatch => rfl
  | outside => exact raiseStop_withHost h _ s
  | leaf node value => exact appendThen_withHost h _ (walked sign node _ s) fun _ => rfl

theorem sddEmit_withHost (h : List HostAction) (v : BitVec 9) (s : State)
    {k l : State → Host.Outcome State Fault Refusal} (hk : ∀ t, l (withHost h t) = outcomeWithHost h (k t)) :
    sddEmit v (withHost h s) l = outcomeWithHost h (sddEmit v s k) :=
  appendThen_withHost h _ { s with sdd := { s.sdd with accumulator := sddSample s.sdd.accumulator v } } hk

theorem nduSeed_withHost (h : List HostAction) (seed : Byte) (s : State)
    {k l : State → Host.Outcome State Fault Refusal} (hk : ∀ t, l (withHost h t) = outcomeWithHost h (k t)) :
    nduSeed seed (withHost h s) l = outcomeWithHost h (nduSeed seed s k) :=
  appendThen_withHost h _ { s with ndu := { s.ndu with accumulator := seed } } fun t => unlessFull_withHost h t (hk t)

theorem nduDelta_withHost (h : List HostAction) (n : Nibble) (s : State)
    {k l : State → Host.Outcome State Fault Refusal} (hk : ∀ t, l (withHost h t) = outcomeWithHost h (k t)) :
    nduDelta n (withHost h s) l = outcomeWithHost h (nduDelta n s k) :=
  appendThen_withHost h _
    { s with ndu := { accumulator := s.ndu.accumulator + nibbleDelta n, count := s.ndu.count - 1 } }
    fun t => unlessFull_withHost h t (hk t)

/-- An instruction does the same whatever the host still has to do, and leaves that as it stands. -/
theorem exec_withHost (h : List HostAction) (i : Instr) (s : State) :
    exec i (withHost h s) = outcomeWithHost h (exec i s) := by
  cases i with
  | decLzw => exact issue_withHost h s (startLzw s)
  | decHuf => exact issue_withHost h s (startHuf s)
  | decSdd => exact issue_withHost h s (startSdd s)
  | decNdu => exact issue_withHost h s (startNdu s)
  | cursorInit start m => rfl
  | fetchb => exact inMode_withHost h _ s (settle_withHost h s _ _)
  | rdbitsL n => exact inRange_withHost h _ _ (inMode_withHost h _ s (settle_withHost h s _ _))
  | rdbitM => exact inMode_withHost h _ s (settle_withHost h s _ _)
  | rdbitsM n => exact inRange_withHost h _ _ (inMode_withHost h _ s (settle_withHost h s _ _))
  | lzwEnd => exact inPhase_withHost h _ s (raiseStop_withHost h _ s)
  | lzwCorrupt c => exact inPhase_withHost h _ s (raiseStop_withHost h _ s)
  | lzwReset => exact inPhase_withHost h _ s rfl
  | lzwLit b => exact normalCode_withHost h _ _ _ s
  | lzwRef c => exact normalCode_withHost h _ _ _ s
  | lzwKwkwk c => exact normalCode_withHost h _ _ _ s
  | hufNode v l r => exact execHufNode_withHost h v l r s
  | hufSample sign path => exact execHufSample_withHost h sign path s
  | sddHdr m => exact inPhase_withHost h _ s rfl
  | sddInit a =>
    refine inPhase_withHost h _ s ?_
    show (if s.sdd.effSize.toNat = 0 then _ else _) = _
    split
    · rfl
    · exact appendThen_withHost h a { s with sdd := { s.sdd with accumulator := a }, phase := .sddWord } fun _ => rfl
  | sddEsc => exact inPhase_withHost h _ s rfl
  | sddHold v => exact inPhase_withHost h _ s (sddEmit_withHost h v s fun _ => rfl)
  | sddDelta v => exact inPhase_withHost h _ s (sddEmit_withHost h v s fun _ => rfl)
  | nduLit b =>
    exact inPhase_withHost h _ s
      (appendThen_withHost h b { s with ndu := { s.ndu with accumulator := b } } fun _ => rfl)
  | nduEsc seed count => exact inPhase_withHost h _ s (nduSeed_withHost h seed s fun _ => rfl)
  | nduPair hi lo =>
    refine inPhase_withHost h _ s (nduDelta_withHost h hi s fun t => ?_)
    show (if t.ndu.count = 0 then _ else _) = _
    split
    · rfl
    · exact nduDelta_withHost h lo t fun _ => rfl

/-! ## The fetch -/

theorem reading_withHost {α : Type} (h : List HostAction) (s : State) (d : Delivery α) {cut cut' : State → State}
    {k l : α → State → Fetched} (hc : ∀ t, cut' (withHost h t) = withHost h (cut t))
    (hk : ∀ v t, l v (withHost h t) = fetchedWithHost h (k v t)) :
    reading (withHost h s) d cut' l = fetchedWithHost h (reading s d cut k) := by
  cases d with
  | value v c => exact hk v { s with cur := c }
  | exhausted c =>
    show Fetched.acted (raiseStop .exhausted (cut' (withHost h { s with cur := c }))) = _
    rw [hc, raiseStop_withHost]
    rfl

theorem atLoopHead_withHost (h : List HostAction) (s : State) {k l : Fetched} (hk : l = fetchedWithHost h k) :
    atLoopHead (withHost h s) l = fetchedWithHost h (atLoopHead s k) := by
  have hf : outputIsFull (withHost h s) = outputIsFull s := rfl
  subst hk
  unfold atLoopHead
  rw [hf, raiseStop_withHost]
  split <;> rfl

theorem fetchPath_withHost (h : List HostAction) (sign : Bool) (fuel : Nat) (node : NodeIdx) (path : List Bool)
    (s : State) : fetchPath sign fuel node path (withHost h s) = fetchedWithHost h (fetchPath sign fuel node path s) := by
  induction fuel generalizing node path s with
  | zero => rfl
  | succ fuel ih =>
    unfold fetchPath
    show (match tableGet s.huf.nodes node.toNat with | none => _ | some n => _) = _
    cases tableGet s.huf.nodes node.toNat with
    | none => rfl
    | some n =>
      show (if isLeaf n then _ else _) = fetchedWithHost h (if isLeaf n then _ else _)
      split
      · rfl
      · refine reading_withHost h s _ (fun _ => rfl) fun d t => ?_
        cases childOf n d with
        | none => rfl
        | some child =>
          show (if t.huf.nodeCount.toNat ≤ child.toNat then _ else _) = fetchedWithHost h (if _ then _ else _)
          split
          · rfl
          · exact ih child (d :: path) t

theorem fetchEsc_withHost (h : List HostAction) (s : State) :
    fetchEsc (withHost h s) = fetchedWithHost h (fetchEsc s) := by
  unfold fetchEsc readingByte
  refine reading_withHost h s (fetchByte s.inSpace s.par.inLen s.cur) (fun _ => rfl) fun seed t => ?_
  have hs : ∀ (u : State), Fetched.acted (nduSeed seed (withHost h u) (raiseStop .exhausted)) =
      fetchedWithHost h (.acted (nduSeed seed u (raiseStop .exhausted))) := fun u =>
    congrArg Fetched.acted (nduSeed_withHost h seed u fun _ => raiseStop_withHost h _ _)
  show (if t.par.reqSize.toNat ≤ t.outLen.toNat + 1 then _ else _) = fetchedWithHost h (if _ then _ else _)
  split
  · exact congrArg Fetched.acted (nduSeed_withHost h seed t fun _ => rfl)
  · show (match fetchByte t.inSpace t.par.inLen t.cur with | .exhausted c => _ | .value hi c1 => _) = _
    cases fetchByte t.inSpace t.par.inLen t.cur with
    | exhausted c => exact hs { t with cur := c }
    | value hi c1 =>
      show (match fetchByte t.inSpace t.par.inLen c1 with | .exhausted c => _ | .value lo c2 => _) =
        fetchedWithHost h (match fetchByte t.inSpace t.par.inLen c1 with | .exhausted c => _ | .value lo c2 => _)
      cases fetchByte t.inSpace t.par.inLen c1 with
      | exhausted c => exact hs { t with cur := c }
      | value lo c2 => rfl

/-- What the engine fetches is the same whatever the host still has to do, and leaves that as it stands. -/
theorem fetchStream_withHost (h : List HostAction) (s : State) :
    fetchStream (withHost h s) = fetchedWithHost h (fetchStream s) := by
  have hstop : ∀ c (t : State), Fetched.acted (raiseStop c (withHost h t)) = fetchedWithHost h (.acted (raiseStop c t)) :=
    fun c t => congrArg Fetched.acted (raiseStop_withHost h c t)
  unfold fetchStream
  show (match s.phase with
    | .idle => _ | .lzwCode => _ | .hufNode => _ | .hufSample => _ | .sddHdr => _ | .sddInit => _ | .sddWord => _
    | .nduScan => _ | .nduRun => _) = _
  cases s.phase with
  | idle => rfl
  | lzwCode => exact atLoopHead_withHost h s (reading_withHost h s _ (fun _ => rfl) fun _ _ => rfl)
  | hufNode =>
    show (if Config.hufNodeCap ≤ s.huf.nodeCount.toNat then _ else _) = fetchedWithHost h (if _ then _ else _)
    split
    · exact hstop _ s
    · exact reading_withHost h s _ (fun _ => rfl) fun _ t1 =>
        reading_withHost h t1 _ (fun _ => rfl) fun _ t2 => reading_withHost h t2 _ (fun _ => rfl) fun _ _ => rfl
  | hufSample =>
    exact atLoopHead_withHost h s
      (reading_withHost h s _ (fun _ => rfl) fun sign t => fetchPath_withHost h sign _ 0 [] t)
  | sddHdr => exact reading_withHost h s _ (fun _ => rfl) fun _ _ => rfl
  | sddInit =>
    show (if s.sdd.effSize.toNat = 0 then _ else _) = fetchedWithHost h (if _ then _ else _)
    split
    · exact hstop _ s
    · exact reading_withHost h s _ (fun _ => rfl) fun _ _ => rfl
  | sddWord =>
    show (if s.sdd.effSize.toNat ≤ s.outLen.toNat then _ else _) = fetchedWithHost h (if _ then _ else _)
    split
    · exact hstop _ s
    · exact reading_withHost h s _ (fun _ => rfl) fun _ _ => rfl
  | nduScan =>
    refine atLoopHead_withHost h s (reading_withHost h s _ (fun _ => rfl) fun b t => ?_)
    show (if b = t.par.escape then _ else _) = fetchedWithHost h (if _ then _ else _)
    split
    · exact fetchEsc_withHost h t
    · rfl
  | nduRun => exact reading_withHost h s _ (fun _ => rfl) fun _ _ => rfl

end Sys2Proof.Laws
end

