-- ==== Sys2Proof/Laws/PerInstr.lean ====
section
/-! SUPPORT. The per-instruction family `EncodedLength`: in every format that can say the instruction, its encoding has the
length that spec/30_encoding.md R109 gives it. -/

namespace Sys2Proof.Laws

open Sys2Proof.Safety

@[simp] theorem toLsb_length (n v : Nat) : (toLsb n v).length = n := by
  induction n generalizing v with
  | zero => rfl
  | succ n ih => simp [toLsb, ih]

@[simp] theorem toMsb_length (n v : Nat) : (toMsb n v).length = n := by simp [toMsb]

/-- The bits of an LZW code are as many as its width. -/
theorem encodeLzw_length {width code : Nat} {bits : List Bool} (h : encodeLzw width code = some bits) :
    bits.length = width := by
  unfold encodeLzw at h
  split at h
  · cases h
    exact toLsb_length width code
  · cases h

/-- R109: where a format says the instruction, its bits are as many as the rule gives. -/
def EncodedLength.Statement (i : Instr) : Prop :=
  ∀ f bits, encode f i = some bits → bits.length = symbolBits f i

theorem EncodedLength.decLzw : EncodedLength.Statement .decLzw := by
  intro f bits he
  cases f <;> simp only [encode, reduceCtorEq, Option.some.injEq] at he
  subst he
  simp [symbolBits]

theorem EncodedLength.decHuf : EncodedLength.Statement .decHuf := by
  intro f bits he
  cases f <;> simp only [encode, reduceCtorEq, Option.some.injEq] at he
  subst he
  simp [symbolBits]

theorem EncodedLength.decSdd : EncodedLength.Statement .decSdd := by
  intro f bits he
  cases f <;> simp only [encode, reduceCtorEq, Option.some.injEq] at he
  subst he
  simp [symbolBits]

theorem EncodedLength.decNdu : EncodedLength.Statement .decNdu := by
  intro f bits he
  cases f <;> simp only [encode, reduceCtorEq, Option.some.injEq] at he
  subst he
  simp [symbolBits]

theorem EncodedLength.cursorInit (start : Word) (m : CursorMode) : EncodedLength.Statement (.cursorInit start m) := by
  intro f bits he
  cases f <;> simp only [encode, reduceCtorEq] at he

theorem EncodedLength.fetchb : EncodedLength.Statement .fetchb := by
  intro f bits he
  cases f <;> simp only [encode, reduceCtorEq] at he

theorem EncodedLength.rdbitsL (n : Nat) : EncodedLength.Statement (.rdbitsL n) := by
  intro f bits he
  cases f <;> simp only [encode, reduceCtorEq] at he

theorem EncodedLength.rdbitM : EncodedLength.Statement .rdbitM := by
  intro f bits he
  cases f <;> simp only [encode, reduceCtorEq] at he

theorem EncodedLength.rdbitsM (n : Nat) : EncodedLength.Statement (.rdbitsM n) := by
  intro f bits he
  cases f <;> simp only [encode, reduceCtorEq] at he

theorem EncodedLength.lzwEnd : EncodedLength.Statement .lzwEnd := by
  intro f bits he
  cases f <;> simp only [encode, reduceCtorEq] at he
  exact encodeLzw_length he

theorem EncodedLength.lzwCorrupt (c : Code) : EncodedLength.Statement (.lzwCorrupt c) := by
  intro f bits he
  cases f <;> simp only [encode, reduceCtorEq] at he
  split at he
  · exact encodeLzw_length he
  · cases he

theorem EncodedLength.lzwReset : EncodedLength.Statement .lzwReset := by
  intro f bits he
  cases f <;> simp only [encode, reduceCtorEq] at he
  split at he
  · exact encodeLzw_length he
  · cases he

theorem EncodedLength.lzwLit (b : Byte) : EncodedLength.Statement (.lzwLit b) := by
  intro f bits he
  cases f <;> simp only [encode, reduceCtorEq] at he
  split at he
  · exact encodeLzw_length he
  · cases he

theorem EncodedLength.lzwRef (c : Code) : EncodedLength.Statement (.lzwRef c) := by
  intro f bits he
  cases f <;> simp only [encode, reduceCtorEq] at he
  split at he
  · exact encodeLzw_length he
  · cases he

theorem EncodedLength.lzwKwkwk (c : Code) : EncodedLength.Statement (.lzwKwkwk c) := by
  intro f bits he
  cases f <;> simp only [encode, reduceCtorEq] at he
  split at he
  · exact encodeLzw_length he
  · cases he

theorem EncodedLength.hufNode (v : BitVec 7) (l r : Bool) : EncodedLength.Statement (.hufNode v l r) := by
  intro f bits he
  cases f <;> simp only [encode, reduceCtorEq, Option.some.injEq] at he
  subst he
  simp [symbolBits]

theorem EncodedLength.hufSample (sign : Bool) (path : List Bool) : EncodedLength.Statement (.hufSample sign path) := by
  intro f bits he
  cases f <;> simp only [encode, reduceCtorEq] at he
  split at he <;> cases he
  simp [symbolBits, Nat.add_comm]

theorem EncodedLength.sddHdr (m : Byte) : EncodedLength.Statement (.sddHdr m) := by
  intro f bits he
  cases f <;> simp only [encode, reduceCtorEq, Option.some.injEq] at he
  subst he
  simp [symbolBits]

theorem EncodedLength.sddInit (a : Byte) : EncodedLength.Statement (.sddInit a) := by
  intro f bits he
  cases f <;> simp only [encode, reduceCtorEq, Option.some.injEq] at he
  subst he
  simp [symbolBits]

theorem EncodedLength.sddEsc : EncodedLength.Statement .sddEsc := by
  intro f bits he
  cases f <;> simp only [encode, reduceCtorEq, Option.some.injEq] at he
  subst he
  simp [symbolBits]

theorem EncodedLength.sddHold (v : BitVec 9) : EncodedLength.Statement (.sddHold v) := by
  intro f bits he
  cases f <;> simp only [encode, reduceCtorEq] at he
  split at he <;> cases he
  simp [symbolBits]

theorem EncodedLength.sddDelta (v : BitVec 9) : EncodedLength.Statement (.sddDelta v) := by
  intro f bits he
  cases f <;> simp only [encode, reduceCtorEq] at he
  split at he <;> cases he
  simp [symbolBits]

theorem EncodedLength.nduLit (b : Byte) : EncodedLength.Statement (.nduLit b) := by
  intro f bits he
  cases f <;> simp only [encode, reduceCtorEq] at he
  split at he <;> cases he
  simp [symbolBits]

theorem EncodedLength.nduEsc (seed : Byte) (count : BitVec 16) : EncodedLength.Statement (.nduEsc seed count) := by
  intro f bits he
  cases f <;> simp only [encode, reduceCtorEq, Option.some.injEq] at he
  subst he
  simp [symbolBits]

theorem EncodedLength.nduPair (h l : Nibble) : EncodedLength.Statement (.nduPair h l) := by
  intro f bits he
  cases f <;> simp only [encode, reduceCtorEq, Option.some.injEq] at he
  subst he
  simp [symbolBits]

end Sys2Proof.Laws
end

