-- ==== Sys2Proof/Laws/Units.lean ====
section
/-! SUPPORT. The operations with a loop in them, said in the terms claims use: an emission, a prefix chain, a walk. -/

namespace Sys2Proof.Laws

open Sys2Proof.Machine Sys2Proof.Safety

/-! ## An emission -/

/-- Appending bytes for which there is room: `OUT_LEN` grows by their number, they read back in order, and no other byte
changes (R66). -/
theorem foldl_appendByte_reads (str : List Byte) (s : State) (hwf : s.outSpace.wf = true)
    (hroom : s.outLen.toNat + str.length ≤ s.par.reqSize.toNat) :
    let t := str.foldl (fun t v => appendByte v t) s
    t.outLen.toNat = s.outLen.toNat + str.length ∧
    (∀ j, j < str.length → memRead t.outSpace (s.outLen.toNat + j) = str.getD j 0) ∧
    ∀ a, a < s.outLen.toNat ∨ s.outLen.toNat + str.length ≤ a → memRead t.outSpace a = memRead s.outSpace a := by
  induction str generalizing s with
  | nil => exact ⟨rfl, fun j hj => absurd hj (Nat.not_lt_zero j), fun _ _ => rfl⟩
  | cons v rest ih =>
    simp only [List.length_cons] at hroom
    have hlen := appendByte_outLen_toNat (v := v) (s := s) (by omega)
    obtain ⟨h1, h2, h3⟩ := ih (appendByte v s) (by simpa using memWrite_wf hwf) (by rw [hlen]; simpa using by omega)
    rw [hlen] at h1 h2 h3
    simp only [List.foldl_cons, List.length_cons]
    refine ⟨by omega, fun j hj => ?_, fun a ha => ?_⟩
    · cases j with
      | zero =>
        have := h3 s.outLen.toNat (.inl (by omega))
        rw [Nat.add_zero, this, appendByte_outSpace, memRead_memWrite_same hwf]
        rfl
      | succ j =>
        have := h2 j (by omega)
        rw [show s.outLen.toNat + (j + 1) = s.outLen.toNat + 1 + j by omega, this]
        rfl
    · rw [h3 a (by omega), appendByte_outSpace, memRead_memWrite_other (by omega)]

/-- An emission appends its string, cut to the room (R162). -/
theorem emit_appends {str : List Byte} {s : State} (hwf : s.outSpace.wf = true) : Appends str s (emit str s) := by
  have hl : (str.take (s.par.reqSize.toNat - s.outLen.toNat)).length =
      min str.length (s.par.reqSize.toNat - s.outLen.toNat) := by
    rw [List.length_take, Nat.min_comm]
  by_cases hr : s.outLen.toNat ≤ s.par.reqSize.toNat
  · obtain ⟨h1, h2, h3⟩ := foldl_appendByte_reads (str.take (s.par.reqSize.toNat - s.outLen.toNat)) s hwf (by omega)
    rw [hl] at h1 h2 h3
    refine ⟨h1, fun j hj => ?_, h3⟩
    have := h2 j hj
    rw [emit, this]
    simp only [List.getD_eq_getElem?_getD]
    rw [List.getElem?_take_of_lt (by omega)]
  · have h0 : s.par.reqSize.toNat - s.outLen.toNat = 0 := by omega
    have he : emit str s = s := by rw [emit, h0]; rfl
    simp [Appends, h0, he]

/-- One append with room appends its byte (R11). -/
theorem appendByte_appends {v : Byte} {s : State} (hwf : s.outSpace.wf = true)
    (hroom : s.outLen.toNat < s.par.reqSize.toNat) : Appends [v] s (appendByte v s) := by
  have he : emit [v] s = appendByte v s := by
    obtain ⟨k, hk⟩ : ∃ k, s.par.reqSize.toNat - s.outLen.toNat = k + 1 := ⟨_, (Nat.succ_pred_eq_of_pos (by omega)).symm⟩
    simp [emit, hk]
  exact he ▸ emit_appends hwf

/-! ## A stop -/

/-- The state a stop leaves, in the terms claims use (R300, R296, R35). -/
theorem stopped_stoppedAs (cause : StopCause) (s : State) : StoppedAs cause (consumedFor s) s (stopped cause s) := by
  have hup : ∀ x, up4 x = roundUp4 x := fun x => by unfold up4 roundUp4; omega
  have hc : consumedAtStop s = BitVec.ofNat 32 (consumedFor s) := by
    unfold consumedAtStop consumedFor
    cases s.phase <;> simp [hup, bytesSince, bytesRead]
  unfold StoppedAs stopped
  rw [hc]
  rfl

/-! ## The host's write of `OUT` -/

/-- A host write of `OUT` changes its byte alone (R342). -/
theorem writeOutByte_writesOut {i : Nat} {v : Byte} {s : State} (hwf : s.outSpace.wf = true) :
    WritesOut i v s (writeOutByte i v s) :=
  ⟨memRead_memWrite_same hwf, fun _ ha => memRead_memWrite_other ha,
    fun a => by simp [writeOutByte, isOpen_closeIndex], rfl⟩

/-! ## A prefix chain -/

/-- What a chain walk finds is the string of its code, before what stood in `MATCH` (R161). -/
theorem spells_of_chainFrom {dict : Table DictEntry} {room : Nat} {k : Code} {acc r : List Byte}
    (h : chainFrom dict room k acc = .ok r) : ∃ str, Spells dict k str ∧ r = str ++ acc := by
  induction room generalizing k acc with
  | zero => cases h
  | succ room ih =>
    simp only [chainFrom] at h
    split at h
    · cases h
      exact ⟨_, .literal k (by assumption), rfl⟩
    · split at h
      · cases h
      · rename_i hk _ e he
        obtain ⟨str, hs, hr⟩ := ih h
        exact ⟨str ++ [e.value], .built k e str (by omega) he hs, by rw [hr]; simp⟩

/-- A chain walk with room for its string finds it (R161). -/
theorem chainFrom_of_spells {dict : Table DictEntry} {k : Code} {str : List Byte} (h : Spells dict k str) :
    ∀ room acc, str.length ≤ room → chainFrom dict room k acc = .ok (str ++ acc) := by
  induction h with
  | literal c hc =>
    intro room acc hr
    obtain _ | room := room
    · simp at hr
    · simp [chainFrom, hc]
  | built c e str hc he hs ih =>
    intro room acc hr
    obtain _ | room := room
    · simp at hr
    · simp only [List.length_append, List.length_singleton] at hr
      simp only [chainFrom, Nat.not_lt.2 hc, if_false, he]
      rw [ih room (e.value :: acc) (by omega)]
      simp

/-! ## A walk -/

/-- A walk goes on past a path that leads from its node to another (R187). -/
theorem walk_of_visits {nodes : Table Node} {count : Nat} {i k : NodeIdx} {path : List Bool}
    (h : Visits nodes count i path k) :
    ∀ fuel rest, walk nodes count (path.length + fuel) i (path ++ rest) = walk nodes count fuel k rest := by
  induction h with
  | here i => intro fuel rest; simp
  | down i j k n d path h hd hj hp ih =>
    intro fuel rest
    have hleaf : isLeaf n = false := by
      cases d <;> simp_all [isLeaf]
    have hchild : childOf n d = some j := hd
    rw [List.length_cons, show path.length + 1 + fuel = path.length + fuel + 1 by omega, List.cons_append]
    simp only [walk, h, hleaf, hchild, Nat.not_le.2 hj, if_false, Bool.false_eq_true]
    exact ih fuel rest

end Sys2Proof.Laws
end

