-- ==== Sys2Proof/WellFormed.lean ====
section
/-! DEFINITION. Which terms of `Instr` stand for something the spec's encodings can say, whatever the decoder's
state (spec/30_encoding.md R93 to R101, spec/40_bitcursor.md R132, R134). -/

namespace Sys2Proof

/-- The operand ranges of each row. What the state adds (the width in force, `nextIndex`, the tree) is `Format`'s
business, in Decode. -/
def Instr.wellFormed : Instr → Bool
  | .decLzw | .decHuf | .decSdd | .decNdu => true
  | .cursorInit _ _ | .fetchb | .rdbitM => true
  | .rdbitsL n => decide (1 ≤ n ∧ n ≤ 13)
  | .rdbitsM n => decide (1 ≤ n ∧ n ≤ 7)
  | .lzwEnd | .lzwReset | .lzwLit _ => true
  | .lzwCorrupt c => decide (Config.lzwEnd < c.toNat)
  | .lzwRef c => decide (Config.lzwEnd < c.toNat)
  | .lzwKwkwk c => decide (Config.lzwEnd < c.toNat)
  | .hufNode _ _ _ => true
  | .hufSample _ path => decide (1 ≤ path.length ∧ path.length ≤ 255)
  | .sddHdr _ | .sddInit _ | .sddEsc => true
  | .sddHold v => decide (v ≠ 0)
  | .sddDelta v => decide (v ≠ 0 ∧ v.toNat < 2 ^ 8)
  | .nduLit _ | .nduEsc _ _ | .nduPair _ _ => true

end Sys2Proof
end

