-- ==== Sys2Proof/Tests/Slice0.lean ====
section
/-! SUPPORT. Tests on fixed values, their results taken from spec/ (the rule or vector is named), and for every statement of
Certificates/Slice0/Obligations.lean that has hypotheses a state that meets them together. -/

namespace Sys2Proof.Tests

open Sys2Proof.Machine Sys2Proof.Safety

/-! ## Ill-formed terms are refused (R94, R98, R101, R132, R134) -/

theorem test_wellFormed_rdbitsL_low : (Instr.rdbitsL 0).wellFormed = false := by decide
theorem test_wellFormed_rdbitsL_high : (Instr.rdbitsL 14).wellFormed = false := by decide
theorem test_wellFormed_rdbitsM_low : (Instr.rdbitsM 0).wellFormed = false := by decide
theorem test_wellFormed_rdbitsM_high : (Instr.rdbitsM 8).wellFormed = false := by decide
theorem test_wellFormed_lzwCorrupt : (Instr.lzwCorrupt 257).wellFormed = false := by decide
theorem test_wellFormed_lzwRef : (Instr.lzwRef 257).wellFormed = false := by decide
theorem test_wellFormed_lzwKwkwk : (Instr.lzwKwkwk 257).wellFormed = false := by decide
theorem test_wellFormed_hufSample_empty : (Instr.hufSample true []).wellFormed = false := by decide
theorem test_wellFormed_hufSample_long : (Instr.hufSample true (List.replicate 256 true)).wellFormed = false := by
  decide +kernel
theorem test_wellFormed_sddHold : (Instr.sddHold 0).wellFormed = false := by decide
theorem test_wellFormed_sddDelta_zero : (Instr.sddDelta 0).wellFormed = false := by decide
theorem test_wellFormed_sddDelta_high : (Instr.sddDelta 256).wellFormed = false := by decide
theorem test_wellFormed_good :
    [Instr.rdbitsL 13, .rdbitsM 7, .lzwCorrupt 258, .lzwRef 258, .lzwKwkwk 258, .hufSample true [true], .sddHold 1,
      .sddDelta 255].all Instr.wellFormed = true := by decide

/-! ## Decoding, from words written out bit by bit -/

/-- A bit from its digit. -/
def bit (n : Nat) : Bool := n == 1

/-- R91, R92: `OP` in bits [1:0], the reserved bits ignored. -/
theorem test_decode_decLzw : decodeTableWord 32 0b00 = some .decLzw := by decide
theorem test_decode_decHuf : decodeTableWord 32 0b01 = some .decHuf := by decide
theorem test_decode_decSdd : decodeTableWord 32 0b10 = some .decSdd := by decide
theorem test_decode_decNdu : decodeTableWord 32 0xFFFFFFFF = some .decNdu := by decide

/-- R93, R94: nine bits, bit 0 first. -/
theorem test_decode_lzwEnd :
    decode (.lzw 9 257) ([1, 0, 0, 0, 0, 0, 0, 0, 1].map bit) = .ok .lzwEnd [] := by decide
theorem test_decode_lzwCorrupt :
    decode (.lzw 9 257) ([0, 1, 0, 0, 0, 0, 0, 0, 1].map bit) = .ok (.lzwCorrupt 258) [] := by decide
theorem test_decode_lzwReset :
    decode (.lzw 10 512) ([0, 0, 0, 0, 0, 0, 0, 0, 1, 0].map bit) = .ok .lzwReset [] := by decide
theorem test_decode_lzwLit :
    decode (.lzw 9 257) ([1, 0, 0, 0, 0, 0, 1, 0, 0].map bit) = .ok (.lzwLit 0x41) [] := by decide
theorem test_decode_lzwRef :
    decode (.lzw 9 259) ([0, 1, 0, 0, 0, 0, 0, 0, 1].map bit) = .ok (.lzwRef 258) [] := by decide
theorem test_decode_lzwKwkwk :
    decode (.lzw 9 260) ([0, 0, 1, 0, 0, 0, 0, 0, 1].map bit) = .ok (.lzwKwkwk 260) [] := by decide

/-- R96: `vvvvvvvlr`, the first record of the example of R182. -/
theorem test_decode_hufNode :
    decode .hufNode ([0, 0, 0, 0, 0, 1, 1, 1, 0].map bit) = .ok (.hufNode 3 true false) [] := by decide
/-- R98: the example of R187, a sign bit and one path bit, over a tree of three nodes; the next bit is not taken. -/
theorem test_decode_hufSample :
    decode (.hufSample [(0, ⟨some 1, some 2, 0⟩), (1, ⟨none, none, 127⟩), (2, ⟨none, none, 0⟩)] 3)
      ([1, 0, 1].map bit) = .ok (.hufSample true [false]) [true] := by decide
/-- R99: `mmmmmmmm`, the most significant bit first. -/
theorem test_decode_sddHdr :
    decode .sddHdr ([0, 0, 0, 0, 0, 0, 1, 1].map bit) = .ok (.sddHdr 3) [] := by decide
/-- R100: eight bits, bit 0 first. -/
theorem test_decode_sddInit :
    decode .sddInit ([0, 0, 0, 0, 0, 0, 0, 1].map bit) = .ok (.sddInit 0x80) [] := by decide
/-- R101: the word 0, a word with its top bit set, any other (the examples of R216, R218, R219). -/
theorem test_decode_sddEsc :
    decode (.sddWord 7) ([0, 0, 0, 0, 0, 0, 0].map bit) = .ok .sddEsc [] := by decide
theorem test_decode_sddHold :
    decode (.sddWord 8) ([0, 1, 0, 0, 0, 0, 0, 1].map bit) = .ok (.sddHold 0x82) [] := by decide
theorem test_decode_sddDelta :
    decode (.sddWord 8) ([1, 1, 0, 0, 0, 0, 0, 0].map bit) = .ok (.sddDelta 3) [] := by decide
/-- R103: a byte that is not the escape byte. -/
theorem test_decode_nduLit :
    decode (.nduScan 0xFE) ([0, 0, 0, 0, 0, 1, 0, 1].map bit) = .ok (.nduLit 5) [] := by decide
/-- R103, R105: the example of R244, `0xFE 0x10 0x00 0x02`. -/
theorem test_decode_nduEsc :
    decode (.nduScan 0xFE) ([1, 1, 1, 1, 1, 1, 1, 0, 0, 0, 0, 1, 0, 0, 0, 0,
      0, 0, 0, 0, 0, 0, 0, 0, 0, 0, 0, 0, 0, 0, 1, 0].map bit) = .ok (.nduEsc 0x10 2) [] := by decide
/-- R104: `hhhhllll`, the byte `0x37` of R245. -/
theorem test_decode_nduPair :
    decode .nduRun ([0, 0, 1, 1, 0, 1, 1, 1].map bit) = .ok (.nduPair 3 7) [] := by decide

/-! ## One step -/

/-- Does an outcome go on to a state with a property? -/
def after (o : Host.Outcome State Fault Refusal) (p : State → Bool) : Bool :=
  match o with
  | .next t => p t
  | .fault _ => false
  | .refused _ => false

/-- A running command in a phase, at the start of an input, with an empty output. -/
def running (p : Phase) (m : CursorMode) (inp : List Byte) (size : Word) : State :=
  { State.reset with
    phase := p
    status := { State.reset.status with busy := true }
    cur := initCursor 0 m
    inSpace := memWriteAll [] 0 inp
    par := { inLen := BitVec.ofNat 32 inp.length, startOffset := 0, reqSize := size, escape := 0xFE } }

/-- An idle block with an input, a size and a start offset. -/
def idleWith (inp : List Byte) (size offset : Word) : State :=
  { running .idle .byte inp size with
    status := State.reset.status
    par := { inLen := BitVec.ofNat 32 inp.length, startOffset := offset, reqSize := size, escape := 0xFE } }

/-- R151, R262: the start of `DEC_LZW`. -/
theorem test_decLzw : after (exec .decLzw (idleWith [1, 2, 3] 4 2))
    (fun t => t.status.busy && t.cur.bytePos == 2 && t.cur.mode == .lsb && t.lzw.nextIndex == 257
      && t.lzw.codeWidth == 9) = true := by decide
/-- R181, R263: the start of `DEC_HUF`. -/
theorem test_decHuf : after (exec .decHuf (idleWith [1, 2, 3] 4 2))
    (fun t => t.status.busy && t.cur.bytePos == 2 && t.cur.mode == .msb && t.huf.nodeCount == 0) = true := by decide
/-- R210, R264: the start of `DEC_SDD`. -/
theorem test_decSdd : after (exec .decSdd (idleWith [1, 2, 3] 4 2))
    (fun t => t.status.busy && t.cur.bytePos == 2 && t.cur.mode == .byte) = true := by decide
/-- R241, R265: `DEC_NDU` ignores `START_OFFSET`. -/
theorem test_decNdu : after (exec .decNdu (idleWith [1, 2, 3] 4 2))
    (fun t => t.status.busy && t.cur.bytePos == 0 && t.cur.mode == .byte) = true := by decide

/-- R130: the example. -/
theorem test_cursorInit : after (exec (.cursorInit 2 .lsb) State.reset)
    (fun t => t.cur.bytePos == 2 && t.cur.bitsAvailable == 0) = true := by decide
/-- V-CUR-1. -/
theorem test_fetchb : after (exec .fetchb (running .nduScan .byte [0x41] 1))
    (fun t => t.delivered == 0x41 && t.cur.bytePos == 1) = true := by decide
/-- V-CUR-2. -/
theorem test_fetchb_exhausted : after (exec .fetchb (running .nduScan .byte [] 1))
    (fun t => t.status.cause == .exhausted && t.cur.exhausted && t.cur.bytePos == 0) = true := by decide
/-- V-CUR-6. -/
theorem test_rdbitsL : after (exec (.rdbitsL 13) (running .lzwCode .lsb [0xFF, 0xFF, 0x00] 1))
    (fun t => t.delivered == 0x1FFF && t.cur.bitBuffer == 7 && t.cur.bitsAvailable == 3 && t.cur.bytePos == 2) = true := by
  decide
/-- V-CUR-7. -/
theorem test_rdbitsL_exhausted : after (exec (.rdbitsL 9) (running .lzwCode .lsb [0x41] 1))
    (fun t => t.status.cause == .exhausted && t.cur.bytePos == 1 && t.cur.bitBuffer == 0x41
      && t.cur.bitsAvailable == 8) = true := by decide
/-- V-CUR-9, the first bit. -/
theorem test_rdbitM : after (exec .rdbitM (running .hufNode .msb [0xA0] 1))
    (fun t => t.delivered == 1 && t.cur.bytePos == 1 && t.cur.bitsAvailable == 7) = true := by decide
/-- V-CUR-11, the first read. -/
theorem test_rdbitsM : after (exec (.rdbitsM 7) (running .hufNode .msb [0xFE] 1))
    (fun t => t.delivered == 0x7F && t.cur.bytePos == 1 && t.cur.bitsAvailable == 1) = true := by decide

/-- S1, the first code, read from the stream by a step. -/
theorem test_lzwLit : after (step (running .lzwCode .lsb [0x41, 0x84, 0x04, 0x04] 2))
    (fun t => t.outSpace == [(0, 0x41)] && t.outLen == 1 && t.lzw.dict == [(257, ⟨0, 0x41⟩)] && t.lzw.nextIndex == 258
      && t.lzw.prevCode == 0x41 && t.cur.bitBuffer == 0x42 && t.cur.bitsAvailable == 7) = true := by decide
/-- R155: the example, the code read by a step. -/
theorem test_lzwEnd : after (step (running .lzwCode .lsb [0x01, 0x01] 1))
    (fun t => t.status == ⟨false, true, .partialResult, .endCode⟩ && t.consumed == 4 && t.outLen == 0) = true := by decide
/-- R156: the 9-bit code 258 at the start. -/
theorem test_lzwCorrupt : after (step (running .lzwCode .lsb [0x02, 0x01] 1))
    (fun t => t.status.cause == .corrupt && t.outLen == 0) = true := by decide
/-- R157: the example, from width 10 and `nextIndex` 512. -/
theorem test_lzwReset :
    after (exec .lzwReset { running .lzwCode .lsb [] 1 with
        lzw := { State.reset.lzw with codeWidth := 10, nextIndex := 512, prevCode := 5 } })
      (fun t => t.lzw.codeWidth == 9 && t.lzw.nextIndex == 257 && t.lzw.prevCode == 0) = true := by decide

/-- `DEC_LZW` after the codes `0x41`, `0x42`, its next code 258 (the example of R159). -/
def lzwMid : State :=
  { running .lzwCode .lsb [0x02, 0x01] 100 with
    outLen := 2
    outSpace := [(0, 0x41), (1, 0x42)]
    lzw := { codeWidth := 9, nextIndex := 259, prevCode := 0x42, scratch := [0x42],
             dict := [(257, ⟨0, 0x41⟩), (258, ⟨0x41, 0x42⟩)] } }

/-- R159: code 258 emits `0x41 0x42` and inserts entry 259. -/
theorem test_lzwRef : after (step lzwMid)
    (fun t => t.outSpace == [(0, 0x41), (1, 0x42), (2, 0x41), (3, 0x42)]
      && tableGet t.lzw.dict 259 == some ⟨0x42, 0x41⟩ && t.lzw.prevCode == 258) = true := by decide
/-- R160: code 260 after 258 emits `0x41 0x42 0x41`. -/
theorem test_lzwKwkwk :
    after (exec (.lzwKwkwk 260) { lzwMid with lzw := { lzwMid.lzw with nextIndex := 260, prevCode := 258 } })
      (fun t => t.outSpace == [(0, 0x41), (1, 0x42), (2, 0x41), (3, 0x42), (4, 0x41)] && t.lzw.prevCode == 260
        && tableGet t.lzw.dict 260 == some ⟨258, 0x41⟩) = true := by decide
/-- R164: the 255th normal code makes `nextIndex` 512 and the width 10. -/
theorem test_lzwLit_grows :
    after (exec (.lzwLit 1) { lzwMid with lzw := { lzwMid.lzw with nextIndex := 511 } })
      (fun t => t.lzw.nextIndex == 512 && t.lzw.codeWidth == 10) = true := by decide

/-- `DEC_HUF` with room for its first record. -/
def hufStart : State := running .hufNode .msb [0x07, 0x07, 0x00] 4

/-- R182: the example's first record, by a step. -/
theorem test_hufNode : after (step hufStart)
    (fun t => tableGet t.huf.nodes 0 == some ⟨none, none, 3⟩ && t.huf.nodeCount == 1
      && t.huf.stack == [⟨0, .leftChild false⟩] && t.cur.bitsAvailable == 7) = true := by decide
/-- R185: the example's second record completes a root with one child. -/
theorem test_hufNode_invalid :
    after (run 2 hufStart) (fun t => t.status == ⟨false, true, .invalidTree, .invalidTree⟩ && t.consumed == 3
      && tableGet t.huf.nodes 0 == some ⟨some 1, none, 3⟩ && tableGet t.huf.nodes 1 == some ⟨none, none, 7⟩) = true := by
  decide

/-- `DEC_HUF` at its samples, over the tree of the example of R187. -/
def hufMid : State :=
  { running .hufSample .msb [0x80] 4 with
    huf := { State.reset.huf with
      nodeCount := 3, nodes := [(0, ⟨some 1, some 2, 0⟩), (1, ⟨none, none, 127⟩), (2, ⟨none, none, 0⟩)] } }

/-- R187: the bits `1 0` give 128. -/
theorem test_hufSample : after (step hufMid)
    (fun t => t.outSpace == [(0, 128)] && t.huf.runningValue == 128 && t.huf.curNode == 1 && t.huf.signBit) = true := by
  decide
/-- R14: sign 1 with magnitude 0 subtracts one. -/
theorem test_hufSample_minus_one : after (exec (.hufSample true [true]) hufMid)
    (fun t => t.huf.runningValue == 0xFF) = true := by decide

/-- R211: header 0 is read as 1; the clamp and the region of S3. -/
theorem test_sddHdr : after (step (running .sddHdr .byte [0x00, 0x80, 0x03] 2))
    (fun t => t.sdd.maxRunLength == 1 && t.sdd.runCounter == 1 && t.sdd.regionStart == 1 && t.sdd.effSize == 2
      && t.sdd.bitWidth == 8 && t.cur.mode == .lsb) = true := by decide
/-- R211: header `0xFF` is 255. -/
theorem test_sddHdr_max : after (exec (.sddHdr 0xFF) (running .sddHdr .byte [] 2))
    (fun t => t.sdd.maxRunLength == 255 && t.sdd.effSize == 0) = true := by decide
/-- S3, the initial value. -/
theorem test_sddInit : after (exec (.sddInit 0x80)
      { running .sddInit .lsb [0x80] 2 with sdd := { State.reset.sdd with effSize := 2 } })
    (fun t => t.sdd.accumulator == 128 && t.outSpace == [(0, 128)]) = true := by decide

/-- `DEC_SDD` in its loop, with `maxRunLength` 1 and the word `0x03` ahead (S3). -/
def sddMid : State :=
  { running .sddWord .lsb [0x01, 0x80, 0x03] 2 with
    cur := initCursor 2 .lsb
    outLen := 1
    outSpace := [(0, 128)]
    sdd := { accumulator := 128, bitWidth := 8, runCounter := 1, maxRunLength := 1, regionStart := 1, effSize := 2 } }

/-- S3: the word `0x03` gives 127 and width 7. -/
theorem test_sddDelta : after (step sddMid)
    (fun t => t.outSpace == [(0, 128), (1, 127)] && t.sdd.bitWidth == 7 && t.sdd.runCounter == 1) = true := by decide
/-- R218: the word `0x82` adds `0x41` and holds the width. -/
theorem test_sddHold : after (exec (.sddHold 0x82) sddMid)
    (fun t => t.sdd.accumulator == 0xC1 && t.sdd.bitWidth == 8 && t.sdd.runCounter == 1) = true := by decide
/-- R216: an escape widens, and emits nothing. -/
theorem test_sddEsc : after (exec .sddEsc sddMid)
    (fun t => t.sdd.bitWidth == 9 && t.outLen == 1) = true := by decide
/-- R216: at width 9 it leaves the width. -/
theorem test_sddEsc_cap : after (exec .sddEsc { sddMid with sdd := { sddMid.sdd with bitWidth := 9 } })
    (fun t => t.sdd.bitWidth == 9 && t.phase == .sddWord) = true := by decide

/-- `DEC_NDU` in scan state, before the escape sequence of R244. -/
def nduScanning : State := running .nduScan .byte [0xFE, 0x10, 0x00, 0x02, 0x37] 9

/-- R243: the example. -/
theorem test_nduLit : after (exec (.nduLit 5) nduScanning)
    (fun t => t.outSpace == [(0, 5)] && t.ndu.accumulator == 5) = true := by decide
/-- R244: the example, by a step. -/
theorem test_nduEsc : after (step nduScanning)
    (fun t => t.outSpace == [(0, 0x10)] && t.ndu.accumulator == 0x10 && t.ndu.count == 2 && t.phase == .nduRun) = true := by
  decide
/-- V-NDU-5: a seed that fills the output stops with `FULL`, the count bytes unread. -/
theorem test_nduEsc_seedFills : after (step (running .nduScan .byte [0xFE, 0x33, 0x00, 0x05, 0x12] 1))
    (fun t => t.outSpace == [(0, 0x33)] && t.status == ⟨false, true, .success, .full⟩ && t.consumed == 2) = true := by
  decide
/-- R245: the example, the byte `0x37` after it. -/
theorem test_nduPair : after (run 2 nduScanning)
    (fun t => t.outSpace == [(0, 0x10), (1, 0x13), (2, 0x1A)] && t.ndu.count == 0 && t.phase == .nduScan) = true := by
  decide

/-! ## The host's words -/

/-- A command word placed at reset is the next step's instruction. -/
theorem test_withFetchWord_command : after (step (State.reset.withFetchWord 32 1))
    (fun t => t.status.busy && t.phase == .hufNode) = true := by decide
/-- An LZW code placed at reset is the next step's instruction. -/
theorem test_withFetchWord_code : after (step (State.reset.withFetchWord 16 0x41))
    (fun t => t.outSpace == [(0, 0x41)] && t.lzw.prevCode == 0x41) = true := by decide

/-! ## Witnesses: the invariant -/

/-- `BufferOk` by its mode. -/
theorem bufferOk_of {c : Cursor}
    (h : (c.mode = .lsb ∧ c.bitsAvailable.toNat ≤ 7 ∧ c.bitBuffer.toNat < 2 ^ c.bitsAvailable.toNat) ∨
      (c.mode = .msb ∧ c.bitsAvailable.toNat ≤ 8 ∧ c.bitBuffer.toNat < 256) ∨
      (c.mode = .byte ∧ c.bitsAvailable = 0 ∧ c.bitBuffer = 0)) : BufferOk c := by
  unfold BufferOk
  rcases h with ⟨hm, h⟩ | ⟨hm, h⟩ | ⟨hm, h⟩ <;> rw [hm] <;> exact h

/-- A cursor fresh in its mode, inside the input. -/
theorem cursorInv_fresh {s : State} {a : Word} {m : CursorMode} (hc : s.cur = initCursor a m)
    (hm : modeOf s.phase = some m) (ha : a.toNat ≤ s.par.inLen.toNat) : CursorInv s := by
  intro _
  rw [hc]
  refine ⟨hm, ?_, rfl, .inl ha⟩
  cases m <;> simp [BufferOk, initCursor]

theorem inv_lzwMid : Inv lzwMid := by
  refine ⟨⟨by decide, by decide, by decide, by decide⟩, ⟨by decide, by decide⟩,
    cursorInv_fresh rfl rfl (by decide), fun _ => by decide, fun _ => ?_, ⟨?_, ?_⟩, ⟨?_, ?_, ?_⟩, ⟨?_, ?_⟩⟩
  · refine ⟨by decide, by decide, by decide, by decide, by decide, by decide, ?_, fun _ => ⟨.inl (by decide), by decide⟩⟩
    intro i h1 h2
    have hi : i = 258 := by
      have : i < 259 := h2
      omega
    exact ⟨⟨0x41, 0x42⟩, by rw [hi]; rfl, .inl (by decide), by rw [hi]; decide⟩
  all_goals intro h; exact absurd h (by decide)

theorem inv_hufMid : Inv hufMid := by
  refine ⟨⟨by decide, by decide, by decide, by decide⟩, ⟨by decide, by decide⟩,
    cursorInv_fresh rfl rfl (by decide), fun _ => by decide, ?_, ⟨?_, fun _ => ?_⟩, ⟨?_, ?_, ?_⟩, ⟨?_, ?_⟩⟩
  · intro h; exact absurd h (by decide)
  · intro h; exact absurd h (by decide)
  · refine ⟨by decide, by decide, ?_, _, rfl, by decide, by decide⟩
    intro i hi
    have hi : i < 3 := hi
    interval_cases i
    · exact ⟨_, rfl, fun d c h => by cases d <;> cases h <;> decide⟩
    · exact ⟨_, rfl, fun d c h => by cases d <;> cases h⟩
    · exact ⟨_, rfl, fun d c h => by cases d <;> cases h⟩
  all_goals intro h; exact absurd h (by decide)

theorem inv_hufStart : Inv hufStart := by
  refine ⟨⟨by decide, by decide, by decide, by decide⟩, ⟨by decide, by decide⟩,
    cursorInv_fresh rfl rfl (by decide), fun _ => by decide, ?_,
    ⟨fun _ => ⟨by decide, fun i hi => absurd hi (Nat.not_lt_zero i),
        ⟨.nil, fun f hf => absurd hf (List.not_mem_nil)⟩, by decide⟩, ?_⟩,
    ⟨?_, ?_, ?_⟩, ⟨?_, ?_⟩⟩
  all_goals intro h; exact absurd h (by decide)

theorem inv_sddMid : Inv sddMid := by
  refine ⟨⟨by decide, by decide, by decide, by decide⟩, ⟨by decide, by decide⟩,
    cursorInv_fresh rfl rfl (by decide), fun _ => by decide, ?_, ⟨?_, ?_⟩, ⟨?_, fun _ => by decide, fun _ => by decide⟩, ⟨?_, ?_⟩⟩
  all_goals intro h; exact absurd h (by decide)

theorem inv_nduScanning : Inv nduScanning := by
  refine ⟨⟨by decide, by decide, by decide, by decide⟩, ⟨by decide, by decide⟩,
    cursorInv_fresh rfl rfl (by decide), fun _ => by decide, ?_, ⟨?_, ?_⟩, ⟨?_, ?_, ?_⟩, ⟨fun _ => by decide, ?_⟩⟩
  all_goals intro h; exact absurd h (by decide)

/-- `DEC_NDU` in a run of 5 samples with the byte `0x37` ahead. -/
def nduMid : State :=
  { running .nduRun .byte [0x37] 9 with
    outLen := 1, outSpace := [(0, 0x10)], ndu := { accumulator := 0x10, count := 5 } }

theorem inv_nduMid : Inv nduMid := by
  refine ⟨⟨by decide, by decide, by decide, by decide⟩, ⟨by decide, by decide⟩,
    cursorInv_fresh rfl rfl (by decide), fun _ => by decide, ?_, ⟨?_, ?_⟩, ⟨?_, ?_, ?_⟩, ⟨?_, fun _ => by decide⟩⟩
  all_goals intro h; exact absurd h (by decide)

/-! ## Witnesses: states that meet the hypotheses of each statement, for each of its clauses -/

theorem witness_ResetInputResetsTheBlock : ∃ rest, { lzwMid with host := [.assertReset] }.host = .assertReset :: rest :=
  ⟨[], rfl⟩
/-- An idle block with bytes in both spaces, and bytes to place. -/
theorem witness_ParameterWriteWhileIdle :
    let s := { idleWith [1, 2] 4 0 with outSpace := [(0, 7)] }
    s.status.busy = false ∧ s.outSpace.wf = true ∧ s.inSpace.wf = true ∧ [(3 : Byte), 0].length ≤ 2 ^ 32 := by decide
theorem witness_WritesWhileBusyAreIgnored :
    lzwMid.status.busy = true ∧ (0 : BitVec 3).toNat ≤ 4 ∧ (4 : BitVec 3).toNat ≤ 4 ∧ lzwMid.outSpace.wf = true := by
  decide
/-- The last open byte, and the byte after it. -/
theorem witness_RegisterReadWhileIdle :
    let s := { idleWith [1] 2 3 with outOpen := [(0, 2)] }
    s.status.busy = false ∧ isOpen s.outOpen (2 : Word).toNat = false ∧ isOpen s.outOpen (1 : Word).toNat = true := by
  decide
/-- A command with room for 9 bytes: byte 8 is the last that a reset opens. -/
theorem witness_StatusReadWhileBusy : nduMid.status.busy = true ∧ 8 < nduMid.par.reqSize.toNat := by decide
theorem witness_StepRunsTheFetchedInstruction : ∃ i t, fetch lzwMid = .run i t := ⟨_, _, rfl⟩
theorem witness_DecodeInvertsEncode :
    encode (.lzw 9 259) (.lzwRef 258) = some ([0, 1, 0, 0, 0, 0, 0, 0, 1].map bit) := by decide
theorem witness_EncodeInvertsDecode :
    decode (.lzw 13 8192) ([1, 1, 1, 1, 1, 1, 1, 1, 1, 1, 1, 1, 1, 0].map bit) = .ok (.lzwRef 8191) [false] ∧
    decode (.sddWord 1) [true] = .ok (.sddHold 1) [] ∧
    decode (.sddWord 9) ([0, 0, 0, 0, 0, 0, 0, 0, 0].map bit) = .ok .sddEsc [] := by decide
/-- Each class at a boundary of its condition. -/
theorem witness_LzwClassesByCondition :
    classifyLzw 257 257 = .lzwEnd ∧ classifyLzw 257 258 = .lzwCorrupt 258 ∧ classifyLzw 8192 256 = .lzwReset ∧
    classifyLzw 257 255 = .lzwLit 255 ∧ classifyLzw 257 0 = .lzwLit 0 ∧ classifyLzw 259 258 = .lzwRef 258 ∧
    classifyLzw 8192 8191 = .lzwRef 8191 ∧ classifyLzw 258 258 = .lzwKwkwk 258 ∧
    classifyLzw 8191 8191 = .lzwKwkwk 8191 := by decide

/-- One state for each format but the two that `SDD.HDR` and `SDD.INIT` start from. -/
theorem witness_StepReadsTheDecodedSymbol :
    (Inv lzwMid ∧ lzwMid.host = [] ∧ readsNext lzwMid ∧ expects lzwMid = some (.lzw 9 259) ∧
      ∃ rest, decode (.lzw 9 259) (aheadOf lzwMid) = .ok (.lzwRef 258) rest) ∧
    (Inv hufStart ∧ hufStart.host = [] ∧ readsNext hufStart ∧ expects hufStart = some .hufNode ∧
      ∃ rest, decode .hufNode (aheadOf hufStart) = .ok (.hufNode 3 true false) rest) ∧
    (Inv hufMid ∧ hufMid.host = [] ∧ readsNext hufMid ∧
      expects hufMid = some (.hufSample hufMid.huf.nodes 3) ∧
      ∃ rest, decode (.hufSample hufMid.huf.nodes 3) (aheadOf hufMid) = .ok (.hufSample true [false]) rest) ∧
    (Inv sddMid ∧ sddMid.host = [] ∧ readsNext sddMid ∧ expects sddMid = some (.sddWord 8) ∧
      ∃ rest, decode (.sddWord 8) (aheadOf sddMid) = .ok (.sddDelta 3) rest) ∧
    (Inv nduScanning ∧ nduScanning.host = [] ∧ readsNext nduScanning ∧ expects nduScanning = some (.nduScan 0xFE) ∧
      (∃ rest, decode (.nduScan 0xFE) (aheadOf nduScanning) = .ok (.nduEsc 0x10 2) rest) ∧
      nduScanning.outLen.toNat + 1 < nduScanning.par.reqSize.toNat) ∧
    (Inv nduMid ∧ nduMid.host = [] ∧ readsNext nduMid ∧ expects nduMid = some .nduRun ∧
      ∃ rest, decode .nduRun (aheadOf nduMid) = .ok (.nduPair 3 7) rest) :=
  ⟨⟨inv_lzwMid, rfl, by show (_ : Nat) < _; decide, rfl, _, rfl⟩,
   ⟨inv_hufStart, rfl, by show (_ : Nat) < _; decide, rfl, _, rfl⟩,
   ⟨inv_hufMid, rfl, by show (_ : Nat) < _; decide, rfl, _, rfl⟩,
   ⟨inv_sddMid, rfl, by show (_ : Nat) < _; decide, rfl, _, rfl⟩,
   ⟨inv_nduScanning, rfl, by show (_ : Nat) < _; decide, rfl, ⟨_, rfl⟩, by decide⟩,
   ⟨inv_nduMid, rfl, trivial, rfl, _, rfl⟩⟩

/-- `DEC_NDU` in scan state at `nduScanning`'s escape byte, its input and output cut to a length. -/
def nduCut (inLen reqSize : Word) : State :=
  { nduScanning with par := { nduScanning.par with inLen := inLen, reqSize := reqSize } }

theorem inv_nduCut (inLen reqSize : Word) : Inv (nduCut inLen reqSize) := by
  refine ⟨inv_nduScanning.1, inv_nduScanning.2.1, cursorInv_fresh rfl rfl (Nat.zero_le _), fun _ => Nat.zero_le _, ?_,
    ⟨?_, ?_⟩, ⟨?_, ?_, ?_⟩, ⟨fun _ => rfl, ?_⟩⟩
  all_goals intro h; simp [nduCut, nduScanning, running] at h

/-- The general clause in the build: one byte of a 9-bit record. -/
theorem witness_CutSymbolExhausts_node :
    let s := { hufStart with par := { hufStart.par with inLen := 1 } }
    Inv s ∧ s.host = [] ∧ readsNext s ∧ decode .hufNode (aheadOf s) = .reject .truncated ∧
      expects s = some .hufNode ∧ s.phase = .hufNode := by
  refine ⟨?_, rfl, by show (_ : Nat) < _; decide, rfl, rfl, rfl⟩
  obtain ⟨h1, h2, _, h4, h5, h6, h7, h8⟩ := inv_hufStart
  exact ⟨h1, h2, cursorInv_fresh rfl rfl (by decide), h4, h5, h6, h7, h8⟩

/-- The general clause: one byte of a 9-bit code; scan state with room for one byte, its input over or at an end after
the escape byte. -/
theorem witness_CutSymbolExhausts :
    (let s := { lzwMid with par := { lzwMid.par with inLen := 1 } }
     Inv s ∧ s.host = [] ∧ readsNext s ∧ decode (.lzw 9 259) (aheadOf s) = .reject .truncated ∧
       expects s = some (.lzw 9 259) ∧ s.phase ≠ .nduScan) ∧
    (∀ n ∈ [(0 : Word), 1], let s := nduCut n 1
     Inv s ∧ s.host = [] ∧ readsNext s ∧ decode (.nduScan 0xFE) (aheadOf s) = .reject .truncated ∧
       expects s = some (.nduScan 0xFE) ∧ s.par.inLen.toNat ≤ s.cur.bytePos.toNat + 1) := by
  refine ⟨⟨?_, rfl, by show (_ : Nat) < _; decide, rfl, rfl, by decide⟩, fun n hn => ⟨inv_nduCut n 1, rfl, ?_, ?_, rfl, ?_⟩⟩
  · obtain ⟨h1, h2, _, h4, h5, h6, h7, h8⟩ := inv_lzwMid
    exact ⟨h1, h2, cursorInv_fresh rfl rfl (by decide), h4, h5, h6, h7, h8⟩
  · show (0 : Nat) < 1; decide
  all_goals simp only [List.mem_cons, List.not_mem_nil, or_false] at hn; rcases hn with rfl | rfl <;> decide

/-- The clauses of a seed that is there: both ends of the inputs that lack a count byte, with room for one byte more; and
room for the seed alone, with no count byte and with both. -/
theorem witness_CutSymbolExhausts_seed :
    (∀ n ∈ [(2 : Word), 3], let s := nduCut n 2
     s.host = [] ∧ expects s = some (.nduScan 0xFE) ∧ s.phase = .nduScan ∧
       memRead s.inSpace s.cur.bytePos.toNat = s.par.escape ∧ s.cur.bytePos.toNat + 2 ≤ s.par.inLen.toNat ∧
       s.par.inLen.toNat < s.cur.bytePos.toNat + 4 ∧ s.outLen.toNat + 1 < s.par.reqSize.toNat) ∧
    (∀ n ∈ [(2 : Word), 4], let s := nduCut n 1
     s.host = [] ∧ expects s = some (.nduScan 0xFE) ∧ s.phase = .nduScan ∧
       memRead s.inSpace s.cur.bytePos.toNat = s.par.escape ∧ s.cur.bytePos.toNat + 2 ≤ s.par.inLen.toNat ∧
       s.outLen.toNat + 1 = s.par.reqSize.toNat) := by
  constructor <;> intro n hn <;> simp only [List.mem_cons, List.not_mem_nil, or_false] at hn <;>
    rcases hn with rfl | rfl <;> decide

/-- Separate memories with the room exactly used; one memory with the two ranges adjacent. -/
theorem witness_CommandsIssueWhileIdle :
    MayLaunch { idleWith [1, 2] 4 0 with ports := { Ports.separate with outRoom := 4 } } ∧
    MayLaunch { idleWith [1, 2] 4 0 with ports := { oneMemory := true, inBase := 8, outBase := 10, outRoom := 4 } } := by
  unfold MayLaunch; decide

/-- Each clause at its boundary: `IN_LEN = 2^32 - 3`; ranges that share one byte; room one byte short, behind a memory of
its own and in one memory, where the two ranges are adjacent. -/
theorem witness_BadLaunchIsRefused :
    (let s := { State.reset with par := { State.reset.par with inLen := 0xFFFFFFFD } }
     s.status.busy = false ∧ 2 ^ 32 - 4 < s.par.inLen.toNat) ∧
    (let s := { idleWith [1, 2] 4 0 with ports := { oneMemory := true, inBase := 8, outBase := 9, outRoom := 4 } }
     s.status.busy = false ∧ s.par.inLen.toNat ≤ 2 ^ 32 - 4 ∧ s.ports.oneMemory = true ∧ 0 < s.par.inLen.toNat ∧
       0 < s.par.reqSize.toNat ∧ s.ports.inBase < s.ports.outBase + s.par.reqSize.toNat ∧
       s.ports.outBase < s.ports.inBase + s.par.inLen.toNat) ∧
    (let s := { idleWith [1, 2] 4 0 with ports := { Ports.separate with outRoom := 3 } }
     s.status.busy = false ∧ s.par.inLen.toNat ≤ 2 ^ 32 - 4 ∧ s.ports.oneMemory = false ∧
       s.ports.outRoom < s.par.reqSize.toNat) ∧
    (let s := { idleWith [1, 2] 4 0 with ports := { oneMemory := true, inBase := 8, outBase := 10, outRoom := 3 } }
     s.status.busy = false ∧ s.par.inLen.toNat ≤ 2 ^ 32 - 4 ∧ s.ports.oneMemory = true ∧
       s.ports.inBase + s.par.inLen.toNat ≤ s.ports.outBase ∧ s.ports.outRoom < s.par.reqSize.toNat) := by decide

theorem witness_StopRecordsTheResult :
    [lzwMid, hufStart, hufMid, running .sddHdr .byte [] 1, running .sddInit .lsb [] 1, sddMid, nduScanning, nduMid].map
      (fun s => s.phase) = [.lzwCode, .hufNode, .hufSample, .sddHdr, .sddInit, .sddWord, .nduScan, .nduRun] := rfl

theorem witness_FullIsTestedBeforeAnyRead :
    (∀ s ∈ [running .lzwCode .lsb [1] 0, running .hufSample .msb [1] 0, running .nduScan .byte [1] 0],
      s.host = [] ∧ (s.phase = .lzwCode ∨ s.phase = .hufSample ∨ s.phase = .nduScan) ∧ s.outLen = s.par.reqSize) ∧
    (let s := { sddMid with outLen := 2 }
     s.host = [] ∧ s.phase = .sddWord ∧ s.sdd.effSize = s.par.reqSize ∧ s.outLen = s.par.reqSize) ∧
    (let s := { running .sddInit .lsb [1] 0 with
                cur := initCursor 1 .lsb, sdd := { State.reset.sdd with regionStart := 1 } }
     s.host = [] ∧ s.phase = .sddInit ∧ s.sdd.effSize = s.par.reqSize ∧ s.par.reqSize = 0 ∧ s.outLen = s.par.reqSize ∧
       s.cur.bytePos = s.sdd.regionStart) := by decide

/-- The last byte of the input. -/
theorem witness_FetchbReadsTheByteAtTheCursor :
    (running .nduScan .byte [0x41] 1).cur.mode = .byte ∧
    (running .nduScan .byte [0x41] 1).cur.bytePos.toNat < (running .nduScan .byte [0x41] 1).par.inLen.toNat := by decide

/-- Each clause with its least count of bits that are not there. -/
theorem witness_MicroOperationsExhaust :
    (let s := running .nduScan .byte [] 1
     BufferOk s.cur ∧ s.phase ≠ .idle ∧ s.cur.mode = .byte ∧ s.par.inLen.toNat ≤ s.cur.bytePos.toNat) ∧
    (let s := running .hufNode .msb [] 1
     BufferOk s.cur ∧ s.phase ≠ .idle ∧ s.cur.mode = .msb ∧ aheadOf s = [] ∧ takeBits 1 (aheadOf s) = none) ∧
    (let s := running .lzwCode .lsb [0x41] 1
     BufferOk s.cur ∧ s.phase ≠ .idle ∧ s.cur.mode = .lsb ∧ takeBits 9 (aheadOf s) = none ∧
       takeBits 13 (aheadOf s) = none) ∧
    (let s := { running .hufNode .msb [0x80] 1 with
                cur := { initCursor 1 .msb with bitBuffer := 0x80, bitsAvailable := 6 } }
     BufferOk s.cur ∧ s.phase ≠ .idle ∧ s.cur.mode = .msb ∧ takeBits 7 (aheadOf s) = none) :=
  ⟨⟨bufferOk_of (by decide), by decide⟩, ⟨bufferOk_of (by decide), by decide⟩, ⟨bufferOk_of (by decide), by decide⟩,
    bufferOk_of (by decide), by decide⟩

/-- The widest read of each kind, and bits already held. -/
theorem witness_RdbitsLDeliversTheNextField :
    let s := { running .lzwCode .lsb [0x41, 0x84, 0x04] 1 with
               cur := { initCursor 2 .lsb with bitBuffer := 0x42, bitsAvailable := 7 } }
    s.cur.mode = .lsb ∧ BufferOk s.cur ∧
      takeBits 13 (aheadOf s) = some ([0, 1, 0, 0, 0, 0, 1, 0, 0, 1, 0, 0, 0].map bit, [0, 0].map bit) :=
  ⟨rfl, bufferOk_of (by decide), by decide⟩
theorem witness_RdbitMDeliversTheNextBit :
    let s := running .hufNode .msb [0x80] 1
    s.cur.mode = .msb ∧ BufferOk s.cur ∧ aheadOf s = true :: List.replicate 7 false :=
  ⟨rfl, bufferOk_of (by decide), by decide⟩
theorem witness_RdbitsMDeliversTheNextField :
    let s := running .hufNode .msb [0xFE] 1
    s.cur.mode = .msb ∧ BufferOk s.cur ∧ takeBits 7 (aheadOf s) = some (List.replicate 7 true, [false]) :=
  ⟨rfl, bufferOk_of (by decide), by decide⟩
theorem witness_MicroOperationsKeepToTheirModes :
    lzwMid.cur.mode ≠ .byte ∧ lzwMid.cur.mode ≠ .msb ∧ hufMid.cur.mode ≠ .lsb ∧ nduMid.cur.mode ≠ .lsb := by decide

theorem witness_LzwLiteralRuns : lzwMid.phase = .lzwCode ∧ lzwMid.outSpace.wf = true := by decide
/-- The built entry 258 and the previous code `0x42`. -/
theorem witness_LzwReferencesRun :
    lzwMid.phase = .lzwCode ∧ lzwMid.outSpace.wf = true ∧ Spells lzwMid.lzw.dict 258 [0x41, 0x42] ∧
      Spells lzwMid.lzw.dict lzwMid.lzw.prevCode [0x42] :=
  ⟨rfl, rfl, .built 258 ⟨0x41, 0x42⟩ [0x41] (by decide) rfl (.literal 0x41 (by decide)), .literal 0x42 (by decide)⟩
theorem witness_LzwStringsAreWellDefined :
    DictBuilt lzwMid.lzw.dict 259 ∧ NormalCode 258 ∧ (258 : Code).toNat < 259 ∧ NormalCode 255 :=
  ⟨(inv_lzwMid.2.2.2.2.1 rfl).2.2.2.2.2.2.1, .inr (by decide), by decide, .inl (by decide)⟩
theorem witness_LzwEndAndCorruptStop :
    lzwMid.phase = .lzwCode ∧ lzwMid.outLen.toNat < lzwMid.par.reqSize.toNat := by decide

theorem witness_HufNodeWithChildDescends :
    let s := { hufStart with huf := { hufStart.huf with nodeCount := 255 } }
    s.phase = .hufNode ∧ s.huf.nodeCount.toNat < 256 := by decide
theorem witness_NodeTableOverflowStops :
    let s := { hufStart with huf := { hufStart.huf with nodeCount := 256 } }
    s.phase = .hufNode ∧ s.huf.nodeCount.toNat = 256 ∧ s.host = [] := by decide
theorem witness_HufBuildsTheTree :
    hufStart.phase = .hufNode ∧ hufStart.huf.nodeCount = 0 ∧ hufStart.huf.stack = [] ∧
      (CodeTree.both 0 (.leaf 127) (.rightOnly 1 (.leaf 2))).size ≤ 256 := by decide
theorem witness_OneSidedRootIsInvalid :
    hufStart.phase = .hufNode ∧ hufStart.huf.nodeCount = 0 ∧ hufStart.huf.stack = [] ∧ hufStart.outLen = 0 ∧
      (CodeTree.leftOnly 3 (.leaf 7)).size ≤ 256 ∧ ∀ v l r, CodeTree.leftOnly 3 (.leaf 7) ≠ .both v l r :=
  ⟨rfl, rfl, rfl, rfl, by decide, fun _ _ _ h => CodeTree.noConfusion h⟩
theorem witness_HufSampleAddsTheLeaf :
    hufMid.phase = .hufSample ∧ hufMid.outLen.toNat < hufMid.par.reqSize.toNat ∧ hufMid.outSpace.wf = true ∧
      Visits hufMid.huf.nodes hufMid.huf.nodeCount.toNat 0 [false] 1 ∧
      tableGet hufMid.huf.nodes 1 = some ⟨none, none, 127⟩ :=
  ⟨rfl, by decide, rfl, .down 0 1 1 _ false [] rfl rfl (by decide) (.here 1), rfl⟩
/-- An absent child below the root, and a link past the allocated slots. -/
theorem witness_AbsentChildStops :
    (let s := { hufMid with huf := { hufMid.huf with nodes :=
        [(0, ⟨some 1, some 2, 0⟩), (1, ⟨some 2, none, 5⟩), (2, ⟨none, none, 0⟩)] } }
     s.phase = .hufSample ∧ Visits s.huf.nodes s.huf.nodeCount.toNat 0 [false] 1 ∧
       tableGet s.huf.nodes 1 = some ⟨some 2, none, 5⟩ ∧
       ∀ j, (if true then (none : Option NodeIdx) else some 2) = some j → s.huf.nodeCount.toNat ≤ j.toNat) ∧
    (let s := { hufMid with huf := { hufMid.huf with nodeCount := 2 } }
     Visits s.huf.nodes s.huf.nodeCount.toNat 0 [] 0 ∧ tableGet s.huf.nodes 0 = some ⟨some 1, some 2, 0⟩ ∧
       ∀ j, (if true then some (2 : NodeIdx) else some 1) = some j → s.huf.nodeCount.toNat ≤ j.toNat) :=
  ⟨⟨rfl, .down 0 1 1 _ false [] rfl rfl (by decide) (.here 1), rfl, fun _ h => by cases h⟩,
   ⟨.here 0, rfl, fun _ h => by cases h; decide⟩⟩

theorem witness_SddHeaderEntersTheRegion : (running .sddHdr .byte [1] 2).phase = .sddHdr := rfl
/-- The least clamped size that reads, and 0. -/
theorem witness_SddInitIsTheFirstSample :
    (let s := { running .sddInit .lsb [0x80] 1 with sdd := { State.reset.sdd with effSize := 1 } }
     s.phase = .sddInit ∧ s.outSpace.wf = true ∧ 0 < s.sdd.effSize.toNat ∧ s.outLen.toNat < s.par.reqSize.toNat) ∧
    (let s := running .sddInit .lsb [] 1
     s.phase = .sddInit ∧ s.outSpace.wf = true ∧ s.sdd.effSize = 0) := by decide
/-- Both ends of the width. -/
theorem witness_SddEscapeWidens : ∀ w ∈ [(1 : BitVec 4), 9],
    let s := { sddMid with sdd := { sddMid.sdd with bitWidth := w } }
    s.phase = .sddWord ∧ 1 ≤ s.sdd.bitWidth.toNat ∧ s.sdd.bitWidth.toNat ≤ 9 := by decide
theorem witness_SddHoldKeepsTheWidth :
    sddMid.phase = .sddWord ∧ sddMid.outLen.toNat < sddMid.par.reqSize.toNat ∧ sddMid.outSpace.wf = true := by decide
/-- The run counter at 1 and above it, the width at both ends. -/
theorem witness_SddDeltaCountsDown : ∀ c ∈ [(1 : Byte), 2, 255], ∀ w ∈ [(1 : BitVec 4), 9],
    let s := { sddMid with sdd := { sddMid.sdd with runCounter := c, bitWidth := w } }
    s.phase = .sddWord ∧ s.outLen.toNat < s.par.reqSize.toNat ∧ s.outSpace.wf = true ∧ 1 ≤ s.sdd.runCounter.toNat ∧
      1 ≤ s.sdd.bitWidth.toNat ∧ s.sdd.bitWidth.toNat ≤ 9 := by decide
/-- In the loop, and before the initial value. -/
theorem witness_SddClampStops :
    (let s := { sddMid with sdd := { sddMid.sdd with effSize := 1 } }
     s.host = [] ∧ s.sdd.effSize ≠ s.par.reqSize ∧ s.phase = .sddWord ∧ s.sdd.effSize.toNat ≤ s.outLen.toNat) ∧
    (let s := running .sddInit .lsb [] 1
     s.host = [] ∧ s.sdd.effSize ≠ s.par.reqSize ∧ s.phase = .sddInit ∧ s.sdd.effSize = 0) := by decide

theorem witness_NduLiteralIsCopied :
    nduScanning.phase = .nduScan ∧ nduScanning.outLen.toNat < nduScanning.par.reqSize.toNat ∧
      nduScanning.outSpace.wf = true := by decide
/-- Room for two bytes, and for one. -/
theorem witness_NduEscapeStartsARun :
    (let s := running .nduScan .byte [] 2
     s.phase = .nduScan ∧ s.outSpace.wf = true ∧ s.outLen.toNat + 1 < s.par.reqSize.toNat) ∧
    (let s := running .nduScan .byte [] 1
     s.phase = .nduScan ∧ s.outSpace.wf = true ∧ s.outLen.toNat + 1 = s.par.reqSize.toNat) := by decide
/-- The least count, with room for one byte more than the pair's. -/
theorem witness_NduPairAddsTwoNibbles :
    let s := { running .nduRun .byte [] 3 with ndu := { accumulator := 0x10, count := 2 } }
    s.phase = .nduRun ∧ 2 ≤ s.ndu.count.toNat ∧ s.outLen.toNat + 2 < s.par.reqSize.toNat ∧ s.outSpace.wf = true := by decide
/-- One sample left with room; room for one sample; room for two. -/
theorem witness_NduRunEnds :
    (let s := { running .nduRun .byte [] 2 with ndu := { accumulator := 0x10, count := 1 } }
     s.phase = .nduRun ∧ s.outSpace.wf = true ∧ s.ndu.count.toNat = 1 ∧ s.outLen.toNat + 1 < s.par.reqSize.toNat) ∧
    (let s := { running .nduRun .byte [] 1 with ndu := { accumulator := 0x10, count := 1 } }
     s.phase = .nduRun ∧ s.outSpace.wf = true ∧ 1 ≤ s.ndu.count.toNat ∧ s.outLen.toNat + 1 = s.par.reqSize.toNat) ∧
    (let s := { running .nduRun .byte [] 2 with ndu := { accumulator := 0x10, count := 2 } }
     s.phase = .nduRun ∧ s.outSpace.wf = true ∧ 2 ≤ s.ndu.count.toNat ∧ s.outLen.toNat + 2 = s.par.reqSize.toNat) ∧
    (0x13 : Byte).toNat = ((0x10 : Byte).toNat + 3) % 256 ∧ (0x12 : Byte).toNat = ((0x13 : Byte).toNat + (15 + 240)) % 256 := by
  decide

theorem witness_StepKeepsStorage : StorageInv lzwMid ∧ ∃ t, step lzwMid = .next t := ⟨inv_lzwMid.1, _, rfl⟩
theorem witness_StepKeepsStatus : StatusInv lzwMid ∧ ∃ t, step lzwMid = .next t := ⟨inv_lzwMid.2.1, _, rfl⟩
theorem witness_StepKeepsCursor : StatusInv hufMid ∧ CursorInv hufMid ∧ ∃ t, step hufMid = .next t :=
  ⟨inv_hufMid.2.1, inv_hufMid.2.2.1, _, rfl⟩
theorem witness_StepKeepsOutputInBounds : StatusInv nduMid ∧ OutputInv nduMid ∧ ∃ t, step nduMid = .next t :=
  ⟨inv_nduMid.2.1, inv_nduMid.2.2.2.1, _, rfl⟩
theorem witness_StepKeepsLzw : StatusInv lzwMid ∧ LzwInv lzwMid ∧ ∃ t, step lzwMid = .next t :=
  ⟨inv_lzwMid.2.1, inv_lzwMid.2.2.2.2.1, _, rfl⟩
theorem witness_StepKeepsHuffman :
    (HufInv hufStart ∧ ∃ t, step hufStart = .next t) ∧ HufInv hufMid ∧ ∃ t, step hufMid = .next t :=
  ⟨⟨inv_hufStart.2.2.2.2.2.1, _, rfl⟩, inv_hufMid.2.2.2.2.2.1, _, rfl⟩
theorem witness_StepKeepsSigmaDelta : StatusInv sddMid ∧ SddInv sddMid ∧ ∃ t, step sddMid = .next t :=
  ⟨inv_sddMid.2.1, inv_sddMid.2.2.2.2.2.2.1, _, rfl⟩
theorem witness_StepKeepsNibbleDelta :
    (StatusInv nduScanning ∧ NduInv nduScanning ∧ ∃ t, step nduScanning = .next t) ∧
    (StatusInv nduMid ∧ NduInv nduMid ∧ ∃ t, step nduMid = .next t) :=
  ⟨⟨inv_nduScanning.2.1, inv_nduScanning.2.2.2.2.2.2.2, _, rfl⟩, inv_nduMid.2.1, inv_nduMid.2.2.2.2.2.2.2, _, rfl⟩
theorem witness_EngineNeverFaults : Inv lzwMid ∧ lzwMid.host = [] := ⟨inv_lzwMid, rfl⟩
theorem witness_EveryCommandStops : Inv hufStart ∧ hufStart.host = [] ∧ bitsLeft hufStart = 24 :=
  ⟨inv_hufStart, rfl, by decide⟩
/-- Another input that agrees below `IN_LEN` and differs at it. -/
theorem witness_NoReadPastTheInput :
    lzwMid.host = [] ∧ memRead (memWrite lzwMid.inSpace 2 0xFF) 2 ≠ memRead lzwMid.inSpace 2 ∧
      ∀ i, i < lzwMid.par.inLen.toNat → memRead (memWrite lzwMid.inSpace 2 0xFF) i = memRead lzwMid.inSpace i := by
  refine ⟨rfl, by decide, fun i hi => ?_⟩
  have hi : i < 2 := hi
  interval_cases i <;> decide
theorem witness_OutputIsWrittenOnce : Inv lzwMid ∧ lzwMid.host = [] ∧ ∃ t, step lzwMid = .next t :=
  ⟨inv_lzwMid, rfl, _, rfl⟩
theorem witness_UnitsAreIndependent : sddMid.host = [] ∧ sddMid.phase ≠ .lzwCode ∧ ∃ t, step sddMid = .next t :=
  ⟨rfl, by decide, _, rfl⟩
/-- Two idle blocks with the same arguments, one with the tables of an earlier command and a byte past the input. -/
theorem witness_ResultDependsOnArgumentsAlone :
    let s := idleWith [1, 2] 4 1
    let t := { idleWith [1, 2] 4 1 with
               inSpace := memWrite (idleWith [1, 2] 4 1).inSpace 2 9, lzw := lzwMid.lzw, huf := hufMid.huf,
               outSpace := [(0, 7)], consumed := 5 }
    Quiet s ∧ Quiet t ∧ MayLaunch s ∧ MayLaunch t ∧ SameArguments s t ∧ s.outSpace.wf = true ∧ t.outSpace.wf = true := by
  refine ⟨⟨rfl, rfl, rfl⟩, ⟨rfl, rfl, rfl⟩, ?_, ?_, ⟨rfl, fun i hi => ?_⟩, rfl, rfl⟩
  · unfold MayLaunch; decide
  · unfold MayLaunch; decide
  · have hi : i < 2 := hi
    interval_cases i <;> decide

end Sys2Proof.Tests
end

section
/-! What the engine touches: which symbol each phase reads, that reading it moves the cursor alone, and that neither the
read nor the symbol's rule changes a parameter, `IN`, the ports or another unit (R3, R29). -/

namespace Sys2Proof.Proofs

open Sys2Proof.Machine Sys2Proof.Laws

/-! ## The part of the state that is not the running command's -/

/-- What a command in some phase has no business with; a unit's entry is `none` where the phase is the unit's own. -/
structure Others where
  par : Params
  inSpace : Memory
  ports : Ports
  lzw : Option LzwUnit
  huf : Option HufUnit
  sdd : Option SddUnit
  ndu : Option NduUnit

/-- The parameters, `IN`, the ports and every unit but the one that phase `p` belongs to (R25 to R29). -/
def others (p : Phase) (s : State) : Others where
  par := s.par
  inSpace := s.inSpace
  ports := s.ports
  lzw := if p = .lzwCode then none else some s.lzw
  huf := if p = .hufNode ∨ p = .hufSample then none else some s.huf
  sdd := if p = .sddHdr ∨ p = .sddInit ∨ p = .sddWord then none else some s.sdd
  ndu := if p = .nduScan ∨ p = .nduRun then none else some s.ndu

theorem others_eq_iff {p : Phase} {s t : State} :
    others p t = others p s ↔
      t.par = s.par ∧ t.inSpace = s.inSpace ∧ t.ports = s.ports ∧
      (p ≠ .lzwCode → t.lzw = s.lzw) ∧
      (p ≠ .hufNode → p ≠ .hufSample → t.huf = s.huf) ∧
      (p ≠ .sddHdr → p ≠ .sddInit → p ≠ .sddWord → t.sdd = s.sdd) ∧
      (p ≠ .nduScan → p ≠ .nduRun → t.ndu = s.ndu) := by
  cases p <;> simp [others]

@[simp] theorem others_stopped (p : Phase) (cause : StopCause) (s : State) :
    others p (stopped cause s) = others p s := rfl

@[simp] theorem others_appendByte (p : Phase) (v : Byte) (s : State) : others p (appendByte v s) = others p s := rfl

@[simp] theorem others_emit (p : Phase) (str : List Byte) (s : State) : others p (emit str s) = others p s := by
  rw [emit_frame]
  rfl

/-! ## Outcomes that keep it -/

/-- If the outcome is a next state, that state agrees with `s` on all that is not phase `p`'s own. -/
def Keeps (p : Phase) (s : State) (o : Host.Outcome State Fault Refusal) : Prop :=
  ∀ t, o = .next t → others p t = others p s

theorem keeps_next {p : Phase} {s t : State} (h : others p t = others p s) : Keeps p s (.next t) := by
  rintro _ ⟨⟩
  exact h

theorem keeps_fault (p : Phase) (s : State) (f : Fault) : Keeps p s (.fault f) := by
  rintro _ ⟨⟩

theorem keeps_refused (p : Phase) (s : State) (r : Refusal) : Keeps p s (.refused r) := by
  rintro _ ⟨⟩

theorem raiseStop_keeps {p : Phase} {s u : State} (cause : StopCause) (h : others p u = others p s) :
    Keeps p s (raiseStop cause u) := by
  intro t ht
  obtain ⟨_, rfl⟩ := raiseStop_next ht
  simpa using h

theorem inPhase_keeps {p : Phase} {s : State} {k : Host.Outcome State Fault Refusal} (h : Keeps p s k) :
    Keeps s.phase s (inPhase p s k) := by
  intro t ht
  obtain ⟨hp, hk⟩ := inPhase_next ht
  exact hp ▸ h t hk

theorem appendThen_keeps {p : Phase} {s u : State} {v : Byte} {k : State → Host.Outcome State Fault Refusal}
    (h : Keeps p s (k (appendByte v u))) : Keeps p s (appendThen v u k) :=
  fun t ht => h t (appendThen_next ht).2

theorem unlessFull_keeps {p : Phase} {s u : State} {k : State → Host.Outcome State Fault Refusal}
    (hu : others p u = others p s) (h : Keeps p s (k u)) : Keeps p s (unlessFull u k) := by
  rcases unlessFull_cases u k with ⟨_, he⟩ | ⟨_, he⟩
  · exact he ▸ raiseStop_keeps .full hu
  · exact he ▸ h

/-! ## The symbols' rules -/

theorem normalCode_keeps (code start : Code) (again : Bool) (s : State) :
    Keeps s.phase s (normalCode code start again s) := by
  refine inPhase_keeps ?_
  cases stringOf s.lzw.dict start with
  | error f => exact keeps_fault _ _ f
  | ok str => exact keeps_next (others_emit .lzwCode _ s)

theorem checkRoot_keeps {s u : State} (h : others .hufNode u = others .hufNode s) :
    Keeps .hufNode s (checkRoot u) := by
  intro t ht
  obtain ⟨_, _, ⟨_, _, rfl⟩ | ⟨_, _, rfl⟩⟩ := checkRoot_next ht
  · simpa using h
  · exact h

theorem execHufNode_keeps (v : BitVec 7) (l r : Bool) (s : State) :
    Keeps s.phase s (execHufNode v l r s) := by
  refine inPhase_keeps ?_
  by_cases hcap : Config.hufNodeCap ≤ s.huf.nodeCount.toNat
  · rw [if_pos hcap]
    exact raiseStop_keeps _ rfl
  · rw [if_neg hcap]
    cases l with
    | true => exact keeps_next rfl
    | false =>
      cases r with
      | true => exact keeps_next rfl
      | false =>
        dsimp only
        rcases returnBuild (s.huf.nodeCount.setWidth 8) (allocNode v s.huf).nodes (allocNode v s.huf).stack
          with ⟨nodes, _ | stack⟩
        · exact checkRoot_keeps rfl
        · exact keeps_next rfl

theorem execHufSample_keeps (sign : Bool) (path : List Bool) (s : State) :
    Keeps s.phase s (execHufSample sign path s) := by
  refine inPhase_keeps ?_
  cases walk s.huf.nodes s.huf.nodeCount.toNat Config.hufNodeCap 0 path with
  | leaf node value => exact appendThen_keeps (keeps_next rfl)
  | outside => exact raiseStop_keeps _ rfl
  | mismatch => exact keeps_refused _ _ _
  | broken f => exact keeps_fault _ _ f

theorem execSddInit_keeps (a : Byte) (s : State) : Keeps s.phase s (execSddInit a s) := by
  refine inPhase_keeps ?_
  split
  · exact keeps_next rfl
  · exact appendThen_keeps (keeps_next rfl)

theorem nduSeed_keeps {s u : State} {seed : Byte} {k : State → Host.Outcome State Fault Refusal}
    (hu : others .nduScan u = others .nduScan s)
    (hk : ∀ t, others .nduScan t = others .nduScan s → Keeps .nduScan s (k t)) :
    Keeps .nduScan s (nduSeed seed u k) :=
  appendThen_keeps (unlessFull_keeps hu (hk _ hu))

theorem nduDelta_keeps {s u : State} {n : Nibble} {k : State → Host.Outcome State Fault Refusal}
    (hu : others .nduRun u = others .nduRun s)
    (hk : ∀ t, others .nduRun t = others .nduRun s → Keeps .nduRun s (k t)) :
    Keeps .nduRun s (nduDelta n u k) :=
  appendThen_keeps (unlessFull_keeps hu (hk _ hu))

theorem execNduPair_keeps (h l : Nibble) (s : State) : Keeps s.phase s (execNduPair h l s) := by
  refine inPhase_keeps (nduDelta_keeps rfl fun t ht => ?_)
  split
  · exact keeps_next ht
  · exact nduDelta_keeps ht fun u hu => keeps_next hu

/-- The phase whose loop reads a stream symbol; a command or a micro-operation is no symbol (R2, R29). -/
def symbolPhase : Instr → Option Phase
  | .lzwEnd | .lzwCorrupt _ | .lzwReset | .lzwLit _ | .lzwRef _ | .lzwKwkwk _ => some .lzwCode
  | .hufNode _ _ _ => some .hufNode
  | .hufSample _ _ => some .hufSample
  | .sddHdr _ => some .sddHdr
  | .sddInit _ => some .sddInit
  | .sddEsc | .sddHold _ | .sddDelta _ => some .sddWord
  | .nduLit _ | .nduEsc _ _ => some .nduScan
  | .nduPair _ _ => some .nduRun
  | .decLzw | .decHuf | .decSdd | .decNdu => none
  | .cursorInit _ _ | .fetchb | .rdbitsL _ | .rdbitM | .rdbitsM _ => none

/-- A stream symbol touches its own unit, the output and the control state alone. -/
theorem exec_keeps {i : Instr} {s : State} (hi : symbolPhase i = some s.phase) : Keeps s.phase s (exec i s) := by
  cases i with
  | decLzw | decHuf | decSdd | decNdu => cases hi
  | cursorInit | fetchb | rdbitsL | rdbitM | rdbitsM => cases hi
  | lzwEnd => exact inPhase_keeps (raiseStop_keeps _ rfl)
  | lzwCorrupt c => exact inPhase_keeps (raiseStop_keeps _ rfl)
  | lzwReset => exact inPhase_keeps (keeps_next rfl)
  | lzwLit b => exact normalCode_keeps _ _ _ s
  | lzwRef c => exact normalCode_keeps _ _ _ s
  | lzwKwkwk c => exact normalCode_keeps _ _ _ s
  | hufNode v l r => exact execHufNode_keeps v l r s
  | hufSample sign path => exact execHufSample_keeps sign path s
  | sddHdr m => exact inPhase_keeps (keeps_next rfl)
  | sddInit a => exact execSddInit_keeps a s
  | sddEsc => exact inPhase_keeps (keeps_next rfl)
  | sddHold v => exact inPhase_keeps (appendThen_keeps (keeps_next rfl))
  | sddDelta v => exact inPhase_keeps (appendThen_keeps (keeps_next rfl))
  | nduLit b => exact inPhase_keeps (appendThen_keeps (keeps_next rfl))
  | nduEsc seed count => exact inPhase_keeps (nduSeed_keeps rfl fun _ ht => keeps_next ht)
  | nduPair h l => exact execNduPair_keeps h l s

/-! ## The symbols' reads -/

/-- What the loop of phase `p` may find in `s`: one of its own symbols, with the cursor moved and nothing else; or a step
that is whole and keeps all that is not the phase's own. -/
def Fetches (p : Phase) (s : State) : Fetched → Prop
  | .run i t => symbolPhase i = some p ∧ ∃ c, t = { s with cur := c }
  | .acted o => Keeps p s o

theorem Fetches.of_cursor {p : Phase} {s : State} {c : Cursor} {f : Fetched} (h : Fetches p { s with cur := c } f) :
    Fetches p s f := by
  cases f with
  | run i t => exact h
  | acted o => exact h

theorem fetches_run {p : Phase} {i : Instr} (s : State) (h : symbolPhase i = some p) : Fetches p s (.run i s) :=
  ⟨h, s.cur, rfl⟩

theorem reading_fetches {α : Type} {p : Phase} {s : State} {d : Delivery α} {cut : State → State}
    {k : α → State → Fetched} (hcut : ∀ t, others p (cut t) = others p t) (hk : ∀ v t, Fetches p t (k v t)) :
    Fetches p s (reading s d cut k) := by
  rcases reading_cases s d cut k with ⟨v, c, _, he⟩ | ⟨c, _, he⟩
  · exact he ▸ (hk v { s with cur := c }).of_cursor
  · exact he ▸ raiseStop_keeps .exhausted (hcut { s with cur := c })

theorem atLoopHead_fetches {p : Phase} {s : State} {k : Fetched} (hk : Fetches p s k) :
    Fetches p s (atLoopHead s k) := by
  rcases atLoopHead_cases s k with ⟨_, he⟩ | ⟨_, he⟩
  · rw [he]
    exact raiseStop_keeps .full rfl
  · rwa [he]

theorem symbolPhase_classifyLzw (nextIndex : BitVec 14) (code : Code) :
    symbolPhase (classifyLzw nextIndex code) = some .lzwCode := by
  unfold classifyLzw
  repeat' split
  all_goals rfl

theorem symbolPhase_classifySdd (width : Nat) (v : BitVec 9) :
    symbolPhase (classifySdd width v) = some .sddWord := by
  unfold classifySdd
  repeat' split
  all_goals rfl

theorem fetchNode_fetches (s : State) : Fetches .hufNode s (fetchNode s) := by
  unfold fetchNode
  split
  · exact raiseStop_keeps .nodeRange rfl
  · exact reading_fetches (fun _ => rfl) fun _ _ =>
      reading_fetches (fun _ => rfl) fun _ _ => reading_fetches (fun _ => rfl) fun _ t => fetches_run t rfl

theorem fetchPath_fetches (sign : Bool) (fuel : Nat) (node : NodeIdx) (path : List Bool) (s : State) :
    Fetches .hufSample s (fetchPath sign fuel node path s) := by
  induction fuel generalizing node path s with
  | zero => exact keeps_fault _ _ _
  | succ fuel ih =>
    unfold fetchPath
    cases tableGet s.huf.nodes node.toNat with
    | none => exact keeps_fault _ _ _
    | some n =>
      dsimp only
      split
      · exact fetches_run s rfl
      · refine reading_fetches (fun _ => rfl) fun d t => ?_
        cases childOf n d with
        | none => exact fetches_run t rfl
        | some child =>
          dsimp only
          split
          · exact fetches_run t rfl
          · exact ih child (d :: path) t

theorem sddFull_keeps (p : Phase) (s : State) : Keeps p s (sddFull s) := raiseStop_keeps _ rfl

theorem fetchInit_fetches (s : State) : Fetches .sddInit s (fetchInit s) := by
  unfold fetchInit
  split
  · exact sddFull_keeps _ s
  · exact reading_fetches (fun _ => rfl) fun _ t => fetches_run t rfl

theorem fetchWord_fetches (s : State) : Fetches .sddWord s (fetchWord s) := by
  unfold fetchWord
  split
  · exact sddFull_keeps _ s
  · exact reading_fetches (fun _ => rfl) fun _ t => fetches_run t (symbolPhase_classifySdd _ _)

theorem fetchEsc_fetches (s : State) : Fetches .nduScan s (fetchEsc s) := by
  unfold fetchEsc
  refine reading_fetches (fun _ => rfl) fun seed t => ?_
  have cutShort : ∀ c, Keeps .nduScan t (nduSeed seed { t with cur := c } (raiseStop .exhausted)) := fun c =>
    nduSeed_keeps rfl fun _ hu => raiseStop_keeps _ hu
  split
  · exact nduSeed_keeps rfl fun _ hu => keeps_next hu
  · cases fetchByte t.inSpace t.par.inLen t.cur with
    | exhausted c => exact cutShort c
    | value hi c1 =>
      dsimp only
      cases fetchByte t.inSpace t.par.inLen c1 with
      | exhausted c => exact cutShort c
      | value lo c2 => exact ⟨rfl, c2, rfl⟩

theorem fetchScan_fetches (s : State) : Fetches .nduScan s (fetchScan s) := by
  refine atLoopHead_fetches (reading_fetches (fun _ => rfl) fun b t => ?_)
  split
  · exact fetchEsc_fetches t
  · exact fetches_run t rfl

/-- The engine fetches a symbol of its own phase, or does a step that keeps all that is not the phase's own. -/
theorem fetchStream_fetches (s : State) : Fetches s.phase s (fetchStream s) := by
  unfold fetchStream
  cases s.phase with
  | idle => exact keeps_next rfl
  | lzwCode =>
    exact atLoopHead_fetches
      (reading_fetches (fun _ => rfl) fun _ t => fetches_run t (symbolPhase_classifyLzw _ _))
  | hufNode => exact fetchNode_fetches s
  | hufSample =>
    exact atLoopHead_fetches (reading_fetches (fun _ => rfl) fun sign t => fetchPath_fetches sign _ 0 [] t)
  | sddHdr => exact reading_fetches (fun _ => rfl) fun _ t => fetches_run t rfl
  | sddInit => exact fetchInit_fetches s
  | sddWord => exact fetchWord_fetches s
  | nduScan => exact fetchScan_fetches s
  | nduRun => exact reading_fetches (fun _ => rfl) fun _ t => fetches_run t rfl

/-- A symbol that the engine fetches is one its phase reads, and its bits are read by moving the cursor alone. -/
theorem fetchStream_run {s t : State} {i : Instr} (h : fetchStream s = .run i t) :
    symbolPhase i = some s.phase ∧ ∃ c, t = { s with cur := c } := by
  have hf := fetchStream_fetches s
  rwa [h] at hf

/-- A step that the engine's fetch makes whole keeps all that is not its phase's own. -/
theorem fetchStream_acted {s : State} {o : Host.Outcome State Fault Refusal} (h : fetchStream s = .acted o) :
    Keeps s.phase s o := by
  have hf := fetchStream_fetches s
  rwa [h] at hf

/-! ## The step -/

/-- A step of the engine keeps the parameters, `IN`, the ports and every unit but the running command's. -/
theorem step_keeps_others {s : State} (hhost : s.host = []) : Keeps s.phase s (step s) := by
  unfold step
  rw [fetch_engine hhost]
  cases hf : fetchStream s with
  | run i u =>
    obtain ⟨hi, c, rfl⟩ := fetchStream_run hf
    exact exec_keeps (s := { s with cur := c }) hi
  | acted o => exact fetchStream_acted hf

/-- Settles O59: the frame of the engine's fetch, then that of the symbol it runs. -/
theorem unitsAreIndependent : Obligations.UnitsAreIndependent :=
  fun _ t hhost hstep => others_eq_iff.1 (step_keeps_others hhost t hstep)

end Sys2Proof.Proofs
end

section
/-! What a step can do: the host's accesses, each once, and the engine's own step; and the rules by which a property of the
next state passes through the shared operations of the symbols. -/

namespace Sys2Proof.Proofs

open Sys2Proof.Machine Sys2Proof.Laws

/-! ## Outcomes whose next state has a property -/

/-- If the outcome is a next state, that state satisfies `P`. -/
def Answers (P : State → Prop) (o : Host.Outcome State Fault Refusal) : Prop := ∀ t, o = .next t → P t

theorem answers_next {P : State → Prop} {s : State} (h : P s) : Answers P (.next s) := by
  rintro _ ⟨⟩
  exact h

theorem answers_fault (P : State → Prop) (f : Fault) : Answers P (.fault f) := by
  rintro _ ⟨⟩

theorem answers_refused (P : State → Prop) (r : Refusal) : Answers P (.refused r) := by
  rintro _ ⟨⟩

theorem answers_raiseStop {P : State → Prop} {cause : StopCause} {s : State}
    (h : s.phase ≠ .idle → P (stopped cause s)) : Answers P (raiseStop cause s) := by
  intro t ht
  obtain ⟨hp, rfl⟩ := raiseStop_next ht
  exact h hp

theorem answers_inPhase {P : State → Prop} {p : Phase} {s : State} {k : Host.Outcome State Fault Refusal}
    (h : s.phase = p → Answers P k) : Answers P (inPhase p s k) := by
  intro t ht
  obtain ⟨hp, hk⟩ := inPhase_next ht
  exact h hp t hk

theorem answers_appendThen {P : State → Prop} {v : Byte} {s : State} {k : State → Host.Outcome State Fault Refusal}
    (h : s.outLen.toNat < s.par.reqSize.toNat → Answers P (k (appendByte v s))) : Answers P (appendThen v s k) := by
  intro t ht
  obtain ⟨hroom, hk⟩ := appendThen_next ht
  exact h hroom t hk

theorem answers_unlessFull {P : State → Prop} {s : State} {k : State → Host.Outcome State Fault Refusal}
    (hstop : s.phase ≠ .idle → P (stopped .full s))
    (h : s.outLen.toNat < s.par.reqSize.toNat → Answers P (k s)) : Answers P (unlessFull s k) := by
  rcases unlessFull_cases s k with ⟨_, he⟩ | ⟨hroom, he⟩
  · exact he ▸ answers_raiseStop hstop
  · exact he ▸ h hroom

theorem answers_checkRoot {P : State → Prop} {s : State} (hstop : P (stopped .invalidTree s))
    (h : ∀ root, tableGet s.huf.nodes 0 = some root → root.left ≠ none → root.right ≠ none →
      P { s with phase := .hufSample }) : Answers P (checkRoot s) := by
  intro t ht
  obtain ⟨root, hroot, ⟨_, _, rfl⟩ | ⟨hl, hr, rfl⟩⟩ := checkRoot_next ht
  · exact hstop
  · exact h root hroot hl hr

/-- A normal code that answers a next state has its string emitted, its entry inserted and itself remembered (R152). -/
theorem answers_normalCode {P : State → Prop} {code start : Code} {again : Bool} {s : State}
    (h : ∀ str emitted first, s.phase = .lzwCode →
      P { emit emitted s with
          lzw := { insertEntry first (emit emitted s) { s.lzw with scratch := str } with prevCode := code } }) :
    Answers P (normalCode code start again s) := by
  refine answers_inPhase fun hp => ?_
  cases stringOf s.lzw.dict start with
  | error f => exact answers_fault P f
  | ok str => exact answers_next (h str _ _ hp)

/-- A node record that answers a next state found the table full, or has its slot and waits for its children, or, having
none, completes the nodes above it up to one that waits for its right child, or completes the root (R182, R183, R185). -/
theorem answers_execHufNode {P : State → Prop} {v : BitVec 7} {l r : Bool} {s : State}
    (hfull : s.phase = .hufNode → P (stopped .nodeRange s))
    (hwait : ∀ pending, s.phase = .hufNode → s.huf.nodeCount.toNat < Config.hufNodeCap →
      P { s with huf := { allocNode v s.huf with
            stack := { node := s.huf.nodeCount.setWidth 8, pending := pending } :: s.huf.stack } })
    (hup : ∀ nodes stack, s.phase = .hufNode → s.huf.nodeCount.toNat < Config.hufNodeCap →
      returnBuild (s.huf.nodeCount.setWidth 8) (allocNode v s.huf).nodes s.huf.stack = (nodes, some stack) →
      P { s with huf := { allocNode v s.huf with nodes := nodes, stack := stack } })
    (hroot : ∀ nodes, s.phase = .hufNode → s.huf.nodeCount.toNat < Config.hufNodeCap →
      returnBuild (s.huf.nodeCount.setWidth 8) (allocNode v s.huf).nodes s.huf.stack = (nodes, none) →
      Answers P (checkRoot { s with huf := { allocNode v s.huf with nodes := nodes, stack := [] } })) :
    Answers P (execHufNode v l r s) := by
  refine answers_inPhase fun hp => ?_
  by_cases hcap : Config.hufNodeCap ≤ s.huf.nodeCount.toNat
  · rw [if_pos hcap]
    exact answers_raiseStop fun _ => hfull hp
  · rw [if_neg hcap]
    have hlt := Nat.lt_of_not_le hcap
    cases l with
    | true => exact answers_next (hwait _ hp hlt)
    | false =>
      cases r with
      | true => exact answers_next (hwait _ hp hlt)
      | false =>
        dsimp only
        rcases hret : returnBuild (s.huf.nodeCount.setWidth 8) (allocNode v s.huf).nodes (allocNode v s.huf).stack
          with ⟨nodes, _ | stack⟩
        · exact hroot nodes hp hlt hret
        · exact answers_next (hup nodes stack hp hlt hret)

/-- A sample code that answers a next state stopped outside the table, or added a leaf and appended the sum (R187, R190). -/
theorem answers_execHufSample {P : State → Prop} {sign : Bool} {path : List Bool} {s : State}
    (hout : s.phase = .hufSample → P (stopped .nodeRange s))
    (hleaf : ∀ node sum, s.phase = .hufSample → P (appendByte sum (walked sign node sum s))) :
    Answers P (execHufSample sign path s) := by
  refine answers_inPhase fun hp => ?_
  cases walk s.huf.nodes s.huf.nodeCount.toNat Config.hufNodeCap 0 path with
  | leaf node value => exact answers_appendThen fun _ => answers_next (hleaf _ _ hp)
  | outside => exact answers_raiseStop fun _ => hout hp
  | mismatch => exact answers_refused P _
  | broken f => exact answers_fault P f

/-! ## The host's accesses -/

/-- What a host action other than `engine` does to the block where it answers a next state (R31, R32, R275, R330, R334,
R342; logs 12, 14, 21). -/
inductive Accessed (s : State) : State → Prop where
  /-- An access that changes nothing: ignored while busy (R266), or of a read-only register (log 14). -/
  | ignored : Accessed s s
  | launched (start : State) (hidle : s.status.busy = false)
      (hstart : start = startLzw s ∨ start = startHuf s ∨ start = startSdd s ∨ start = startNdu s) : Accessed s start
  | setParams (par : Params) (hidle : s.status.busy = false) : Accessed s { s with par := par }
  | readWord (data : Word) (draws : Nat) : Accessed s { s with hostData := data, draws := draws }
  | placed (bytes : List Byte) (hidle : s.status.busy = false) :
      Accessed s { s with inSpace := memWriteAll s.inSpace 0 bytes }
  | bound (ports : Ports) (hidle : s.status.busy = false) : Accessed s { s with ports := ports }
  | wrote (i : Nat) (v : Byte) : Accessed s (writeOutByte i v s)
  | reset : Accessed s (resetBlock s)

theorem issue_accessed {s start : State}
    (hstart : start = startLzw s ∨ start = startHuf s ∨ start = startSdd s ∨ start = startNdu s) :
    Answers (Accessed s) (issue s start) := by
  intro t ht
  rcases issue_next ht with ⟨_, rfl⟩ | ⟨hidle, _, _, _, rfl⟩
  · exact .ignored
  · exact .launched _ hidle hstart

/-- A write of `CMD` launches one of the four commands, or is ignored (R260, R266). -/
theorem exec_decodeCmd_accessed (w : Word) (s : State) : Answers (Accessed s) (exec (decodeCmd w) s) := by
  unfold decodeCmd
  split
  · exact issue_accessed (.inl rfl)
  · split
    · exact issue_accessed (.inr (.inl rfl))
    · split
      · exact issue_accessed (.inr (.inr (.inl rfl)))
      · exact issue_accessed (.inr (.inr (.inr rfl)))

theorem writeRegister_accessed (n : BitVec 3) (w : Word) (s : State) : Accessed s (writeRegister n w s) := by
  unfold writeRegister
  split_ifs with hbusy
  · exact .ignored
  iterate 4 exact .setParams _ (by simpa using hbusy)
  exact .ignored

/-! ## The step -/

/-- The engine's own step: the symbol of its phase, or the stop it meets in reading one (log 1). -/
def engineStep (s : State) : Host.Outcome State Fault Refusal :=
  match fetchStream s with
  | .run i t => exec i t
  | .acted o => o

/-- With no host action to come the step is the engine's (log 2). -/
theorem step_eq_engineStep {s : State} (h : s.host = []) : step s = engineStep s := by
  rw [step, fetch_engine h]
  rfl

/-- A step that answers a next state is a host access, or the engine's, in the state with that action off the list. -/
theorem step_next {s t : State} (h : step s = .next t) :
    ∃ rest, Accessed (withHost rest s) t ∨ engineStep (withHost rest s) = .next t := by
  match hhost : s.host with
  | [] =>
    have hs : withHost [] s = s := by rw [withHost, ← hhost]
    exact ⟨[], .inr (by rw [hs, ← step_eq_engineStep hhost, h])⟩
  | a :: rest =>
    refine ⟨rest, ?_⟩
    have hf : fetch s = hostAct a (withHost rest s) := fetch_host hhost
    rw [step, hf] at h
    generalize withHost rest s = u at h ⊢
    cases a with
    | engine => exact .inr h
    | writeReg n w =>
      refine .inl ?_
      by_cases hn : n = 0
      · simp only [hostAct, if_pos hn] at h
        exact exec_decodeCmd_accessed w u t h
      · simp only [hostAct, if_neg hn] at h
        cases h
        exact writeRegister_accessed n w u
    | readReg n => exact .inl (by cases h; exact .readWord _ _)
    | readOut i => exact .inl (by cases h; exact .readWord _ _)
    | writeOut i v => exact .inl (by cases h; exact .wrote _ _)
    | assertReset => exact .inl (by cases h; exact .reset)
    | placeInput bytes =>
      rcases placeInput_cases bytes u with ⟨_, he⟩ | ⟨hidle, he⟩
      · simp [hostAct, he] at h
      · simp only [hostAct, he, Host.Outcome.next.injEq] at h
        exact .inl (h ▸ .placed _ hidle)
    | bindPorts p =>
      rcases bindPorts_cases p u with ⟨_, he⟩ | ⟨hidle, he⟩
      · simp [hostAct, he] at h
      · simp only [hostAct, he, Host.Outcome.next.injEq] at h
        exact .inl (h ▸ .bound p hidle)

/-- A property that the host's list has no part in is kept by every step if every access and the engine's step keep it. -/
theorem step_keeps {P : State → Prop} (hlist : ∀ rest s, P s → P (withHost rest s))
    (haccess : ∀ s t, P s → Accessed s t → P t) (hengine : ∀ s, P s → Answers P (engineStep s))
    {s t : State} (hs : P s) (h : step s = .next t) : P t := by
  obtain ⟨rest, ha | he⟩ := step_next h
  · exact haccess _ t (hlist rest s hs) ha
  · exact hengine _ (hlist rest s hs) t he

end Sys2Proof.Proofs
end

section
/-! The bits ahead of a cursor, and what each micro-operation takes of them (R67, R68, R131 to R134): each read of `n` bits
gives the field that the next `n` bits are, or finds that fewer are left. -/

namespace Sys2Proof.Proofs

open Sys2Proof.Machine Sys2Proof.Laws Sys2Proof.Safety

/-! ## Fields of bits -/

theorem toLsb_add (n k v : Nat) : toLsb (n + k) v = toLsb n v ++ toLsb k (v / 2 ^ n) := by
  induction n generalizing v with
  | zero => simp [toLsb]
  | succ n ih =>
    rw [Nat.add_right_comm, toLsb, toLsb, ih, List.cons_append, Nat.div_div_eq_div_mul, ← Nat.pow_succ']

theorem toLsb_mod (n v : Nat) : toLsb n (v % 2 ^ n) = toLsb n v := by
  induction n generalizing v with
  | zero => rfl
  | succ n ih =>
    rw [toLsb, toLsb, Nat.pow_succ', Nat.mod_mul_right_mod, Nat.mod_mul_right_div_self, ih]

/-- A field put above another one of `n` bits. -/
theorem toLsb_stack {n k x y : Nat} (hx : x < 2 ^ n) : toLsb (n + k) (x + 2 ^ n * y) = toLsb n x ++ toLsb k y := by
  rw [toLsb_add, ← toLsb_mod n, Nat.add_mul_mod_self_left, Nat.mod_eq_of_lt hx,
    Nat.add_mul_div_left _ _ (Nat.two_pow_pos n), Nat.div_eq_of_lt hx, Nat.zero_add]

theorem ofLsb_toLsb (n v : Nat) : ofLsb (toLsb n v) = v % 2 ^ n := by
  induction n generalizing v with
  | zero => simp [toLsb, ofLsb, Nat.mod_one]
  | succ n ih =>
    have hbit : (decide (v % 2 = 1)).toNat = v % 2 := by
      rcases Nat.mod_two_eq_zero_or_one v with h | h <;> simp [h]
    rw [toLsb, ofLsb, ih, hbit, Nat.pow_succ', Nat.mod_mul]

theorem ofMsb_toMsb (n v : Nat) : ofMsb (toMsb n v) = v % 2 ^ n := by
  rw [ofMsb, toMsb, List.reverse_reverse, ofLsb_toLsb]

theorem ofLsb_append (a b : List Bool) : ofLsb (a ++ b) = ofLsb a + 2 ^ a.length * ofLsb b := by
  induction a with
  | nil => simp [ofLsb]
  | cons d a ih =>
    rw [List.cons_append, ofLsb, ofLsb, ih, List.length_cons, Nat.pow_succ', Nat.mul_assoc]
    omega

theorem ofMsb_append (a b : List Bool) : ofMsb (a ++ b) = ofMsb a * 2 ^ b.length + ofMsb b := by
  rw [ofMsb, List.reverse_append, ofLsb_append, List.length_reverse, Nat.mul_comm, Nat.add_comm]
  rfl

theorem ofMsb_cons (d : Bool) (l : List Bool) : ofMsb (d :: l) = d.toNat * 2 ^ l.length + ofMsb l := by
  have h := ofMsb_append [d] l
  simpa [ofMsb, ofLsb] using h

theorem toMsb_succ (n v : Nat) : toMsb (n + 1) v = decide (v / 2 ^ n % 2 = 1) :: toMsb n v := by
  rw [toMsb, toLsb_add, List.reverse_append]
  rfl

theorem takeBits_eq (n : Nat) (bits : List Bool) :
    takeBits n bits = if n ≤ bits.length then some (bits.take n, bits.drop n) else none := by
  induction n generalizing bits with
  | zero => simp [takeBits]
  | succ n ih =>
    cases bits with
    | nil => rfl
    | cons b bits =>
      simp only [takeBits, ih, List.length_cons, Nat.add_le_add_iff_right]
      split <;> simp_all

/-- A field that decodes has its bits. -/
theorem decodeField_ok {n : Nat} {bits rest : List Bool} {f : List Bool → Instr} {i : Instr}
    (h : decodeField n bits f = .ok i rest) : n ≤ bits.length ∧ i = f (bits.take n) ∧ rest = bits.drop n := by
  rw [decodeField, takeBits_eq] at h
  by_cases hn : n ≤ bits.length
  · rw [if_pos hn] at h
    cases h
    exact ⟨hn, rfl, rfl⟩
  · rw [if_neg hn] at h
    cases h

/-! ## The bits ahead, by mode -/

/-- The bits of the bytes not yet fetched, in the order of a mode. -/
def unfetched (inp : Memory) (inLen : Word) (field : Nat → List Bool) (pos : Nat) : List Bool :=
  (bytesFrom inp pos (inLen.toNat - pos)).flatMap fun b => field b.toNat

theorem ahead_lsb {inp : Memory} {inLen : Word} {c : Cursor} (h : c.mode = .lsb) :
    ahead inp inLen c =
      toLsb c.bitsAvailable.toNat c.bitBuffer.toNat ++ unfetched inp inLen (toLsb 8) c.bytePos.toNat := by
  simp only [ahead, h]
  rfl

theorem ahead_msb {inp : Memory} {inLen : Word} {c : Cursor} (h : c.mode ≠ .lsb) :
    ahead inp inLen c =
      toMsb c.bitsAvailable.toNat c.bitBuffer.toNat ++ unfetched inp inLen (toMsb 8) c.bytePos.toNat := by
  unfold ahead
  cases hm : c.mode with
  | lsb => exact absurd hm h
  | msb | byte => rfl

theorem unfetched_nil {inp : Memory} {inLen : Word} {field : Nat → List Bool} {pos : Nat} (h : inLen.toNat ≤ pos) :
    unfetched inp inLen field pos = [] := by
  rw [unfetched, Nat.sub_eq_zero_of_le h]
  rfl

theorem unfetched_cons {inp : Memory} {inLen : Word} {field : Nat → List Bool} {pos : Nat} (h : pos < inLen.toNat) :
    unfetched inp inLen field pos = field (memRead inp pos).toNat ++ unfetched inp inLen field (pos + 1) := by
  rw [unfetched, show inLen.toNat - pos = inLen.toNat - (pos + 1) + 1 by omega]
  rfl

/-! ## A read -/

/-- From cursor `c` to `c'` a decoder has read: `rest` are the bits still ahead, no byte is held of which no bit is taken
(R133, R137), and the rest of the cursor is as its mode keeps it. -/
structure Reads (inp : Memory) (inLen : Word) (c : Cursor) (rest : List Bool) (c' : Cursor) : Prop where
  ahead_eq : ahead inp inLen c' = rest
  mode_eq : c'.mode = c.mode
  buffer : BufferOk c'
  held : c'.bitsAvailable.toNat ≤ 7
  exhausted_eq : c'.exhausted = c.exhausted
  inside : c'.bytePos = c.bytePos ∨ c'.bytePos.toNat ≤ inLen.toNat

theorem Reads.trans {inp : Memory} {inLen : Word} {c c1 c2 : Cursor} {r1 r2 : List Bool}
    (h1 : Reads inp inLen c r1 c1) (h2 : Reads inp inLen c1 r2 c2) : Reads inp inLen c r2 c2 where
  ahead_eq := h2.ahead_eq
  mode_eq := h2.mode_eq.trans h1.mode_eq
  buffer := h2.buffer
  held := h2.held
  exhausted_eq := h2.exhausted_eq.trans h1.exhausted_eq
  inside := by
    rcases h2.inside with h | h
    · exact h ▸ h1.inside
    · exact .inr h

theorem Reads.length_ahead {inp : Memory} {inLen : Word} {c c' : Cursor} {bits : List Bool} {n : Nat}
    (h : Reads inp inLen c (bits.drop n) c') : (ahead inp inLen c').length = bits.length - n := by
  rw [h.ahead_eq, List.length_drop]

/-- A micro-operation that takes `n` bits: it finds fewer ahead, or delivers `v` and leaves the bits after them. -/
def Takes {α : Type} (inp : Memory) (inLen : Word) (c : Cursor) (n : Nat) (d : Delivery α) (v : α) : Prop :=
  ((ahead inp inLen c).length < n ∧ ∃ c', d = .exhausted c') ∨
  (n ≤ (ahead inp inLen c).length ∧ ∃ c', d = .value v c' ∧ Reads inp inLen c ((ahead inp inLen c).drop n) c')

theorem Takes.value {α : Type} {inp : Memory} {inLen : Word} {c : Cursor} {n : Nat} {d : Delivery α} {v : α}
    (h : Takes inp inLen c n d v) (hn : n ≤ (ahead inp inLen c).length) :
    ∃ c', d = .value v c' ∧ Reads inp inLen c ((ahead inp inLen c).drop n) c' := by
  rcases h with ⟨hlt, _⟩ | ⟨_, hv⟩
  · omega
  · exact hv

/-- Whatever a micro-operation delivers, its bits were there. -/
theorem Takes.reads {α : Type} {inp : Memory} {inLen : Word} {c c' : Cursor} {n : Nat} {d : Delivery α} {v w : α}
    (h : Takes inp inLen c n d v) (hd : d = .value w c') :
    w = v ∧ n ≤ (ahead inp inLen c).length ∧ Reads inp inLen c ((ahead inp inLen c).drop n) c' := by
  subst hd
  rcases h with ⟨_, _, he⟩ | ⟨hn, c1, he, hr⟩
  · cases he
  · cases he
    exact ⟨rfl, hn, hr⟩

/-- From `c` to `c1` a byte may have been taken into the buffer, but no bit has been delivered. -/
structure Refills (inp : Memory) (inLen : Word) (c c1 : Cursor) : Prop where
  ahead_eq : ahead inp inLen c1 = ahead inp inLen c
  mode_eq : c1.mode = c.mode
  exhausted_eq : c1.exhausted = c.exhausted
  inside : c1.bytePos = c.bytePos ∨ c1.bytePos.toNat ≤ inLen.toNat

theorem Refills.refl (inp : Memory) (inLen : Word) (c : Cursor) : Refills inp inLen c c := ⟨rfl, rfl, rfl, .inl rfl⟩

theorem Refills.trans {inp : Memory} {inLen : Word} {c c1 c2 : Cursor} (h1 : Refills inp inLen c c1)
    (h2 : Refills inp inLen c1 c2) : Refills inp inLen c c2 where
  ahead_eq := h2.ahead_eq.trans h1.ahead_eq
  mode_eq := h2.mode_eq.trans h1.mode_eq
  exhausted_eq := h2.exhausted_eq.trans h1.exhausted_eq
  inside := by
    rcases h2.inside with h | h
    · exact h ▸ h1.inside
    · exact .inr h

theorem Refills.reads {inp : Memory} {inLen : Word} {c c1 c2 : Cursor} {rest : List Bool}
    (h1 : Refills inp inLen c c1) (h2 : Reads inp inLen c1 rest c2) : Reads inp inLen c rest c2 where
  ahead_eq := h2.ahead_eq
  mode_eq := h2.mode_eq.trans h1.mode_eq
  buffer := h2.buffer
  held := h2.held
  exhausted_eq := h2.exhausted_eq.trans h1.exhausted_eq
  inside := by
    rcases h2.inside with h | h
    · exact h ▸ h1.inside
    · exact .inr h

/-- What is taken after a refill is taken from the cursor before it. -/
theorem Refills.takes {α : Type} {inp : Memory} {inLen : Word} {c c1 : Cursor} {n : Nat} {d : Delivery α} {v : α}
    (h1 : Refills inp inLen c c1) (h : Takes inp inLen c1 n d v) : Takes inp inLen c n d v := by
  unfold Takes at h ⊢
  rw [h1.ahead_eq] at h
  rcases h with hover | ⟨hn, c', hv, hr⟩
  · exact .inl hover
  · exact .inr ⟨hn, c', hv, h1.reads hr⟩

/-! ## `FETCHB` -/

theorem bufferOk_byte {c : Cursor} (hm : c.mode = .byte) :
    BufferOk c ↔ c.bitsAvailable = 0 ∧ c.bitBuffer = 0 := by
  simp only [BufferOk, hm]

theorem bufferOk_msb {c : Cursor} (hm : c.mode = .msb) :
    BufferOk c ↔ c.bitsAvailable.toNat ≤ 8 ∧ c.bitBuffer.toNat < 256 := by
  simp only [BufferOk, hm]

theorem bufferOk_lsb {c : Cursor} (hm : c.mode = .lsb) :
    BufferOk c ↔ c.bitsAvailable.toNat ≤ 7 ∧ c.bitBuffer.toNat < 2 ^ c.bitsAvailable.toNat := by
  simp only [BufferOk, hm]

/-- `FETCHB` takes the next byte (R131). -/
theorem fetchByte_takes {inp : Memory} {inLen : Word} {c : Cursor} (hm : c.mode = .byte) (hb : BufferOk c) :
    Takes inp inLen c 8 (fetchByte inp inLen c) (BitVec.ofNat 8 (ofMsb ((ahead inp inLen c).take 8))) := by
  obtain ⟨havail, hbuf⟩ := (bufferOk_byte hm).1 hb
  have hahead : ∀ c1 : Cursor, c1.mode = .byte → c1.bitsAvailable = 0 →
      ahead inp inLen c1 = unfetched inp inLen (toMsb 8) c1.bytePos.toNat := by
    intro c1 hm1 h1
    rw [ahead_msb (by simp [hm1]), h1]
    rfl
  rcases fetchByte_cases inp inLen c with ⟨hover, he⟩ | ⟨hin, he⟩
  · exact .inl ⟨by rw [hahead c hm havail, unfetched_nil hover]; decide, _, he⟩
  · have hsucc := bytePos_succ hin
    have hcons := hahead c hm havail
    rw [unfetched_cons hin] at hcons
    refine .inr ⟨by simp [hcons], { c with bytePos := c.bytePos + 1 }, ?_, ?_⟩
    · rw [he, hcons, List.take_left' (toMsb_length 8 _), ofMsb_toMsb,
        Nat.mod_eq_of_lt (memRead inp c.bytePos.toNat).isLt, BitVec.ofNat_toNat, BitVec.setWidth_eq]
    · exact {
        ahead_eq := by
          rw [hahead { c with bytePos := c.bytePos + 1 } hm havail, hcons, List.drop_left' (toMsb_length 8 _), hsucc]
        mode_eq := rfl
        buffer := (bufferOk_byte hm).2 ⟨havail, hbuf⟩
        held := by simp [havail]
        exhausted_eq := rfl
        inside := .inr (by simp only [hsucc]; omega) }

/-! ## `RDBIT_M` and `RDBITS_M` -/

/-- Delivering the top bit held. -/
theorem takeTopBit_takes {inp : Memory} {inLen : Word} {c : Cursor} (hm : c.mode = .msb) (hb : BufferOk c)
    (h : c.bitsAvailable ≠ 0) :
    Takes inp inLen c 1 (takeTopBit c) ((ahead inp inLen c).headD false) := by
  obtain ⟨havail, hbuf⟩ := (bufferOk_msb hm).1 hb
  have hpos : c.bitsAvailable.toNat ≠ 0 := fun h0 => h (BitVec.eq_of_toNat_eq h0)
  have hpred : (c.bitsAvailable - 1).toNat + 1 = c.bitsAvailable.toNat := by
    rw [BitVec.toNat_sub, show (1 : BitVec 6).toNat = 1 from rfl]
    omega
  have hahead : ahead inp inLen c =
      c.bitBuffer.getLsbD (c.bitsAvailable - 1).toNat ::
        ahead inp inLen { c with bitsAvailable := c.bitsAvailable - 1 } := by
    rw [ahead_msb (by simp [hm]), ahead_msb (by simp [hm]), ← hpred, toMsb_succ, List.cons_append]
    congr 1
    rw [BitVec.getLsbD, Nat.testBit_eq_decide_div_mod_eq]
  refine .inr ⟨by simp [hahead], { c with bitsAvailable := c.bitsAvailable - 1 }, ?_, ?_⟩
  · rw [hahead]
    rfl
  · have hheld : (c.bitsAvailable - 1).toNat ≤ 7 := by omega
    exact {
      ahead_eq := by rw [hahead]; rfl
      mode_eq := rfl
      buffer := (bufferOk_msb (c := { c with bitsAvailable := c.bitsAvailable - 1 }) hm).2 ⟨Nat.le_succ_of_le hheld, hbuf⟩
      held := hheld
      exhausted_eq := rfl
      inside := .inl rfl }

/-- The cursor of mode `MSB` with the next byte in its empty buffer (R133). -/
def holdByte (inp : Memory) (c : Cursor) : Cursor :=
  { c with
    bytePos := c.bytePos + 1
    bitBuffer := (memRead inp c.bytePos.toNat).setWidth 32
    bitsAvailable := 8 }

theorem byte_setWidth_toNat (b : Byte) : (b.setWidth 32).toNat = b.toNat := by
  rw [BitVec.toNat_setWidth]
  exact Nat.mod_eq_of_lt (lt_trans b.isLt (by decide))

theorem holdByte_bufferOk {inp : Memory} {c : Cursor} (hm : c.mode = .msb) : BufferOk (holdByte inp c) := by
  refine (bufferOk_msb (c := holdByte inp c) hm).2 ⟨le_refl 8, ?_⟩
  rw [holdByte, byte_setWidth_toNat]
  exact (memRead inp c.bytePos.toNat).isLt

theorem holdByte_refills {inp : Memory} {inLen : Word} {c : Cursor} (hm : c.mode = .msb) (hempty : c.bitsAvailable = 0)
    (hin : c.bytePos.toNat < inLen.toNat) : Refills inp inLen c (holdByte inp c) where
  ahead_eq := by
    rw [ahead_msb (c := c) (by simp [hm]), ahead_msb (c := holdByte inp c) (by simp [holdByte, hm]), hempty,
      unfetched_cons hin]
    simp only [holdByte, byte_setWidth_toNat, bytePos_succ hin]
    rfl
  mode_eq := rfl
  exhausted_eq := rfl
  inside := .inr (by simp only [holdByte, bytePos_succ hin]; omega)

/-- `RDBIT_M` takes the next bit (R133). -/
theorem readBitMsb_takes {inp : Memory} {inLen : Word} {c : Cursor} (hm : c.mode = .msb) (hb : BufferOk c) :
    Takes inp inLen c 1 (readBitMsb inp inLen c) ((ahead inp inLen c).headD false) := by
  rcases readBitMsb_cases inp inLen c with ⟨h, he⟩ | ⟨h, hin, he⟩ | ⟨h, hover, he⟩
  · exact he ▸ takeTopBit_takes hm hb h
  · have hfresh := holdByte_refills (inp := inp) hm h hin
    rw [he, ← hfresh.ahead_eq]
    exact hfresh.takes (takeTopBit_takes hm (holdByte_bufferOk hm) (by simp [holdByte]))
  · refine .inl ⟨?_, _, he⟩
    rw [ahead_msb (by simp [hm]), h, unfetched_nil hover]
    simp [toMsb, toLsb]

/-- A bit shifted into a 7-bit field from the right. -/
theorem shiftIn_toNat (r : BitVec 7) (d : Bool) :
    ((r <<< 1) ||| (BitVec.ofBool d).setWidth 7).toNat = (2 * r.toNat + d.toNat) % 2 ^ 7 := by
  have hd : d.toNat < 2 ^ 1 := Bool.toNat_lt d
  have hbit : ((BitVec.ofBool d).setWidth 7).toNat = d.toNat := by cases d <;> rfl
  have hshift : (r <<< 1).toNat = (r.toNat % 2 ^ 6) <<< 1 := by
    rw [BitVec.toNat_shiftLeft, Nat.shiftLeft_eq, Nat.shiftLeft_eq]
    omega
  rw [BitVec.toNat_or, hbit, hshift, ← Nat.shiftLeft_add_eq_or_of_lt hd, Nat.shiftLeft_eq]
  omega

/-- A field of which the first bit `d` is in `r` already. -/
theorem ofNat_shiftIn (r : BitVec 7) (d : Bool) (n x : Nat) :
    BitVec.ofNat 7 (((r <<< 1) ||| (BitVec.ofBool d).setWidth 7).toNat * 2 ^ n + x) =
      BitVec.ofNat 7 (r.toNat * 2 ^ (n + 1) + (d.toNat * 2 ^ n + x)) := by
  apply BitVec.eq_of_toNat_eq
  rw [BitVec.toNat_ofNat, BitVec.toNat_ofNat, shiftIn_toNat]
  have hmul : (2 * r.toNat + d.toNat) % 2 ^ 7 * 2 ^ n ≡ (2 * r.toNat + d.toNat) * 2 ^ n [MOD 2 ^ 7] :=
    (Nat.mod_modEq _ _).mul_right _
  calc ((2 * r.toNat + d.toNat) % 2 ^ 7 * 2 ^ n + x) % 2 ^ 7
      = ((2 * r.toNat + d.toNat) * 2 ^ n + x) % 2 ^ 7 := hmul.add_right x
    _ = (r.toNat * 2 ^ (n + 1) + (d.toNat * 2 ^ n + x)) % 2 ^ 7 := by
        congr 1
        ring

/-- `RDBITS_M` takes the next field, its first bit the most significant (R134). -/
theorem readBitsMsbFrom_takes {inp : Memory} {inLen : Word} {n : Nat} {r : BitVec 7} {c : Cursor}
    (hm : c.mode = .msb) (hb : BufferOk c) :
    Takes inp inLen c (n + 1) (readBitsMsbFrom inp inLen (n + 1) r c)
      (BitVec.ofNat 7 (r.toNat * 2 ^ (n + 1) + ofMsb ((ahead inp inLen c).take (n + 1)))) := by
  induction n generalizing r c with
  | zero =>
    rcases readBitMsb_takes (inp := inp) (inLen := inLen) hm hb with ⟨hlt, c1, he⟩ | ⟨hle, c1, he, hr⟩
    · exact .inl ⟨hlt, c1, by simp only [readBitsMsbFrom, he]⟩
    · refine .inr ⟨hle, c1, ?_, hr⟩
      obtain ⟨d, rest, hd⟩ := List.exists_cons_of_length_pos hle
      simp only [readBitsMsbFrom, he, hd]
      have h := ofNat_shiftIn r d 0 0
      rw [Nat.pow_zero, Nat.mul_one, Nat.add_zero, BitVec.ofNat_toNat, BitVec.setWidth_eq] at h
      rw [List.take_succ_cons, List.take_zero, ofMsb_cons, List.length_nil]
      exact congrArg (Delivery.value · c1) h
  | succ n ih =>
    rcases readBitMsb_takes (inp := inp) (inLen := inLen) hm hb with ⟨hlt, c1, he⟩ | ⟨hle, c1, he, hr⟩
    · exact .inl ⟨by omega, c1, by simp only [readBitsMsbFrom, he]⟩
    · obtain ⟨d, rest, hd⟩ := List.exists_cons_of_length_pos hle
      have hc1 : ahead inp inLen c1 = rest := by rw [hr.ahead_eq, hd]; rfl
      have hrec := ih (r := (r <<< 1) ||| (BitVec.ofBool d).setWidth 7) (c := c1) (hr.mode_eq.trans hm) hr.buffer
      have hunfold : readBitsMsbFrom inp inLen (n + 1 + 1) r c =
          readBitsMsbFrom inp inLen (n + 1) ((r <<< 1) ||| (BitVec.ofBool d).setWidth 7) c1 := by
        rw [readBitsMsbFrom, he, hd]
        rfl
      rw [hunfold]
      unfold Takes at hrec ⊢
      rw [hc1] at hrec
      rw [hd, List.take_succ_cons, ofMsb_cons]
      rcases hrec with ⟨hlt, hex⟩ | ⟨hlen, c2, hv, hr2⟩
      · exact .inl ⟨by simpa using hlt, hex⟩
      · refine .inr ⟨by simpa using hlen, c2, ?_, ?_⟩
        · rw [hv, ofNat_shiftIn, List.length_take, Nat.min_eq_left hlen]
        · exact hr.trans hr2

theorem readBitsMsb_takes {inp : Memory} {inLen : Word} {n : Nat} {c : Cursor} (hm : c.mode = .msb) (hb : BufferOk c) :
    Takes inp inLen c (n + 1) (readBitsMsb inp inLen (n + 1) c)
      (BitVec.ofNat 7 (ofMsb ((ahead inp inLen c).take (n + 1)))) := by
  have h := readBitsMsbFrom_takes (inp := inp) (inLen := inLen) (n := n) (r := 0) hm hb
  rwa [show (0 : BitVec 7).toNat = 0 from rfl, Nat.zero_mul, Nat.zero_add] at h

/-! ## `RDBITS_L` -/

/-- The cursor of mode `LSB` with the next byte put above the bits held (R132). -/
def stackByte (inp : Memory) (c : Cursor) : Cursor :=
  { c with
    bytePos := c.bytePos + 1
    bitBuffer := c.bitBuffer ||| ((memRead inp c.bytePos.toNat).setWidth 32 <<< c.bitsAvailable.toNat)
    bitsAvailable := c.bitsAvailable + 8 }

theorem stackByte_bitsAvailable {inp : Memory} {c : Cursor} (h : c.bitsAvailable.toNat ≤ 24) :
    (stackByte inp c).bitsAvailable.toNat = c.bitsAvailable.toNat + 8 := by
  rw [stackByte, BitVec.toNat_add, show (8 : BitVec 6).toNat = 8 from rfl]
  omega

theorem stackByte_bitBuffer {inp : Memory} {c : Cursor} (h : c.bitsAvailable.toNat ≤ 24)
    (hbuf : c.bitBuffer.toNat < 2 ^ c.bitsAvailable.toNat) :
    (stackByte inp c).bitBuffer.toNat =
      c.bitBuffer.toNat + 2 ^ c.bitsAvailable.toNat * (memRead inp c.bytePos.toNat).toNat := by
  have hbyte := (memRead inp c.bytePos.toNat).isLt
  have hfits : (memRead inp c.bytePos.toNat).toNat * 2 ^ c.bitsAvailable.toNat < 2 ^ 32 := by
    calc (memRead inp c.bytePos.toNat).toNat * 2 ^ c.bitsAvailable.toNat
        < 2 ^ 8 * 2 ^ c.bitsAvailable.toNat := Nat.mul_lt_mul_of_pos_right hbyte (Nat.two_pow_pos _)
      _ ≤ 2 ^ 8 * 2 ^ 24 := Nat.mul_le_mul_left _ (Nat.pow_le_pow_right (by decide) h)
      _ = 2 ^ 32 := by decide
  rw [stackByte, BitVec.toNat_or, BitVec.toNat_shiftLeft, byte_setWidth_toNat, Nat.shiftLeft_eq, Nat.mod_eq_of_lt hfits,
    Nat.or_comm, ← Nat.shiftLeft_eq, ← Nat.shiftLeft_add_eq_or_of_lt hbuf, Nat.shiftLeft_eq, Nat.mul_comm]
  omega

theorem stackByte_refills {inp : Memory} {inLen : Word} {c : Cursor} (hm : c.mode = .lsb)
    (h : c.bitsAvailable.toNat ≤ 24) (hbuf : c.bitBuffer.toNat < 2 ^ c.bitsAvailable.toNat)
    (hin : c.bytePos.toNat < inLen.toNat) : Refills inp inLen c (stackByte inp c) where
  ahead_eq := by
    rw [ahead_lsb (c := stackByte inp c) hm, ahead_lsb hm, stackByte_bitsAvailable h, stackByte_bitBuffer h hbuf,
      toLsb_stack hbuf, unfetched_cons hin, List.append_assoc]
    simp only [stackByte, bytePos_succ hin]
  mode_eq := rfl
  exhausted_eq := rfl
  inside := .inr (by simp only [stackByte, bytePos_succ hin]; omega)

theorem stackByte_bitBuffer_lt {inp : Memory} {c : Cursor} (h : c.bitsAvailable.toNat ≤ 24)
    (hbuf : c.bitBuffer.toNat < 2 ^ c.bitsAvailable.toNat) :
    (stackByte inp c).bitBuffer.toNat < 2 ^ (stackByte inp c).bitsAvailable.toNat := by
  have hbyte := (memRead inp c.bytePos.toNat).isLt
  rw [stackByte_bitBuffer h hbuf, stackByte_bitsAvailable h, Nat.pow_add]
  calc c.bitBuffer.toNat + 2 ^ c.bitsAvailable.toNat * (memRead inp c.bytePos.toNat).toNat
      < 2 ^ c.bitsAvailable.toNat + 2 ^ c.bitsAvailable.toNat * (memRead inp c.bytePos.toNat).toNat :=
        Nat.add_lt_add_right hbuf _
    _ = 2 ^ c.bitsAvailable.toNat * ((memRead inp c.bytePos.toNat).toNat + 1) := by ring
    _ ≤ 2 ^ c.bitsAvailable.toNat * 2 ^ 8 := Nat.mul_le_mul_left _ hbyte

/-- A refill that may fetch enough bytes finds too few bits ahead, or holds at least the bits wanted and at most 7 more
than those, or than it held before (R132, R136). -/
theorem refill_cases {inp : Memory} {inLen : Word} {n k : Nat} {c : Cursor} (hm : c.mode = .lsb) (hn : n ≤ 16)
    (hheld : c.bitsAvailable.toNat ≤ n + 7) (hbuf : c.bitBuffer.toNat < 2 ^ c.bitsAvailable.toNat)
    (henough : n ≤ c.bitsAvailable.toNat + 8 * k) :
    ((ahead inp inLen c).length < n ∧ ∃ c1, refill inp inLen n k c = .exhausted c1) ∨
    ∃ c1, refill inp inLen n k c = .value () c1 ∧ Refills inp inLen c c1 ∧ n ≤ c1.bitsAvailable.toNat ∧
      c1.bitsAvailable.toNat ≤ n + 7 ∧ c1.bitBuffer.toNat < 2 ^ c1.bitsAvailable.toNat := by
  induction k generalizing c with
  | zero => exact .inr ⟨c, rfl, .refl inp inLen c, henough, hheld, hbuf⟩
  | succ k ih =>
    by_cases hfew : c.bitsAvailable.toNat < n
    · rcases refill_short (inp := inp) (inLen := inLen) (k := k) hfew with ⟨hover, he⟩ | ⟨hin, he⟩
      · refine .inl ⟨?_, _, he⟩
        rw [ahead_lsb hm, unfetched_nil hover, List.append_nil, toLsb_length]
        exact hfew
      · have h24 : c.bitsAvailable.toNat ≤ 24 := by omega
        have hstack := stackByte_refills (inp := inp) hm h24 hbuf hin
        have havail := stackByte_bitsAvailable (inp := inp) h24
        rw [he]
        rcases ih (c := stackByte inp c) hm (by omega) (stackByte_bitBuffer_lt h24 hbuf) (by omega) with
          ⟨hlt, hex⟩ | ⟨c1, hv, hr, hrest⟩
        · exact .inl ⟨hstack.ahead_eq ▸ hlt, hex⟩
        · exact .inr ⟨c1, hv, hstack.trans hr, hrest⟩
    · exact .inr ⟨c, refill_enough (Nat.not_lt.1 hfew), .refl inp inLen c, Nat.not_lt.1 hfew, hheld, hbuf⟩

/-- The low `n` bits of a buffer, as `RDBITS_L` masks them out (R132). -/
theorem mask_setWidth {n x : Nat} {buf : BitVec 32} (hn : n ≤ 16) (hx : x = buf.toNat % 2 ^ n) :
    (buf &&& BitVec.ofNat 32 (2 ^ n - 1)).setWidth 13 = BitVec.ofNat 13 x := by
  have hmask : 2 ^ n - 1 < 2 ^ 32 :=
    lt_of_le_of_lt (Nat.sub_le _ _) (lt_of_le_of_lt (Nat.pow_le_pow_right (by decide) hn) (by decide))
  apply BitVec.eq_of_toNat_eq
  rw [BitVec.toNat_setWidth, BitVec.toNat_and, BitVec.toNat_ofNat, BitVec.toNat_ofNat, Nat.mod_eq_of_lt hmask,
    Nat.and_two_pow_sub_one_eq_mod, hx]

/-- `RDBITS_L n` takes the next field, its first bit the least significant (R132). -/
theorem readBitsLsb_takes {inp : Memory} {inLen : Word} {n : Nat} {c : Cursor} (hm : c.mode = .lsb) (hb : BufferOk c)
    (hn : n ≤ 16) :
    Takes inp inLen c n (readBitsLsb inp inLen n c) (BitVec.ofNat 13 (ofLsb ((ahead inp inLen c).take n))) := by
  obtain ⟨hheld, hbuf⟩ := (bufferOk_lsb hm).1 hb
  rcases refill_cases (inp := inp) (inLen := inLen) (n := n) (k := 2) hm hn (by omega) hbuf (by omega) with
    ⟨hlt, c1, he⟩ | ⟨c1, he, hr, hlo, hhi, hbuf1⟩
  · exact .inl ⟨hlt, c1, by simp only [readBitsLsb, he]⟩
  · have hm1 : c1.mode = .lsb := hr.mode_eq.trans hm
    obtain ⟨k, hk⟩ := Nat.exists_eq_add_of_le hlo
    -- The bits held split into the field and those left.
    have hsplit : ahead inp inLen c1 = toLsb n c1.bitBuffer.toNat ++
        (toLsb k (c1.bitBuffer.toNat / 2 ^ n) ++ unfetched inp inLen (toLsb 8) c1.bytePos.toNat) := by
      rw [ahead_lsb hm1, hk, toLsb_add, List.append_assoc]
    generalize hc2 : ({ c1 with bitBuffer := c1.bitBuffer >>> n,
                                bitsAvailable := c1.bitsAvailable - BitVec.ofNat 6 n } : Cursor) = c2
    have havail : c2.bitsAvailable.toNat = k := by
      subst hc2
      rw [BitVec.toNat_sub, BitVec.toNat_ofNat]
      omega
    have hbuffer : c2.bitBuffer.toNat = c1.bitBuffer.toNat / 2 ^ n := by
      subst hc2
      rw [BitVec.toNat_ushiftRight, Nat.shiftRight_eq_div_pow]
    have hm2 : c2.mode = .lsb := by subst hc2; exact hm1
    refine hr.takes (.inr ⟨by rw [hsplit, List.length_append, toLsb_length]; omega, c2, ?_, ?_⟩)
    · simp only [readBitsLsb, he, hc2]
      congr 1
      refine mask_setWidth hn ?_
      rw [← hr.ahead_eq, hsplit, List.take_left' (toLsb_length n _), ofLsb_toLsb]
    · exact {
        ahead_eq := by
          rw [hsplit, List.drop_left' (toLsb_length n _), ahead_lsb hm2, havail, hbuffer]
          subst hc2
          rfl
        mode_eq := by subst hc2; rfl
        buffer := (bufferOk_lsb hm2).2 ⟨by omega, by
          rw [hbuffer, havail]
          exact Nat.div_lt_of_lt_mul (by rwa [← Nat.pow_add, ← hk])⟩
        held := by omega
        exhausted_eq := by subst hc2; rfl
        inside := .inl (by subst hc2; rfl) }

end Sys2Proof.Proofs
end

section
/-! What the engine does in reading a symbol: it moves the cursor as its mode allows and then runs a symbol of its phase, or
it stops the command, with what a symbol cut short has done (R131, R135, R184, R244, R291). -/

namespace Sys2Proof.Proofs

open Sys2Proof.Machine Sys2Proof.Laws Sys2Proof.Safety

/-! ## The cursor between two reads -/

/-- The cursor stands as mode `m` keeps it, inside the input or where the command started (R22, R23). -/
structure Stands (m : CursorMode) (par : Params) (c : Cursor) : Prop where
  mode_eq : c.mode = m
  buffer : BufferOk c
  fresh : c.exhausted = false
  inside : c.bytePos.toNat ≤ par.inLen.toNat ∨ c.bytePos = par.startOffset

theorem cursorInv_iff {s : State} :
    CursorInv s ↔ (s.phase ≠ .idle → ∃ m, modeOf s.phase = some m ∧ Stands m s.par s.cur) := by
  refine imp_congr_right fun _ => ⟨?_, ?_⟩
  · rintro ⟨hm, hb, he, hi⟩
    exact ⟨s.cur.mode, hm, rfl, hb, he, hi⟩
  · rintro ⟨m, hm, h⟩
    exact ⟨by rw [hm, h.mode_eq], h.buffer, h.fresh, h.inside⟩

theorem cursorInv_idle {s : State} (h : s.phase = .idle) : CursorInv s := fun hp => absurd h hp

theorem Stands.of_reads {m : CursorMode} {par : Params} {inp : Memory} {c c' : Cursor} {rest : List Bool}
    (h : Stands m par c) (hr : Reads inp par.inLen c rest c') : Stands m par c' where
  mode_eq := hr.mode_eq.trans h.mode_eq
  buffer := hr.buffer
  fresh := hr.exhausted_eq.trans h.fresh
  inside := by
    rcases hr.inside with h1 | h1
    · exact h1 ▸ h.inside
    · exact .inl h1

/-- A micro-operation of mode `m`: a value it delivers leaves the cursor as the mode keeps it. -/
def KeepsStanding {α : Type} (m : CursorMode) (par : Params) (c : Cursor) (d : Delivery α) : Prop :=
  ∀ v c', d = .value v c' → Stands m par c → Stands m par c'

theorem fetchByte_keepsStanding (inp : Memory) (par : Params) (c : Cursor) :
    KeepsStanding .byte par c (fetchByte inp par.inLen c) := fun _ _ hd h =>
  h.of_reads ((fetchByte_takes h.mode_eq h.buffer).reads hd).2.2

theorem readBitMsb_keepsStanding (inp : Memory) (par : Params) (c : Cursor) :
    KeepsStanding .msb par c (readBitMsb inp par.inLen c) := fun _ _ hd h =>
  h.of_reads ((readBitMsb_takes h.mode_eq h.buffer).reads hd).2.2

theorem readBitsMsb_keepsStanding (inp : Memory) (par : Params) (n : Nat) (c : Cursor) :
    KeepsStanding .msb par c (readBitsMsb inp par.inLen (n + 1) c) := fun _ _ hd h =>
  h.of_reads ((readBitsMsb_takes h.mode_eq h.buffer).reads hd).2.2

theorem readBitsLsb_keepsStanding (inp : Memory) (par : Params) {n : Nat} (hn : n ≤ 16) (c : Cursor) :
    KeepsStanding .lsb par c (readBitsLsb inp par.inLen n c) := fun _ _ hd h =>
  h.of_reads ((readBitsLsb_takes h.mode_eq h.buffer hn).reads hd).2.2

/-! ## Reading on from a state -/

/-- From `s` to `t` only the cursor has moved, by reads of mode `m`. -/
structure Moved (m : CursorMode) (s t : State) : Prop where
  cursor_only : t = { s with cur := t.cur }
  stands : Stands m s.par s.cur → Stands m s.par t.cur

theorem Moved.refl (m : CursorMode) (s : State) : Moved m s s := ⟨rfl, id⟩

theorem Moved.read {α : Type} {m : CursorMode} {s t : State} {d : Delivery α} {v : α} {c : Cursor} (h : Moved m s t)
    (hd : KeepsStanding m s.par t.cur d) (hv : d = .value v c) : Moved m s { t with cur := c } where
  cursor_only := by rw [h.cursor_only]
  stands := fun hs => hd v c hv (h.stands hs)

/-- What the rule of a symbol that the input or the output cuts short has done before the stop: it has read; a node record
has its slot (R184); an escape sequence has its seed written, for which there was room (R244). -/
inductive CutShort (s : State) : State → Prop where
  | read (c : Cursor) : CutShort s { s with cur := c }
  | slot (c : Cursor) (hp : s.phase = .hufNode) : CutShort s (slotTaken { s with cur := c })
  | seed (c : Cursor) (b : Byte) (hp : s.phase = .nduScan) (hroom : s.outLen.toNat < s.par.reqSize.toNat) :
      CutShort s (appendByte b { s with cur := c, ndu := { s.ndu with accumulator := b } })

/-- A symbol is found after reads of mode `m`; or the command stops, as `CutShort` says. -/
def Finds (m : CursorMode) (s : State) : Fetched → Prop
  | .run i t => symbolPhase i = some s.phase ∧ Moved m s t
  | .acted o => Answers (fun t => ∃ u cause, CutShort s u ∧ t = stopped cause u) o

theorem raiseStop_finds {m : CursorMode} {s u : State} (cause : StopCause) (h : CutShort s u) :
    Finds m s (.acted (raiseStop cause u)) :=
  answers_raiseStop fun _ => ⟨u, cause, h, rfl⟩

theorem reading_finds {α : Type} {m : CursorMode} {s t : State} {d : Delivery α} {cut : State → State}
    {k : α → State → Fetched} (ht : Moved m s t) (hd : KeepsStanding m s.par t.cur d)
    (hcut : ∀ c, CutShort s (cut { s with cur := c })) (hk : ∀ v u, Moved m s u → Finds m s (k v u)) :
    Finds m s (reading t d cut k) := by
  rcases reading_cases t d cut k with ⟨v, c, hv, he⟩ | ⟨c, _, he⟩
  · exact he ▸ hk v _ (ht.read hd hv)
  · rw [he, ht.cursor_only]
    exact raiseStop_finds _ (hcut c)

theorem readingByte_finds {s t : State} {k : Byte → State → Fetched} (ht : Moved .byte s t)
    (hk : ∀ v u, Moved .byte s u → Finds .byte s (k v u)) : Finds .byte s (readingByte t id k) := by
  have hpar : t.par = s.par := by rw [ht.cursor_only]
  exact reading_finds ht (hpar ▸ fetchByte_keepsStanding _ _ _) .read hk

theorem readingLsb_finds {s : State} {n : Nat} {k : Code → State → Fetched} (hn : n ≤ 16)
    (hk : ∀ v u, Moved .lsb s u → Finds .lsb s (k v u)) : Finds .lsb s (readingLsb n s k) :=
  reading_finds (.refl _ s) (readBitsLsb_keepsStanding _ _ hn _) .read hk

theorem readingBit_finds {s t : State} {cut : State → State} {k : Bool → State → Fetched} (ht : Moved .msb s t)
    (hcut : ∀ c, CutShort s (cut { s with cur := c })) (hk : ∀ v u, Moved .msb s u → Finds .msb s (k v u)) :
    Finds .msb s (readingBit t cut k) := by
  have hpar : t.par = s.par := by rw [ht.cursor_only]
  exact reading_finds ht (hpar ▸ readBitMsb_keepsStanding _ _ _) hcut hk

theorem atLoopHead_finds {m : CursorMode} {s : State} {k : Fetched}
    (hk : s.outLen.toNat < s.par.reqSize.toNat → Finds m s k) : Finds m s (atLoopHead s k) := by
  rcases atLoopHead_cases s k with ⟨_, he⟩ | ⟨hroom, he⟩
  · exact he ▸ raiseStop_finds .full (.read s.cur)
  · rw [he]
    exact hk hroom

/-! ## The symbols of each phase -/

theorem fetchNode_finds {s : State} (hp : s.phase = .hufNode) : Finds .msb s (fetchNode s) := by
  unfold fetchNode
  split
  · exact raiseStop_finds .nodeRange (.read s.cur)
  · have hcut : ∀ c, CutShort s (slotTaken { s with cur := c }) := fun c => .slot c hp
    exact reading_finds (.refl _ s) (readBitsMsb_keepsStanding _ _ 6 _) hcut fun _ _ h1 =>
      readingBit_finds h1 hcut fun _ _ h2 => readingBit_finds h2 hcut fun _ _ h3 => ⟨hp ▸ rfl, h3⟩

theorem fetchPath_finds {s t : State} {sign : Bool} {fuel : Nat} {node : NodeIdx} {path : List Bool}
    (hp : s.phase = .hufSample) (ht : Moved .msb s t) : Finds .msb s (fetchPath sign fuel node path t) := by
  induction fuel generalizing node path t with
  | zero => exact answers_fault _ _
  | succ fuel ih =>
    unfold fetchPath
    cases tableGet t.huf.nodes node.toNat with
    | none => exact answers_fault _ _
    | some n =>
      dsimp only
      split
      · exact ⟨hp ▸ rfl, ht⟩
      · refine readingBit_finds ht .read fun d u hu => ?_
        cases childOf n d with
        | none => exact ⟨hp ▸ rfl, hu⟩
        | some child =>
          dsimp only
          split
          · exact ⟨hp ▸ rfl, hu⟩
          · exact ih hu

theorem sddFull_finds {m : CursorMode} (s : State) : Finds m s (.acted (sddFull s)) := raiseStop_finds _ (.read s.cur)

theorem fetchInit_finds {s : State} (hp : s.phase = .sddInit) : Finds .lsb s (fetchInit s) := by
  unfold fetchInit
  split
  · exact sddFull_finds s
  · exact readingLsb_finds (by decide) fun _ _ h => ⟨hp ▸ rfl, h⟩

theorem fetchWord_finds {s : State} (hp : s.phase = .sddWord) : Finds .lsb s (fetchWord s) := by
  unfold fetchWord
  split
  · exact sddFull_finds s
  · have hw := s.sdd.bitWidth.isLt
    exact readingLsb_finds (by omega) fun _ _ h => ⟨hp ▸ symbolPhase_classifySdd _ _, h⟩

/-- An escape sequence stopped after its seed has the seed written (R244); with room left it goes on. -/
theorem nduSeed_finds {m : CursorMode} {s : State} {c : Cursor} {b : Byte}
    {k : State → Host.Outcome State Fault Refusal} (hp : s.phase = .nduScan)
    (hk : s.outLen.toNat + 1 < s.par.reqSize.toNat → ∀ u, CutShort s u → Finds m s (.acted (k u))) :
    Finds m s (.acted (nduSeed b { s with cur := c } k)) := by
  refine answers_appendThen fun hroom => ?_
  have hcut := CutShort.seed c b hp hroom
  refine answers_unlessFull (fun _ => ⟨_, .full, hcut, rfl⟩) fun hmore => hk ?_ _ hcut
  rwa [appendByte_outLen_toNat hroom] at hmore

theorem fetchEsc_finds {s t : State} (hp : s.phase = .nduScan) (ht : Moved .byte s t) : Finds .byte s (fetchEsc t) := by
  refine readingByte_finds ht fun b u hu => ?_
  obtain ⟨c, rfl⟩ : ∃ c, u = { s with cur := c } := ⟨u.cur, hu.cursor_only⟩
  have hcut : ∀ c, Finds .byte s (.acted (nduSeed b { s with cur := c } (raiseStop .exhausted))) := fun c =>
    nduSeed_finds hp fun _ _ => raiseStop_finds _
  dsimp only
  split
  · -- The seed fills the output: with room left after it there is nothing to do here.
    exact nduSeed_finds hp fun hroom => by omega
  · cases hhi : fetchByte s.inSpace s.par.inLen c with
    | exhausted c1 => exact hcut c1
    | value hi c1 =>
      have h1 := hu.read (fetchByte_keepsStanding _ _ _) hhi
      dsimp only
      cases hlo : fetchByte s.inSpace s.par.inLen c1 with
      | exhausted c2 => exact hcut c2
      | value lo c2 => exact ⟨hp ▸ rfl, h1.read (fetchByte_keepsStanding _ _ _) hlo⟩

theorem fetchScan_finds {s : State} (hp : s.phase = .nduScan) : Finds .byte s (fetchScan s) := by
  refine atLoopHead_finds fun _ => readingByte_finds (.refl _ s) fun b t ht => ?_
  split
  · exact fetchEsc_finds hp ht
  · exact ⟨hp ▸ rfl, ht⟩

/-- A running command reads its next symbol in its mode, or stops. -/
theorem fetchStream_finds {s : State} {m : CursorMode} (hm : modeOf s.phase = some m) : Finds m s (fetchStream s) := by
  unfold fetchStream
  cases hp : s.phase
  all_goals
    rw [hp] at hm
    cases hm
  case lzwCode =>
    have hw := s.lzw.codeWidth.isLt
    exact atLoopHead_finds fun _ =>
      readingLsb_finds (by omega) fun _ _ h => ⟨hp ▸ symbolPhase_classifyLzw _ _, h⟩
  case hufNode => exact fetchNode_finds hp
  case hufSample =>
    exact atLoopHead_finds fun _ => readingBit_finds (.refl _ s) .read fun _ _ h => fetchPath_finds hp h
  case sddHdr => exact readingByte_finds (.refl _ s) fun _ _ h => ⟨hp ▸ rfl, h⟩
  case sddInit => exact fetchInit_finds hp
  case sddWord => exact fetchWord_finds hp
  case nduScan => exact fetchScan_finds hp
  case nduRun => exact readingByte_finds (.refl _ s) fun _ _ h => ⟨hp ▸ rfl, h⟩

/-- What a step of the engine does (R29, R131, R300): an idle engine stays as it is; a running command stops, a symbol cut
short; or it runs a symbol of its phase, its bits read. -/
theorem engineStep_next {s t : State} (h : engineStep s = .next t) :
    (s.phase = .idle ∧ t = s) ∨
    (∃ u cause, CutShort s u ∧ t = stopped cause u) ∨
    ∃ m i c, modeOf s.phase = some m ∧ symbolPhase i = some s.phase ∧ (Stands m s.par s.cur → Stands m s.par c) ∧
      exec i { s with cur := c } = .next t := by
  cases hm : modeOf s.phase with
  | none =>
    have hp : s.phase = .idle := by
      cases hp : s.phase <;> simp [hp, modeOf] at hm ⊢
    simp only [engineStep, fetchStream, hp, Host.Outcome.next.injEq] at h
    exact .inl ⟨hp, h.symm⟩
  | some m =>
    have hfinds := fetchStream_finds hm
    unfold engineStep at h
    cases hf : fetchStream s with
    | run i u =>
      rw [hf] at h hfinds
      obtain ⟨hi, hu⟩ := hfinds
      exact .inr (.inr ⟨m, i, u.cur, rfl, hi, hu.stands, by rw [← hu.cursor_only]; exact h⟩)
    | acted o =>
      rw [hf] at h hfinds
      exact .inr (.inl (hfinds t h))

end Sys2Proof.Proofs
end

section
/-! The control state: which phases follow which, and that a symbol leaves `STATUS`, the parameters and the cursor to the
next read, or ends its command (R20, R23, R33). -/

namespace Sys2Proof.Proofs

open Sys2Proof.Machine Sys2Proof.Laws Sys2Proof.Safety

/-! ## What a symbol does to the control state -/

/-- The phases in which a command may stand after a symbol of a phase that does not end it (R152, R182, R186, R211, R214,
R242, R245). -/
def nextPhases : Phase → List Phase
  | .idle => []
  | .lzwCode => [.lzwCode]
  | .hufNode => [.hufNode, .hufSample]
  | .hufSample => [.hufSample]
  | .sddHdr => [.sddInit]
  | .sddInit => [.sddWord]
  | .sddWord => [.sddWord]
  | .nduScan => [.nduScan, .nduRun]
  | .nduRun => [.nduScan, .nduRun]

/-- No command runs, and none is said to. -/
def Ended (t : State) : Prop := t.phase = .idle ∧ t.status.busy = false

/-- The command goes on from `s` to `t`: in a phase that follows, its cursor as the symbol's bits left it, in mode `LSB` once
the header byte is read (R213). -/
structure GoesOn (s t : State) : Prop where
  phase_mem : t.phase ∈ nextPhases s.phase
  status_eq : t.status = s.status
  par_eq : t.par = s.par
  cur_eq : t.cur = if s.phase = .sddHdr then { s.cur with mode := .lsb } else s.cur

theorem nextPhases_ne_idle {p q : Phase} (h : q ∈ nextPhases p) : q ≠ .idle := by
  rintro rfl
  cases p <;> simp [nextPhases] at h

theorem ne_idle_of_modeOf {p : Phase} {m : CursorMode} (h : modeOf p = some m) : p ≠ .idle := by
  rintro rfl
  cases h

/-- Within a command the mode changes only when the sigma-delta header has been read (R23, R213). -/
theorem modeOf_nextPhases {p q : Phase} (h : q ∈ nextPhases p) :
    modeOf q = if p = .sddHdr then some .lsb else modeOf p := by
  cases p <;> simp [nextPhases] at h
  case hufNode | nduScan | nduRun => rcases h with rfl | rfl <;> rfl
  all_goals subst h; rfl

theorem ended_stopped (cause : StopCause) (s : State) : Ended (stopped cause s) := ⟨rfl, rfl⟩

@[simp] theorem emit_status (str : List Byte) (s : State) : (emit str s).status = s.status := by rw [emit_frame]
@[simp] theorem emit_phase (str : List Byte) (s : State) : (emit str s).phase = s.phase := by rw [emit_frame]
@[simp] theorem emit_par (str : List Byte) (s : State) : (emit str s).par = s.par := by rw [emit_frame]
@[simp] theorem emit_cur (str : List Byte) (s : State) : (emit str s).cur = s.cur := by rw [emit_frame]

/-- A symbol's rule that leaves the status, the parameters and the cursor goes on. -/
theorem goesOn_of_frame {s t : State} {p q : Phase} (hp : s.phase = p) (hq : t.phase = q)
    (hstatus : t.status = s.status) (hpar : t.par = s.par) (hcur : t.cur = s.cur)
    (hmem : q ∈ nextPhases p := by decide) (hhdr : p ≠ .sddHdr := by decide) : Ended t ∨ GoesOn s t :=
  .inr ⟨by rwa [hp, hq], hstatus, hpar, by rw [hp, if_neg hhdr, hcur]⟩

theorem normalCode_goesOn (code start : Code) (again : Bool) (s : State) :
    Answers (fun t => Ended t ∨ GoesOn s t) (normalCode code start again s) :=
  answers_normalCode fun _ _ _ hp =>
    goesOn_of_frame hp ((emit_phase _ s).trans hp) (emit_status _ s) (emit_par _ s) (emit_cur _ s)

theorem nduPhase_mem (count : BitVec 16) : nduPhase count ∈ [Phase.nduScan, .nduRun] := by
  unfold nduPhase
  split <;> simp

theorem execNduPair_goesOn (h l : Nibble) (s : State) :
    Answers (fun t => Ended t ∨ GoesOn s t) (execNduPair h l s) := by
  refine answers_inPhase fun hp => answers_appendThen fun _ =>
    answers_unlessFull (fun _ => .inl (ended_stopped _ _)) fun _ => ?_
  split
  · exact answers_next (goesOn_of_frame (q := .nduScan) hp rfl rfl rfl rfl)
  · refine answers_appendThen fun _ => answers_unlessFull (fun _ => .inl (ended_stopped _ _)) fun _ => ?_
    exact answers_next (goesOn_of_frame hp rfl rfl rfl rfl (nduPhase_mem _))

/-- A stream symbol in its phase ends its command or goes on with it. -/
theorem exec_goesOn {i : Instr} {s : State} (hi : symbolPhase i = some s.phase) :
    Answers (fun t => Ended t ∨ GoesOn s t) (exec i s) := by
  have hstop : ∀ cause, Answers (fun t => Ended t ∨ GoesOn s t) (raiseStop cause s) := fun cause =>
    answers_raiseStop fun _ => .inl (ended_stopped cause s)
  cases i with
  | decLzw | decHuf | decSdd | decNdu => cases hi
  | cursorInit | fetchb | rdbitsL | rdbitM | rdbitsM => cases hi
  | lzwEnd => exact answers_inPhase fun _ => hstop _
  | lzwCorrupt c => exact answers_inPhase fun _ => hstop _
  | lzwReset =>
    exact answers_inPhase fun hp => answers_next (goesOn_of_frame hp hp rfl rfl rfl)
  | lzwLit b => exact normalCode_goesOn _ _ _ s
  | lzwRef c => exact normalCode_goesOn _ _ _ s
  | lzwKwkwk c => exact normalCode_goesOn _ _ _ s
  | hufNode v l r =>
    exact answers_execHufNode (fun _ => .inl (ended_stopped _ _)) (fun _ hp _ => goesOn_of_frame hp hp rfl rfl rfl)
      (fun _ _ hp _ _ => goesOn_of_frame hp hp rfl rfl rfl)
      (fun _ hp _ _ => answers_checkRoot (.inl (ended_stopped _ _)) fun _ _ _ _ =>
        goesOn_of_frame (q := .hufSample) hp rfl rfl rfl rfl)
  | hufSample sign path =>
    exact answers_execHufSample (fun _ => .inl (ended_stopped _ _)) fun _ _ hp =>
      goesOn_of_frame hp hp rfl rfl rfl
  | sddHdr m =>
    exact answers_inPhase fun hp => answers_next (.inr ⟨by simp [hp, nextPhases], rfl, rfl, by rw [if_pos hp]⟩)
  | sddInit a =>
    refine answers_inPhase fun hp => ?_
    split
    · exact answers_next (goesOn_of_frame (q := .sddWord) hp rfl rfl rfl rfl)
    · exact answers_appendThen fun _ =>
        answers_next (goesOn_of_frame (q := .sddWord) hp rfl rfl rfl rfl)
  | sddEsc =>
    exact answers_inPhase fun hp => answers_next (goesOn_of_frame hp hp rfl rfl rfl)
  | sddHold v =>
    exact answers_inPhase fun hp => answers_appendThen fun _ =>
      answers_next (goesOn_of_frame hp hp rfl rfl rfl)
  | sddDelta v =>
    exact answers_inPhase fun hp => answers_appendThen fun _ =>
      answers_next (goesOn_of_frame hp hp rfl rfl rfl)
  | nduLit b =>
    exact answers_inPhase fun hp => answers_appendThen fun _ =>
      answers_next (goesOn_of_frame hp hp rfl rfl rfl)
  | nduEsc seed count =>
    exact answers_inPhase fun hp => answers_appendThen fun _ =>
      answers_unlessFull (fun _ => .inl (ended_stopped _ _)) fun _ =>
        answers_next (goesOn_of_frame hp rfl rfl rfl rfl (nduPhase_mem count))
  | nduPair h l => exact execNduPair_goesOn h l s

/-- A step of the engine leaves an idle block as it is; of a running command it is the end, or it goes on after a read in the
command's mode. -/
theorem engineStep_control {s t : State} (h : engineStep s = .next t) :
    (s.phase = .idle ∧ t = s) ∨ Ended t ∨
      ∃ m c, modeOf s.phase = some m ∧ (Stands m s.par s.cur → Stands m s.par c) ∧ GoesOn { s with cur := c } t := by
  rcases engineStep_next h with hidle | ⟨u, cause, _, rfl⟩ | ⟨m, i, c, hm, hi, hc, he⟩
  · exact .inl hidle
  · exact .inr (.inl (ended_stopped cause u))
  · rcases exec_goesOn (s := { s with cur := c }) hi t he with hend | hgo
    · exact .inr (.inl hend)
    · exact .inr (.inr ⟨m, c, hm, hc, hgo⟩)

/-! ## `BUSY` exactly while a command runs -/

theorem statusInv_of_ended {t : State} (h : Ended t) : StatusInv t := by
  obtain ⟨hp, hb⟩ := h
  simp [StatusInv, hp, hb]

/-- A launched command is `BUSY` in its first phase (R45, R260). -/
theorem statusInv_launched {s start : State}
    (hstart : start = startLzw s ∨ start = startHuf s ∨ start = startSdd s ∨ start = startNdu s) : StatusInv start := by
  rcases hstart with rfl | rfl | rfl | rfl <;> simp [StatusInv, statusAtIssue]

theorem Accessed.statusInv {s t : State} (hs : StatusInv s) (h : Accessed s t) : StatusInv t := by
  cases h with
  | launched start _ hstart => exact statusInv_launched hstart
  | reset => exact statusInv_of_ended ⟨rfl, rfl⟩
  | ignored | setParams | readWord | placed | bound | wrote => exact hs

theorem engineStep_statusInv {s : State} (hs : StatusInv s) : Answers StatusInv (engineStep s) := by
  intro t ht
  rcases engineStep_control ht with ⟨_, rfl⟩ | hend | ⟨m, c, hm, _, hgo⟩
  · exact hs
  · exact statusInv_of_ended hend
  · obtain ⟨hbusy, hdone⟩ := hs
    have hp : s.phase ≠ .idle := by
      intro h
      simp [h, modeOf] at hm
    rw [StatusInv, hgo.status_eq]
    exact ⟨iff_of_true (hbusy.2 (ne_idle_of_modeOf hm)) (nextPhases_ne_idle hgo.phase_mem), hdone⟩

/-- Settles O48: no host access changes `STATUS` but a launch and a reset; the engine's step keeps it or stops. -/
theorem stepKeepsStatus : Obligations.StepKeepsStatus := fun _ _ hs hstep =>
  step_keeps (fun _ _ h => h) (fun _ _ h ha => ha.statusInv h) (fun _ h => engineStep_statusInv h) hs hstep

/-! ## The cursor -/

theorem stands_initCursor {m : CursorMode} {par : Params} {start : Word}
    (h : start.toNat ≤ par.inLen.toNat ∨ start = par.startOffset) : Stands m par (initCursor start m) where
  mode_eq := rfl
  buffer := by cases m <;> simp [BufferOk, initCursor]
  fresh := rfl
  inside := h

theorem cursorInv_launched {s start : State}
    (hstart : start = startLzw s ∨ start = startHuf s ∨ start = startSdd s ∨ start = startNdu s) : CursorInv start := by
  refine cursorInv_iff.2 fun _ => ?_
  rcases hstart with rfl | rfl | rfl | rfl
  · exact ⟨.lsb, rfl, stands_initCursor (.inr rfl)⟩
  · exact ⟨.msb, rfl, stands_initCursor (.inr rfl)⟩
  · exact ⟨.byte, rfl, stands_initCursor (.inr rfl)⟩
  · exact ⟨.byte, rfl, stands_initCursor (.inl (Nat.zero_le _))⟩

/-- An access that an idle block alone accepts meets no running command. -/
theorem phase_idle_of_not_busy {s : State} (hs : StatusInv s) (hidle : s.status.busy = false) : s.phase = .idle := by
  by_contra hp
  rw [hs.1.2 hp] at hidle
  cases hidle

theorem Accessed.cursorInv {s t : State} (hs : StatusInv s) (hc : CursorInv s) (h : Accessed s t) : CursorInv t := by
  cases h with
  | launched start _ hstart => exact cursorInv_launched hstart
  | setParams par hidle => exact cursorInv_idle (phase_idle_of_not_busy hs hidle)
  | reset => exact cursorInv_idle rfl
  | ignored | readWord | placed | bound | wrote => exact hc

/-- With the header byte read the empty buffer serves the bit region (R213). -/
theorem Stands.enter_region {par : Params} {c : Cursor} (h : Stands .byte par c) :
    Stands .lsb par { c with mode := .lsb } where
  mode_eq := rfl
  buffer := by
    obtain ⟨havail, hbuf⟩ := (bufferOk_byte h.mode_eq).1 h.buffer
    exact (bufferOk_lsb rfl).2 (by simp [havail, hbuf])
  fresh := h.fresh
  inside := h.inside

theorem GoesOn.cursorInv {s t : State} {m : CursorMode} (hm : modeOf s.phase = some m) (hs : Stands m s.par s.cur)
    (h : GoesOn s t) : CursorInv t := by
  refine cursorInv_iff.2 fun _ => ?_
  rw [modeOf_nextPhases h.phase_mem, h.par_eq, h.cur_eq]
  by_cases hp : s.phase = .sddHdr
  · rw [hp] at hm
    cases hm
    rw [if_pos hp, if_pos hp]
    exact ⟨.lsb, rfl, hs.enter_region⟩
  · rw [if_neg hp, if_neg hp]
    exact ⟨m, hm, hs⟩

theorem engineStep_cursorInv {s : State} (hs : CursorInv s) : Answers CursorInv (engineStep s) := by
  intro t ht
  rcases engineStep_control ht with ⟨_, rfl⟩ | hend | ⟨m, c, hm, hc, hgo⟩
  · exact hs
  · exact cursorInv_idle hend.1
  · obtain ⟨m', hm', hst⟩ := cursorInv_iff.1 hs (ne_idle_of_modeOf hm)
    cases hm.symm.trans hm'
    exact hgo.cursorInv (s := { s with cur := c }) hm (hc hst)

/-- Settles O49: a read leaves the cursor as its mode keeps it, a symbol's rule leaves it to the next phase of the same mode,
and the one change of mode, after the sigma-delta header, meets an empty buffer. -/
theorem stepKeepsCursor : Obligations.StepKeepsCursor := by
  intro s t hstatus hcursor hstep
  exact (step_keeps (P := fun s => StatusInv s ∧ CursorInv s) (fun _ _ h => h)
    (fun _ _ h ha => ⟨ha.statusInv h.1, ha.cursorInv h.1 h.2⟩)
    (fun _ h u hu => ⟨engineStep_statusInv h.1 u hu, engineStep_cursorInv h.2 u hu⟩) ⟨hstatus, hcursor⟩ hstep).2

end Sys2Proof.Proofs
end

section
/-! The canonical form of the spaces and the tables: every write of the machine to one of them keeps it (R37, R39, R41). -/

namespace Sys2Proof.Proofs

open Sys2Proof.Machine Sys2Proof.Laws Sys2Proof.Safety

/-! ## The writes -/

theorem writeOutByte_storageInv {s : State} (i : Nat) (v : Byte) (h : StorageInv s) : StorageInv (writeOutByte i v s) :=
  ⟨h.1, memWrite_wf h.2.1, h.2.2⟩

theorem appendByte_storageInv {s : State} (v : Byte) (h : StorageInv s) : StorageInv (appendByte v s) :=
  writeOutByte_storageInv s.outLen.toNat v h

theorem insertEntry_dict_wf {first : Byte} {out : State} {u : LzwUnit} (h : u.dict.wf = true) :
    (insertEntry first out u).dict.wf = true := by
  rcases insertEntry_cases first out u with ⟨_, _, he⟩ | ⟨_, he⟩
  · rw [he]
    exact tableSet_wf h
  · rwa [he]

theorem updateNode_wf {nodes : Table Node} {i : NodeIdx} {f : Node → Node} (h : nodes.wf = true) :
    (updateNode nodes i f).wf = true := by
  unfold updateNode
  split
  · exact h
  · exact tableSet_wf h

theorem returnBuild_wf {j : NodeIdx} {nodes : Table Node} {stack : List BuildFrame} (h : nodes.wf = true) :
    (returnBuild j nodes stack).1.wf = true := by
  induction j, nodes, stack using returnBuild.induct with
  | case1 => exact h
  | case2 => exact updateNode_wf h
  | case3 j nodes i rest ih => exact ih (updateNode_wf h)
  | case4 j nodes i rest ih => exact ih (updateNode_wf h)

/-! ## The symbols -/

theorem normalCode_storageInv {s : State} (code start : Code) (again : Bool) (h : StorageInv s) :
    Answers StorageInv (normalCode code start again s) := by
  obtain ⟨hin, hout, hdict, hnodes⟩ := h
  refine answers_normalCode fun str emitted first _ => ⟨?_, emit_wf hout, insertEntry_dict_wf hdict, ?_⟩
  all_goals
    rw [emit_frame]
    assumption

theorem execHufNode_storageInv {s : State} (v : BitVec 7) (l r : Bool) (h : StorageInv s) :
    Answers StorageInv (execHufNode v l r s) := by
  obtain ⟨hin, hout, hdict, hnodes⟩ := h
  have halloc : (allocNode v s.huf).nodes.wf = true := tableSet_wf hnodes
  have hreturn : ∀ nodes above,
      returnBuild (s.huf.nodeCount.setWidth 8) (allocNode v s.huf).nodes s.huf.stack = (nodes, above) →
      nodes.wf = true := by
    intro nodes above he
    have := returnBuild_wf (j := s.huf.nodeCount.setWidth 8) (stack := s.huf.stack) halloc
    rwa [he] at this
  refine answers_execHufNode (fun _ => ⟨hin, hout, hdict, hnodes⟩) (fun _ _ _ => ⟨hin, hout, hdict, halloc⟩)
    (fun nodes _ _ _ he => ⟨hin, hout, hdict, hreturn nodes _ he⟩) (fun nodes _ _ he => ?_)
  have hnew := hreturn nodes _ he
  exact answers_checkRoot ⟨hin, hout, hdict, hnew⟩ fun _ _ _ _ => ⟨hin, hout, hdict, hnew⟩

theorem execNduPair_storageInv {s : State} (high low : Nibble) (h : StorageInv s) :
    Answers StorageInv (execNduPair high low s) := by
  have happ : ∀ v, StorageInv (appendByte v s) := fun v => appendByte_storageInv v h
  refine answers_inPhase fun _ => answers_appendThen fun _ => answers_unlessFull (fun _ => happ _) fun _ => ?_
  split
  · exact answers_next (happ _)
  · exact answers_appendThen fun _ => answers_unlessFull (fun _ => appendByte_storageInv _ (happ _)) fun _ =>
      answers_next (appendByte_storageInv _ (happ _))

/-- A stream symbol keeps the canonical form. -/
theorem exec_storageInv {i : Instr} {p : Phase} {s : State} (hi : symbolPhase i = some p) (h : StorageInv s) :
    Answers StorageInv (exec i s) := by
  have happ : ∀ v, StorageInv (appendByte v s) := fun v => appendByte_storageInv v h
  have hstop : ∀ cause, Answers StorageInv (raiseStop cause s) := fun cause => answers_raiseStop fun _ => h
  cases i with
  | decLzw | decHuf | decSdd | decNdu => cases hi
  | cursorInit | fetchb | rdbitsL | rdbitM | rdbitsM => cases hi
  | lzwEnd => exact answers_inPhase fun _ => hstop _
  | lzwCorrupt c => exact answers_inPhase fun _ => hstop _
  | lzwReset => exact answers_inPhase fun _ => answers_next h
  | lzwLit b => exact normalCode_storageInv _ _ _ h
  | lzwRef c => exact normalCode_storageInv _ _ _ h
  | lzwKwkwk c => exact normalCode_storageInv _ _ _ h
  | hufNode v l r => exact execHufNode_storageInv v l r h
  | hufSample sign path => exact answers_execHufSample (fun _ => h) fun _ sum _ => happ sum
  | sddHdr m => exact answers_inPhase fun _ => answers_next h
  | sddInit a =>
    refine answers_inPhase fun _ => ?_
    split
    · exact answers_next h
    · exact answers_appendThen fun _ => answers_next (happ a)
  | sddEsc => exact answers_inPhase fun _ => answers_next h
  | sddHold v => exact answers_inPhase fun _ => answers_appendThen fun _ => answers_next (happ _)
  | sddDelta v => exact answers_inPhase fun _ => answers_appendThen fun _ => answers_next (happ _)
  | nduLit b => exact answers_inPhase fun _ => answers_appendThen fun _ => answers_next (happ b)
  | nduEsc seed count =>
    exact answers_inPhase fun _ => answers_appendThen fun _ =>
      answers_unlessFull (fun _ => happ seed) fun _ => answers_next (happ seed)
  | nduPair high low => exact execNduPair_storageInv high low h

/-! ## The step -/

theorem CutShort.storageInv {s u : State} (hs : StorageInv s) (h : CutShort s u) : StorageInv u := by
  cases h with
  | read c => exact hs
  | slot c _ => exact ⟨hs.1, hs.2.1, hs.2.2.1, tableSet_wf hs.2.2.2⟩
  | seed c b _ _ => exact appendByte_storageInv (s := s) b hs

theorem engineStep_storageInv {s : State} (hs : StorageInv s) : Answers StorageInv (engineStep s) := by
  intro t ht
  rcases engineStep_next ht with ⟨_, rfl⟩ | ⟨u, cause, hcut, rfl⟩ | ⟨m, i, c, _, hi, _, he⟩
  · exact hs
  · have hu : StorageInv u := hcut.storageInv hs
    exact hu
  · exact exec_storageInv (s := { s with cur := c }) hi hs t he

theorem Accessed.storageInv {s t : State} (hs : StorageInv s) (h : Accessed s t) : StorageInv t := by
  cases h with
  | launched start _ hstart => rcases hstart with rfl | rfl | rfl | rfl <;> exact hs
  | placed bytes _ => exact ⟨memWriteAll_wf hs.1, hs.2⟩
  | wrote i v => exact writeOutByte_storageInv i v hs
  | reset => exact ⟨hs.1, hs.2.1, rfl, rfl⟩
  | ignored | setParams | readWord | bound => exact hs

/-- Settles O47: a symbol or a stop writes the spaces and the tables only by the writes that keep the form, and so does the
host. -/
theorem stepKeepsStorage : Obligations.StepKeepsStorage := fun _ _ hs hstep =>
  step_keeps (fun _ _ h => h) (fun _ _ h ha => ha.storageInv h) (fun _ h => engineStep_storageInv h) hs hstep

end Sys2Proof.Proofs
end

section
/-! The Huffman unit: an allocated slot links to later slots alone, and the waiting nodes stand in order, while a tree is
built and while its samples are read (R40, R182, R185, R194). -/

namespace Sys2Proof.Proofs

open Sys2Proof.Machine Sys2Proof.Laws Sys2Proof.Safety

/-! ## The construction stack -/

/-- The top of the stack is the latest of the waiting nodes. -/
theorem stackOrdered_cons {f : BuildFrame} {rest : List BuildFrame} {count : Nat} :
    StackOrdered (f :: rest) count ↔ f.node.toNat < count ∧ StackOrdered rest f.node.toNat := by
  simp only [StackOrdered, List.map_cons, List.pairwise_cons, List.forall_mem_cons, List.forall_mem_map]
  constructor
  · rintro ⟨⟨hbelow, hpair⟩, htop, _⟩
    exact ⟨htop, hpair, hbelow⟩
  · rintro ⟨htop, hpair, hbelow⟩
    exact ⟨⟨hbelow, hpair⟩, htop, fun g hg => lt_trans (hbelow g hg) htop⟩

theorem stackOrdered_mono {stack : List BuildFrame} {n m : Nat} (h : StackOrdered stack n) (hnm : n ≤ m) :
    StackOrdered stack m :=
  ⟨h.1, fun f hf => lt_of_lt_of_le (h.2 f hf) hnm⟩

/-! ## The node table -/

/-- A new slot has no links. -/
theorem nodesLinked_alloc {nodes : Table Node} {count : Nat} (v : BitVec 7) (h : NodesLinked nodes count) :
    NodesLinked (tableSet nodes count { left := none, right := none, value := v }) (count + 1) := by
  intro i hi
  by_cases hnew : i = count
  · subst hnew
    refine ⟨_, tableGet_tableSet_same, fun d child hchild => ?_⟩
    cases d <;> cases hchild
  · obtain ⟨n, hn, hlinks⟩ := h i (by omega)
    refine ⟨n, by rw [tableGet_tableSet_other hnew, hn], fun d child hchild => ?_⟩
    obtain ⟨hlo, hhi⟩ := hlinks d child hchild
    exact ⟨hlo, by omega⟩

/-- Linking a slot to a later one keeps the links forward. -/
theorem nodesLinked_updateNode {nodes : Table Node} {count : Nat} {i j : NodeIdx} {f : Node → Node}
    (h : NodesLinked nodes count) (hij : i.toNat < j.toNat) (hj : j.toNat < count)
    (hf : ∀ n d child, childOf (f n) d = some child → childOf n d = some child ∨ child = j) :
    NodesLinked (updateNode nodes i f) count := by
  intro k hk
  obtain ⟨n, hn, hlinks⟩ := h k hk
  by_cases hki : k = i.toNat
  · subst hki
    refine ⟨f n, by rw [tableGet_updateNode_same, hn]; rfl, fun d child hchild => ?_⟩
    rcases hf n d child hchild with hold | rfl
    · exact hlinks d child hold
    · exact ⟨hij, hj⟩
  · exact ⟨n, by rw [tableGet_updateNode_other hki, hn], hlinks⟩

theorem childOf_setLeft (j : NodeIdx) (n : Node) (d : Bool) (child : NodeIdx)
    (h : childOf { n with left := some j } d = some child) : childOf n d = some child ∨ child = j := by
  cases d with
  | false => exact .inr (Option.some.inj h).symm
  | true => exact .inl h

theorem childOf_setRight (j : NodeIdx) (n : Node) (d : Bool) (child : NodeIdx)
    (h : childOf { n with right := some j } d = some child) : childOf n d = some child ∨ child = j := by
  cases d with
  | false => exact .inl h
  | true => exact .inr (Option.some.inj h).symm

/-- The return up the stack links each waiting node to a later slot, and leaves an ordered stack if a node still waits
(R182). -/
theorem returnBuild_linked {j : NodeIdx} {nodes : Table Node} {stack : List BuildFrame} {count : Nat}
    (hnodes : NodesLinked nodes count) (hj : j.toNat < count) (hstack : StackOrdered stack j.toNat) :
    NodesLinked (returnBuild j nodes stack).1 count ∧
      ∀ above, (returnBuild j nodes stack).2 = some above → above ≠ [] ∧ StackOrdered above j.toNat := by
  induction j, nodes, stack using returnBuild.induct with
  | case1 j nodes => exact ⟨hnodes, fun _ h => nomatch h⟩
  | case2 j nodes i rest =>
    obtain ⟨hij, hrest⟩ := stackOrdered_cons.1 hstack
    refine ⟨nodesLinked_updateNode hnodes hij hj (childOf_setLeft j), ?_⟩
    rintro _ ⟨⟩
    exact ⟨List.cons_ne_nil _ _, stackOrdered_cons.2 ⟨hij, hrest⟩⟩
  | case3 j nodes i rest ih =>
    obtain ⟨hij, hrest⟩ := stackOrdered_cons.1 hstack
    obtain ⟨hlinked, habove⟩ :=
      ih (nodesLinked_updateNode hnodes hij hj (childOf_setLeft j)) (lt_trans hij hj) hrest
    exact ⟨hlinked, fun above h => ⟨(habove above h).1, stackOrdered_mono (habove above h).2 (le_of_lt hij)⟩⟩
  | case4 j nodes i rest ih =>
    obtain ⟨hij, hrest⟩ := stackOrdered_cons.1 hstack
    obtain ⟨hlinked, habove⟩ :=
      ih (nodesLinked_updateNode hnodes hij hj (childOf_setRight j)) (lt_trans hij hj) hrest
    exact ⟨hlinked, fun above h => ⟨(habove above h).1, stackOrdered_mono (habove above h).2 (le_of_lt hij)⟩⟩

/-! ## The symbols -/

theorem hufInv_elsewhere {t : State} (h1 : t.phase ≠ .hufNode) (h2 : t.phase ≠ .hufSample) : HufInv t :=
  ⟨fun h => absurd h h1, fun h => absurd h h2⟩

theorem hufInv_idle {t : State} (h : t.phase = .idle) : HufInv t :=
  hufInv_elsewhere (by simp [h]) (by simp [h])

theorem nodeCount_succ {count : BitVec 9} (h : count.toNat < 256) : (count + 1).toNat = count.toNat + 1 := by
  rw [BitVec.toNat_add, show (1 : BitVec 9).toNat = 1 from rfl]
  omega

/-- In the build, with a slot more than `count` allocated, a node waits. -/
theorem hufInv_building {t : State} {count : BitVec 9} (hp : t.phase = .hufNode) (hcount : t.huf.nodeCount = count + 1)
    (hlt : count.toNat < 256) (hnodes : NodesLinked t.huf.nodes (count.toNat + 1))
    (hstack : StackOrdered t.huf.stack (count.toNat + 1)) (hwaits : t.huf.stack ≠ []) : HufInv t := by
  have hsucc := nodeCount_succ hlt
  have hne : count + 1 ≠ 0 := fun h0 => absurd (hsucc.symm.trans (congrArg BitVec.toNat h0)) (Nat.succ_ne_zero _)
  refine ⟨fun _ => ?_, fun h => by simp [hp] at h⟩
  rw [hcount, hsucc]
  exact ⟨hlt, hnodes, hstack, iff_of_false hwaits hne⟩

theorem slot_toNat {count : BitVec 9} (h : count.toNat < 256) : (count.setWidth 8 : NodeIdx).toNat = count.toNat := by
  rw [BitVec.toNat_setWidth]
  exact Nat.mod_eq_of_lt h

/-- A node record keeps the build's invariant, and the record that completes the root leads to its samples (R182, R185). -/
theorem execHufNode_hufInv {s : State} (v : BitVec 7) (l r : Bool) (hs : HufInv s) :
    Answers HufInv (execHufNode v l r s) := by
  have hbuild : s.phase = .hufNode → s.huf.nodeCount.toNat < Config.hufNodeCap →
      NodesLinked (allocNode v s.huf).nodes (s.huf.nodeCount.toNat + 1) ∧
      StackOrdered s.huf.stack (s.huf.nodeCount.setWidth 8 : NodeIdx).toNat := by
    intro hp hlt
    obtain ⟨_, hnodes, hstack, _⟩ := hs.1 hp
    rw [slot_toNat hlt]
    exact ⟨nodesLinked_alloc v hnodes, hstack⟩
  have hreturn : ∀ {nodes above}, s.phase = .hufNode → s.huf.nodeCount.toNat < Config.hufNodeCap →
      returnBuild (s.huf.nodeCount.setWidth 8) (allocNode v s.huf).nodes s.huf.stack = (nodes, above) →
      NodesLinked nodes (s.huf.nodeCount.toNat + 1) ∧
        ∀ stack, above = some stack → stack ≠ [] ∧ StackOrdered stack s.huf.nodeCount.toNat := by
    intro nodes above hp hlt he
    obtain ⟨hnodes, hstack⟩ := hbuild hp hlt
    have h := returnBuild_linked hnodes (by rw [slot_toNat hlt]; omega) hstack
    rwa [he, slot_toNat hlt] at h
  refine answers_execHufNode (fun _ => hufInv_idle rfl) (fun pending hp hlt => ?_) (fun nodes stack hp hlt he => ?_)
    (fun nodes hp hlt he => answers_checkRoot (hufInv_idle rfl) fun root hroot hleft hright => ?_)
  · obtain ⟨hnodes, hstack⟩ := hbuild hp hlt
    exact hufInv_building hp rfl hlt hnodes (stackOrdered_cons.2 ⟨by rw [slot_toNat hlt]; omega, hstack⟩)
      (List.cons_ne_nil _ _)
  · obtain ⟨hnodes, habove⟩ := hreturn hp hlt he
    obtain ⟨hwaits, hordered⟩ := habove stack rfl
    exact hufInv_building hp rfl hlt hnodes (stackOrdered_mono hordered (Nat.le_succ _)) hwaits
  · obtain ⟨hnodes, _⟩ := hreturn hp hlt he
    refine ⟨fun h => (nomatch h), fun _ => ?_⟩
    rw [allocNode_nodeCount, nodeCount_succ hlt]
    exact ⟨Nat.le_add_left 1 _, hlt, hnodes, root, hroot, hleft, hright⟩

/-- A sample code leaves the tree as it is (R187). -/
theorem execHufSample_hufInv {s : State} (sign : Bool) (path : List Bool) (hs : HufInv s) :
    Answers HufInv (execHufSample sign path s) :=
  answers_execHufSample (fun _ => hufInv_idle rfl) fun _ _ _ => hs

theorem nextPhases_huf {p q : Phase} (h : q ∈ nextPhases p) (hp1 : p ≠ .hufNode) (hp2 : p ≠ .hufSample) :
    q ≠ .hufNode ∧ q ≠ .hufSample := by
  cases p <;> simp_all [nextPhases]
  all_goals rcases h with rfl | rfl <;> decide

/-- A stream symbol in its phase keeps the Huffman unit's invariant: its own two by their rules, and no other symbol leads to
one of its phases. -/
theorem exec_hufInv {i : Instr} {s : State} (hi : symbolPhase i = some s.phase) (hs : HufInv s) :
    Answers HufInv (exec i s) := by
  by_cases hnode : s.phase = .hufNode
  · rw [hnode] at hi
    cases i <;> cases hi
    exact execHufNode_hufInv _ _ _ hs
  · by_cases hsample : s.phase = .hufSample
    · rw [hsample] at hi
      cases i <;> cases hi
      exact execHufSample_hufInv _ _ hs
    · intro t ht
      rcases exec_goesOn hi t ht with hend | hgo
      · exact hufInv_idle hend.1
      · obtain ⟨h1, h2⟩ := nextPhases_huf hgo.phase_mem hnode hsample
        exact hufInv_elsewhere h1 h2

/-! ## The step -/

theorem engineStep_hufInv {s : State} (hs : HufInv s) : Answers HufInv (engineStep s) := by
  intro t ht
  rcases engineStep_next ht with ⟨_, rfl⟩ | ⟨u, cause, _, rfl⟩ | ⟨m, i, c, _, hi, _, he⟩
  · exact hs
  · exact hufInv_idle rfl
  · exact exec_hufInv (s := { s with cur := c }) hi hs t he

/-- At the start of `DEC_HUF` no slot is allocated and no node waits (R40, R181). -/
theorem startHuf_hufInv (s : State) : HufInv (startHuf s) :=
  ⟨fun _ => ⟨Nat.zero_le _, fun _ hi => absurd hi (Nat.not_lt_zero _),
    ⟨.nil, fun _ hf => absurd hf List.not_mem_nil⟩, iff_of_true rfl rfl⟩, fun h => nomatch h⟩

theorem Accessed.hufInv {s t : State} (hs : HufInv s) (h : Accessed s t) : HufInv t := by
  cases h with
  | launched start _ hstart =>
    rcases hstart with rfl | rfl | rfl | rfl
    · exact hufInv_elsewhere (by simp) (by simp)
    · exact startHuf_hufInv s
    · exact hufInv_elsewhere (by simp) (by simp)
    · exact hufInv_elsewhere (by simp) (by simp)
  | reset => exact hufInv_idle rfl
  | ignored | setParams | readWord | placed | bound | wrote => exact hs

/-- Settles O52: a record allocates a slot without links and then links slots to later ones alone, up the ordered stack; no
other step touches the tree. -/
theorem stepKeepsHuffman : Obligations.StepKeepsHuffman := fun _ _ hs hstep =>
  step_keeps (fun _ _ h => h) (fun _ _ h ha => ha.hufInv h) (fun _ h => engineStep_hufInv h) hs hstep

end Sys2Proof.Proofs
end

section
/-! The bits ahead decode to the symbol that the engine reads: each phase's reads take, one after another, the fields that the
decoder splits off (R95, R102, R109). -/

namespace Sys2Proof.Proofs

open Sys2Proof.Machine Sys2Proof.Laws Sys2Proof.Safety

/-! ## A symbol found -/

/-- From the cursor `c` the engine finds the symbol `i` by moving the cursor alone, the bits `rest` left ahead. -/
def Found (s : State) (c : Cursor) (i : Instr) (rest : List Bool) (f : Fetched) : Prop :=
  ∃ c', f = .run i { s with cur := c' } ∧ Reads s.inSpace s.par.inLen c rest c'

theorem found_run {s : State} {c c' : Cursor} {i j : Instr} {rest : List Bool}
    (h : Reads s.inSpace s.par.inLen c rest c') (hij : i = j) : Found s c i rest (.run j { s with cur := c' }) :=
  ⟨c', by rw [hij], h⟩

theorem Found.after {s : State} {c c1 : Cursor} {i : Instr} {r rest : List Bool} {f : Fetched}
    (h : Found s c1 i rest f) (hr : Reads s.inSpace s.par.inLen c r c1) : Found s c i rest f := by
  obtain ⟨c', hf, h'⟩ := h
  exact ⟨c', hf, hr.trans h'⟩

/-- A read whose bits are ahead goes on with their value. -/
theorem reading_found {α : Type} {s : State} {c : Cursor} {n : Nat} {d : Delivery α} {v : α} {cut : State → State}
    {k : α → State → Fetched} {i : Instr} {rest : List Bool} (h : Takes s.inSpace s.par.inLen c n d v)
    (hn : n ≤ (ahead s.inSpace s.par.inLen c).length)
    (hk : ∀ c', Reads s.inSpace s.par.inLen c ((ahead s.inSpace s.par.inLen c).drop n) c' →
      Found s c i rest (k v { s with cur := c' })) : Found s c i rest (reading { s with cur := c } d cut k) := by
  obtain ⟨c', rfl, hr⟩ := h.value hn
  exact hk c' hr

theorem atLoopHead_found {s : State} {c : Cursor} {i : Instr} {rest : List Bool} {k : Fetched}
    (hroom : s.outLen.toNat < s.par.reqSize.toNat) (hk : Found s c i rest k) : Found s c i rest (atLoopHead s k) := by
  rcases atLoopHead_cases s k with ⟨hfull, _⟩ | ⟨_, he⟩
  · omega
  · rwa [he]

/-! ## The parts of a field -/

theorem ofMsb_lt (l : List Bool) : ofMsb l < 2 ^ l.length := by
  induction l with
  | nil => decide
  | cons d l ih =>
    have hd : d.toNat ≤ 1 := Bool.toNat_le d
    rw [ofMsb_cons, List.length_cons, Nat.pow_succ]
    nlinarith

theorem ofMsb_take_add {a b : Nat} {l : List Bool} (h : a + b ≤ l.length) :
    ofMsb (l.take (a + b)) = ofMsb (l.take a) * 2 ^ b + ofMsb ((l.drop a).take b) := by
  rw [List.take_add, ofMsb_append, List.length_take, List.length_drop, Nat.min_eq_left (by omega)]

/-- A run count is its two bytes, the high one first (R105). -/
theorem runCount_ofMsb {l : List Bool} (h : 16 ≤ l.length) :
    BitVec.ofNat 16 (ofMsb (l.take 16)) =
      runCount (BitVec.ofNat 8 (ofMsb (l.take 8))) (BitVec.ofNat 8 (ofMsb ((l.drop 8).take 8))) := by
  have hhi : ofMsb (l.take 8) < 2 ^ 8 := by simpa [Nat.min_eq_left (show 8 ≤ l.length by omega)] using ofMsb_lt (l.take 8)
  have hlo : ofMsb ((l.drop 8).take 8) < 2 ^ 8 := by
    simpa [Nat.min_eq_left (show 8 ≤ l.length - 8 by omega)] using ofMsb_lt ((l.drop 8).take 8)
  apply BitVec.eq_of_toNat_eq
  rw [ofMsb_take_add (a := 8) (b := 8) h, runCount, BitVec.toNat_or, BitVec.toNat_shiftLeft, BitVec.toNat_setWidth,
    BitVec.toNat_setWidth, BitVec.toNat_ofNat, BitVec.toNat_ofNat, BitVec.toNat_ofNat, Nat.mod_eq_of_lt hhi,
    Nat.mod_eq_of_lt hlo, Nat.shiftLeft_eq]
  rw [Nat.mod_eq_of_lt (show ofMsb (l.take 8) < 2 ^ 16 by omega),
    Nat.mod_eq_of_lt (show ofMsb ((l.drop 8).take 8) < 2 ^ 16 by omega),
    Nat.mod_eq_of_lt (show ofMsb (l.take 8) * 2 ^ 8 < 2 ^ 16 by omega), ← Nat.shiftLeft_eq,
    ← Nat.shiftLeft_add_eq_or_of_lt hlo, Nat.shiftLeft_eq]
  omega

/-- The nibbles of a byte, the high one first (R104). -/
theorem nibbles_ofMsb {l : List Bool} (h : l.length = 8) :
    BitVec.ofNat 4 (ofMsb (l.take 4)) = (BitVec.ofNat 8 (ofMsb l)).extractLsb' 4 4 ∧
    BitVec.ofNat 4 (ofMsb (l.drop 4)) = (BitVec.ofNat 8 (ofMsb l)).extractLsb' 0 4 := by
  have hsplit : ofMsb l = ofMsb (l.take 4) * 2 ^ 4 + ofMsb (l.drop 4) := by
    have := ofMsb_append (l.take 4) (l.drop 4)
    rwa [List.take_append_drop, List.length_drop, h] at this
  have hhi : ofMsb (l.take 4) < 2 ^ 4 := by simpa [h] using ofMsb_lt (l.take 4)
  have hlo : ofMsb (l.drop 4) < 2 ^ 4 := by simpa [h] using ofMsb_lt (l.drop 4)
  constructor
  · apply BitVec.eq_of_toNat_eq
    rw [BitVec.extractLsb'_toNat, BitVec.toNat_ofNat, BitVec.toNat_ofNat, hsplit, Nat.shiftRight_eq_div_pow]
    omega
  · apply BitVec.eq_of_toNat_eq
    rw [BitVec.extractLsb'_toNat, BitVec.toNat_ofNat, BitVec.toNat_ofNat, hsplit, Nat.shiftRight_eq_div_pow]
    omega

theorem getD_take_headD {l : List Bool} {k n : Nat} (h : k < n) : (l.take n).getD k false = (l.drop k).headD false := by
  rw [List.getD_eq_getElem?_getD, List.getElem?_take_of_lt h, List.headD_eq_head?_getD, List.head?_drop]

/-! ## The formats -/

section
variable {s : State} {i : Instr} {rest : List Bool}

theorem fetchLzw_found (hm : s.cur.mode = .lsb) (hb : BufferOk s.cur) (hroom : s.outLen.toNat < s.par.reqSize.toNat)
    (hdec : decode (.lzw s.lzw.codeWidth.toNat s.lzw.nextIndex) (aheadOf s) = .ok i rest) :
    Found s s.cur i rest (fetchLzw s) := by
  obtain ⟨hn, rfl, rfl⟩ := decodeField_ok hdec
  have hw := s.lzw.codeWidth.isLt
  exact atLoopHead_found hroom (reading_found (readBitsLsb_takes hm hb (by omega)) hn fun _ hr => found_run hr rfl)

theorem fetchNode_found (hm : s.cur.mode = .msb) (hb : BufferOk s.cur) (hcap : s.huf.nodeCount.toNat < 256)
    (hdec : decode .hufNode (aheadOf s) = .ok i rest) : Found s s.cur i rest (fetchNode s) := by
  obtain ⟨hn, rfl, rfl⟩ := decodeField_ok hdec
  unfold aheadOf at hn ⊢
  rw [fetchNode, if_neg (show ¬ Config.hufNodeCap ≤ s.huf.nodeCount.toNat from Nat.not_le.2 hcap)]
  refine reading_found (readBitsMsb_takes (n := 6) hm hb) (by omega) fun c1 h1 => ?_
  have hlen1 := h1.length_ahead
  refine Found.after (reading_found (readBitMsb_takes (h1.mode_eq.trans hm) h1.buffer) (by omega) fun c2 h2 => ?_) h1
  have hlen2 := h2.length_ahead
  refine Found.after (reading_found (readBitMsb_takes (h2.mode_eq.trans (h1.mode_eq.trans hm)) h2.buffer) (by omega)
    fun c3 h3 => ?_) h2
  rw [h2.ahead_eq, h1.ahead_eq, List.drop_drop, List.drop_drop] at h3
  refine found_run h3 ?_
  rw [h2.ahead_eq, h1.ahead_eq, List.drop_drop, List.take_take, getD_take_headD (by decide), getD_take_headD (by decide)]
  rfl

theorem reads_refl {inp : Memory} {inLen : Word} {c : Cursor} (hb : BufferOk c) (hheld : c.bitsAvailable.toNat ≤ 7) :
    Reads inp inLen c (ahead inp inLen c) c :=
  ⟨rfl, rfl, hb, hheld, rfl, .inl rfl⟩

/-- The engine's walk takes the bits that the decoder's walk takes, node by node (R98, R187). -/
theorem fetchPath_found {sign : Bool} {fuel : Nat} {node : NodeIdx} {taken path : List Bool} {c : Cursor}
    (hm : c.mode = .msb) (hb : BufferOk c) (hheld : c.bitsAvailable.toNat ≤ 7)
    (hdec : decodePath s.huf.nodes s.huf.nodeCount.toNat fuel node (ahead s.inSpace s.par.inLen c) = .ok (path, rest)) :
    Found s c (.hufSample sign (taken.reverse ++ path)) rest (fetchPath sign fuel node taken { s with cur := c }) := by
  induction fuel generalizing node taken path c with
  | zero => cases hdec
  | succ fuel ih =>
    rw [decodePath] at hdec
    rw [fetchPath]
    dsimp only
    cases hget : tableGet s.huf.nodes node.toNat with
    | none => simp [hget] at hdec
    | some n =>
      simp only [hget] at hdec ⊢
      by_cases hleaf : isLeaf n = true
      · rw [if_pos hleaf] at hdec ⊢
        cases hdec
        exact found_run (reads_refl hb hheld) (by rw [List.append_nil])
      · rw [if_neg hleaf] at hdec ⊢
        cases hbits : ahead s.inSpace s.par.inLen c with
        | nil => simp [hbits] at hdec
        | cons d after =>
          have htakes := readBitMsb_takes (inp := s.inSpace) (inLen := s.par.inLen) hm hb
          refine reading_found htakes (by simp [hbits]) fun c' hr => ?_
          rw [hbits] at hdec hr ⊢
          simp only [List.headD_cons, List.drop_one, List.tail_cons] at hdec hr ⊢
          -- A bit that selects no node of the table ends the path with itself.
          have hend : path = [d] → rest = after →
              Found s c (.hufSample sign (taken.reverse ++ path)) rest
                (.run (.hufSample sign (d :: taken).reverse) { s with cur := c' }) := by
            rintro rfl rfl
            exact found_run hr (by rw [List.reverse_cons])
          cases hchild : childOf n d with
          | none =>
            simp only [hchild, Except.ok.injEq, Prod.mk.injEq] at hdec ⊢
            exact hend hdec.1.symm hdec.2.symm
          | some child =>
            simp only [hchild] at hdec ⊢
            by_cases hout : s.huf.nodeCount.toNat ≤ child.toNat
            · rw [if_pos hout] at hdec ⊢
              cases hdec
              exact hend rfl rfl
            · rw [if_neg hout] at hdec ⊢
              cases hrec : decodePath s.huf.nodes s.huf.nodeCount.toNat fuel child after with
              | error r => simp [hrec] at hdec
              | ok pair =>
                obtain ⟨below, rest'⟩ := pair
                simp only [hrec, Except.ok.injEq, Prod.mk.injEq] at hdec
                obtain ⟨rfl, rfl⟩ := hdec
                have hfound := ih (taken := d :: taken) (hr.mode_eq.trans hm) hr.buffer hr.held (by rw [hr.ahead_eq, hrec])
                rw [List.reverse_cons, List.append_assoc] at hfound
                exact hfound.after hr

theorem fetchSample_found (hm : s.cur.mode = .msb) (hb : BufferOk s.cur) (hroom : s.outLen.toNat < s.par.reqSize.toNat)
    (hdec : decode (.hufSample s.huf.nodes s.huf.nodeCount.toNat) (aheadOf s) = .ok i rest) :
    Found s s.cur i rest (fetchSample s) := by
  unfold decode at hdec
  cases hbits : aheadOf s with
  | nil => simp [hbits] at hdec
  | cons sign after =>
    rw [hbits] at hdec
    cases hpath : decodePath s.huf.nodes s.huf.nodeCount.toNat Config.hufNodeCap 0 after with
    | error r => simp only [hpath, reduceCtorEq] at hdec
    | ok pair =>
      obtain ⟨path, rest'⟩ := pair
      simp only [hpath, Decoded.ok.injEq] at hdec
      obtain ⟨rfl, rfl⟩ := hdec
      unfold aheadOf at hbits
      refine atLoopHead_found hroom (reading_found (readBitMsb_takes hm hb) (by simp [hbits]) fun c hr => ?_)
      rw [hbits] at hr ⊢
      exact Found.after (fetchPath_found (taken := []) (hr.mode_eq.trans hm) hr.buffer hr.held
        (by rw [hr.ahead_eq]; exact hpath)) hr

theorem fetchHeader_found (hm : s.cur.mode = .byte) (hb : BufferOk s.cur)
    (hdec : decode .sddHdr (aheadOf s) = .ok i rest) : Found s s.cur i rest (fetchHeader s) := by
  obtain ⟨hn, rfl, rfl⟩ := decodeField_ok hdec
  exact reading_found (fetchByte_takes hm hb) hn fun _ hr => found_run hr rfl

theorem fetchInit_found (hm : s.cur.mode = .lsb) (hb : BufferOk s.cur) (hsize : 0 < s.sdd.effSize.toNat)
    (hdec : decode .sddInit (aheadOf s) = .ok i rest) : Found s s.cur i rest (fetchInit s) := by
  obtain ⟨hn, rfl, rfl⟩ := decodeField_ok hdec
  rw [fetchInit, if_neg (Nat.ne_of_gt hsize)]
  refine reading_found (readBitsLsb_takes hm hb (by decide)) hn fun _ hr => found_run hr ?_
  rw [BitVec.setWidth_ofNat_of_le (by decide)]
  rfl

theorem fetchWord_found (hm : s.cur.mode = .lsb) (hb : BufferOk s.cur) (hroom : s.outLen.toNat < s.sdd.effSize.toNat)
    (hdec : decode (.sddWord s.sdd.bitWidth.toNat) (aheadOf s) = .ok i rest) :
    Found s s.cur i rest (fetchWord s) := by
  obtain ⟨hn, rfl, rfl⟩ := decodeField_ok hdec
  have hw := s.sdd.bitWidth.isLt
  rw [fetchWord, if_neg (Nat.not_le.2 hroom)]
  refine reading_found (readBitsLsb_takes hm hb (by omega)) hn fun _ hr => found_run hr ?_
  rw [BitVec.setWidth_ofNat_of_le (by decide)]
  rfl

theorem fetchPair_found (hm : s.cur.mode = .byte) (hb : BufferOk s.cur)
    (hdec : decode .nduRun (aheadOf s) = .ok i rest) : Found s s.cur i rest (fetchPair s) := by
  obtain ⟨hn, rfl, rfl⟩ := decodeField_ok hdec
  obtain ⟨hhigh, hlow⟩ := nibbles_ofMsb (l := (aheadOf s).take 8) (by rw [List.length_take, Nat.min_eq_left hn])
  refine reading_found (fetchByte_takes hm hb) hn fun _ hr => found_run hr ?_
  rw [hhigh, hlow]
  rfl

/-- An escape sequence that decodes has its seed and its count ahead (R105). -/
theorem decodeEsc_ok {bits : List Bool} (h : decodeEsc bits = .ok i rest) :
    24 ≤ bits.length ∧ rest = bits.drop 24 ∧
      i = .nduEsc (BitVec.ofNat 8 (ofMsb (bits.take 8)))
        (runCount (BitVec.ofNat 8 (ofMsb ((bits.drop 8).take 8))) (BitVec.ofNat 8 (ofMsb ((bits.drop 16).take 8)))) := by
  rw [decodeEsc, takeBits_eq] at h
  by_cases h8 : 8 ≤ bits.length
  · simp only [if_pos h8, takeBits_eq] at h
    by_cases h16 : 16 ≤ (bits.drop 8).length
    · simp only [if_pos h16, Decoded.ok.injEq] at h
      obtain ⟨rfl, rfl⟩ := h
      rw [runCount_ofMsb h16, List.drop_drop, List.drop_drop]
      exact ⟨by rw [List.length_drop] at h16; omega, rfl, rfl⟩
    · simp only [if_neg h16, reduceCtorEq] at h
  · simp only [if_neg h8, reduceCtorEq] at h

theorem fetchEsc_found {c : Cursor} (hm : c.mode = .byte) (hb : BufferOk c)
    (hroom : s.outLen.toNat + 1 < s.par.reqSize.toNat)
    (hdec : decodeEsc (ahead s.inSpace s.par.inLen c) = .ok i rest) :
    Found s c i rest (fetchEsc { s with cur := c }) := by
  obtain ⟨hlen, rfl, rfl⟩ := decodeEsc_ok hdec
  rw [fetchEsc]
  refine reading_found (s := s) (fetchByte_takes hm hb) (by omega) fun c1 h1 => ?_
  have hlen1 := h1.length_ahead
  have hm1 := h1.mode_eq.trans hm
  obtain ⟨c2, hhi, h2⟩ :=
    (fetchByte_takes (inp := s.inSpace) (inLen := s.par.inLen) hm1 h1.buffer).value (by omega)
  have hlen2 := h2.length_ahead
  obtain ⟨c3, hlo, h3⟩ :=
    (fetchByte_takes (inp := s.inSpace) (inLen := s.par.inLen) (h2.mode_eq.trans hm1) h2.buffer).value (by omega)
  rw [if_neg (Nat.not_le.2 hroom), hhi]
  dsimp only
  rw [hlo]
  have hall := (h1.trans h2).trans h3
  rw [h2.ahead_eq, h1.ahead_eq, List.drop_drop, List.drop_drop] at hall
  refine found_run hall ?_
  rw [h2.ahead_eq, h1.ahead_eq, List.drop_drop]

theorem fetchScan_found (hm : s.cur.mode = .byte) (hb : BufferOk s.cur) (hroom : s.outLen.toNat < s.par.reqSize.toNat)
    (hesc : (∀ seed count, i ≠ .nduEsc seed count) ∨ s.outLen.toNat + 1 < s.par.reqSize.toNat)
    (hdec : decode (.nduScan s.par.escape) (aheadOf s) = .ok i rest) : Found s s.cur i rest (fetchScan s) := by
  unfold decode at hdec
  rw [takeBits_eq] at hdec
  unfold aheadOf at hdec
  by_cases hn : 8 ≤ (ahead s.inSpace s.par.inLen s.cur).length
  · simp only [if_pos hn] at hdec
    refine atLoopHead_found hroom (reading_found (fetchByte_takes hm hb) hn fun c hr => ?_)
    dsimp only
    by_cases hbyte : BitVec.ofNat 8 (ofMsb ((ahead s.inSpace s.par.inLen s.cur).take 8)) = s.par.escape
    · rw [if_pos hbyte] at hdec ⊢
      have hmore : s.outLen.toNat + 1 < s.par.reqSize.toNat := by
        obtain ⟨_, _, hi⟩ := decodeEsc_ok hdec
        exact hesc.resolve_left fun hne => hne _ _ hi
      exact Found.after (fetchEsc_found (hr.mode_eq.trans hm) hr.buffer hmore (by rw [hr.ahead_eq]; exact hdec)) hr
    · rw [if_neg hbyte] at hdec ⊢
      cases hdec
      exact found_run hr rfl
  · simp only [if_neg hn, reduceCtorEq] at hdec

/-- With the loop-head test passed, a running command finds the symbol that the bits ahead decode to. -/
theorem fetchStream_found {f : Format} {m : CursorMode} (hst : Stands m s.par s.cur) (hm : modeOf s.phase = some m)
    (hnext : readsNext s) (hf : expects s = some f)
    (hesc : (∀ seed count, i ≠ .nduEsc seed count) ∨ s.outLen.toNat + 1 < s.par.reqSize.toNat)
    (hdec : decode f (aheadOf s) = .ok i rest) : Found s s.cur i rest (fetchStream s) := by
  obtain ⟨hmode, hb, _, _⟩ := hst
  unfold fetchStream
  unfold readsNext at hnext
  unfold expects at hf
  cases hp : s.phase
  case idle => simp [hp] at hf
  all_goals
    rw [hp] at hm hf hnext
    cases hm
    cases hf
  case lzwCode => exact fetchLzw_found hmode hb hnext hdec
  case hufNode => exact fetchNode_found hmode hb hnext hdec
  case hufSample => exact fetchSample_found hmode hb hnext hdec
  case sddHdr => exact fetchHeader_found hmode hb hdec
  case sddInit => exact fetchInit_found hmode hb hnext hdec
  case sddWord => exact fetchWord_found hmode hb hnext hdec
  case nduScan => exact fetchScan_found hmode hb hnext hesc hdec
  case nduRun => exact fetchPair_found hmode hb hdec

end

/-! ## The step -/

theorem readsNext_ne_idle {s : State} (h : readsNext s) : s.phase ≠ .idle := by
  intro hp
  simp [readsNext, hp] at h

/-- Settles O12: phase by phase, the reads of the engine take the fields that the decoder splits off the bits ahead. -/
theorem stepReadsTheDecodedSymbol : Obligations.StepReadsTheDecodedSymbol := by
  intro s f i rest hinv hhost hnext hf hdec hesc
  obtain ⟨_, _, hcursor, _⟩ := hinv
  obtain ⟨m, hm, hst⟩ := cursorInv_iff.1 hcursor (readsNext_ne_idle hnext)
  obtain ⟨c, hfetch, hr⟩ := fetchStream_found hst hm hnext hf hesc hdec
  have hrun : fetch s = .run i { s with cur := c } := (fetch_engine hhost).trans hfetch
  exact ⟨{ s with cur := c }, hrun, by rw [step, hrun], rfl, hr.ahead_eq,
    cursorInv_iff.2 fun _ => ⟨m, hm, hst.of_reads hr⟩, hr.held⟩

end Sys2Proof.Proofs
end

section
/-! The host's accesses one by one: what a write sets and what a read returns, while idle and while a command runs (R30 to
R35, R266, R332, R342), and the state after reset (R44). -/

namespace Sys2Proof.Proofs

open Sys2Proof.Machine Sys2Proof.Laws Sys2Proof.Safety

/-! ## Register writes -/

/-- A host action other than a write of `CMD` and other than `engine` is the whole step. -/
theorem step_of_hostAct {s : State} {a : HostAction} {rest : List HostAction} {o : Host.Outcome State Fault Refusal}
    (h : hostAct a (withHost rest s) = .acted o) : step { s with host := a :: rest } = o := by
  have hf : fetch { s with host := a :: rest } = .acted o := h
  rw [step, hf]

theorem hostAct_writeReg {n : BitVec 3} {w : Word} {s : State} (hn : n ≠ 0) :
    hostAct (.writeReg n w) s = .acted (.next (writeRegister n w s)) := if_neg hn

section
variable {s : State} (hidle : s.status.busy = false) (w : Word)
include hidle

theorem writeRegister_inLen : writeRegister 1 w s = { s with par := { s.par with inLen := w } } := by
  simp [writeRegister, hidle]

theorem writeRegister_startOffset : writeRegister 2 w s = { s with par := { s.par with startOffset := w } } := by
  simp [writeRegister, hidle]

theorem writeRegister_reqSize : writeRegister 3 w s = { s with par := { s.par with reqSize := w } } := by
  simp [writeRegister, hidle]

theorem writeRegister_escape :
    writeRegister 4 w s = { s with par := { s.par with escape := BitVec.ofNat 8 (w.toNat % 256) } } := by
  have hlow : w.setWidth 8 = BitVec.ofNat 8 (w.toNat % 256) := by
    apply BitVec.eq_of_toNat_eq
    rw [BitVec.toNat_setWidth, BitVec.toNat_ofNat]
    exact (Nat.mod_mod _ _).symm
  simp [writeRegister, hidle, hlow]

end

/-! ## The two spaces -/

/-- The bytes the host places read back from index 0 on, and every other byte reads as before (R334). -/
theorem placeInput_reads {s : State} {bytes : List Byte} (hidle : s.status.busy = false) (hwf : s.inSpace.wf = true)
    (hlen : bytes.length ≤ 2 ^ 32) :
    ∃ t, placeInput bytes s = .next t ∧ (∀ j, j < bytes.length → memRead t.inSpace j = bytes.getD j 0) ∧
      (∀ a, bytes.length ≤ a → memRead t.inSpace a = memRead s.inSpace a) ∧ t = { s with inSpace := t.inSpace } := by
  rcases placeInput_cases bytes s with ⟨hbusy, _⟩ | ⟨_, he⟩
  · rw [hidle] at hbusy
    cases hbusy
  · rw [List.take_of_length_le hlen] at he
    refine ⟨_, he, fun j hj => ?_, fun a ha => memRead_memWriteAll_other (.inr (by omega)), rfl⟩
    have h := memRead_memWriteAll (a := 0) hwf hj
    rw [Nat.zero_add] at h
    rw [h, List.getD_eq_getElem _ _ hj]

/-- Settles O2: each access by its own rule, in the state with the action off the list. -/
theorem parameterWriteWhileIdle : Obligations.ParameterWriteWhileIdle := by
  intro s w rest hidle
  have hidle' : (withHost rest s).status.busy = false := hidle
  have hwrite : ∀ {n : BitVec 3} {t : State}, n ≠ 0 → writeRegister n w (withHost rest s) = t →
      step { s with host := .writeReg n w :: rest } = .next t := fun hn ht =>
    step_of_hostAct (by rw [hostAct_writeReg hn, ht])
  refine ⟨hwrite (by decide) (writeRegister_inLen hidle' w), hwrite (by decide) (writeRegister_startOffset hidle' w),
    hwrite (by decide) (writeRegister_reqSize hidle' w), hwrite (by decide) (writeRegister_escape hidle' w), ?_, ?_, ?_⟩
  · intro i v hwf
    exact ⟨_, step_of_hostAct rfl, writeOutByte_writesOut (s := withHost rest s) hwf⟩
  · intro bytes hwf hlen
    obtain ⟨t, he, hnew, hold, hframe⟩ := placeInput_reads (s := withHost rest s) hidle' hwf hlen
    exact ⟨t, step_of_hostAct (by rw [hostAct, he]), hnew, hold, hframe⟩
  · intro p
    rcases bindPorts_cases p (withHost rest s) with ⟨hbusy, _⟩ | ⟨_, he⟩
    · rw [hidle'] at hbusy
      cases hbusy
    · exact step_of_hostAct (by rw [hostAct, he]; rfl)

/-! ## Reads -/

/-- A byte zero-extended to a word is below 256. -/
theorem byteWord_lt (b : Byte) : (b.setWidth 32 : Word).toNat < 256 := by
  rw [byte_setWidth_toNat]
  exact b.isLt

/-- A read of a byte of `OUT` gives the byte as it stands while idle, unless a reset left it open (R62). -/
theorem readOutByte_closed {s : State} {i : Word} (hidle : s.status.busy = false)
    (hclosed : isOpen s.outOpen i.toNat = false) :
    readOutByte i s = { s with hostData := (memRead s.outSpace i.toNat).setWidth 32, draws := s.draws + 1 } := by
  simp [readOutByte, hidle, hclosed]

/-- A read of `OUT` gives some byte (U2, U8). -/
theorem readOutByte_lt (i : Word) (s : State) : (readOutByte i s).hostData.toNat < 256 := by
  rw [readOutByte]
  dsimp only
  split
  · exact byteWord_lt _
  · exact byteWord_lt _

theorem outcomeCode_lt (o : DecodeOutcome) : outcomeCode o < 4 := by cases o <;> decide

theorem causeCode_lt (c : StopCause) : causeCode c < 8 := by cases c <;> decide

/-- The word of `STATUS` by its fields (R33). -/
theorem statusWord_toNat (st : Status) :
    (statusWord st).toNat =
      st.busy.toNat + 2 * st.done.toNat + 4 * outcomeCode st.outcome + 16 * causeCode st.cause := by
  have hb := Bool.toNat_le st.busy
  have hd := Bool.toNat_le st.done
  have ho := outcomeCode_lt st.outcome
  have hc := causeCode_lt st.cause
  rw [statusWord, BitVec.toNat_ofNat]
  exact Nat.mod_eq_of_lt (by omega)

/-- `BUSY` 1, `DONE` 0 and no bit above 6, whatever is drawn (R33, U1). -/
theorem busyStatusWord_bits (draw : Word) :
    (busyStatusWord draw).toNat % 4 = 1 ∧ (busyStatusWord draw).toNat < 128 := by
  have hmask : draw.toNat &&& 0x7C < 2 ^ 7 := Nat.and_lt_two_pow _ (by decide)
  have hword : (busyStatusWord draw).toNat = 1 ||| (draw.toNat &&& 0x7C) := by
    rw [busyStatusWord, BitVec.toNat_or, BitVec.toNat_and]
    rfl
  rw [hword]
  refine ⟨?_, Nat.or_lt_two_pow (by decide) hmask⟩
  rw [show 4 = 2 ^ 2 from rfl, Nat.or_mod_two_pow, Nat.and_mod_two_pow]
  simp

/-- The word of each register, by its number, while idle (R30, R33, R35). -/
theorem registerWord_idle {s : State} (n : BitVec 3) (draw : Word) (hidle : s.status.busy = false) :
    (registerWord n draw s).toNat =
      match n.toNat with
      | 0 => 0
      | 1 => s.par.inLen.toNat
      | 2 => s.par.startOffset.toNat
      | 3 => s.par.reqSize.toNat
      | 4 => s.par.escape.toNat
      | 5 => 2 * s.status.done.toNat + 4 * outcomeCode s.status.outcome + 16 * causeCode s.status.cause
      | 6 => s.outLen.toNat
      | _ => s.consumed.toNat := by
  have hstatus : s.status.busy.toNat = 0 := by rw [hidle]; rfl
  have hescape := byte_setWidth_toNat s.par.escape
  have hword := statusWord_toNat s.status
  rw [hstatus, Nat.zero_add] at hword
  have hn := n.isLt
  unfold registerWord
  generalize n.toNat = k at hn ⊢
  interval_cases k <;> simp [hidle, hescape, hword]

/-- The word of each register whose value is told, by its number, while a command runs (R30, R33, R266, U1). -/
theorem registerWord_busy {s : State} (n : BitVec 3) (draw : Word) (hbusy : s.status.busy = true) :
    match n.toNat with
    | 0 => registerWord n draw s = 0
    | 1 => registerWord n draw s = s.par.inLen
    | 2 => registerWord n draw s = s.par.startOffset
    | 3 => registerWord n draw s = s.par.reqSize
    | 4 => registerWord n draw s = s.par.escape.setWidth 32
    | 5 => (registerWord n draw s).toNat % 4 = 1 ∧ (registerWord n draw s).toNat < 128
    | _ => True := by
  have hstatus := busyStatusWord_bits draw
  have hn := n.isLt
  unfold registerWord
  generalize n.toNat = k at hn ⊢
  interval_cases k <;> simp [hbusy, hstatus]

/-- Settles O4: a read shows the register's word or the byte as it stands, and changes the model's own fields alone. -/
theorem registerReadWhileIdle : Obligations.RegisterReadWhileIdle := by
  intro s n i rest hidle
  have hidle' : (withHost rest s).status.busy = false := hidle
  refine ⟨fun hclosed => ?_, fun _ => ?_, ?_, ?_⟩
  · exact step_of_hostAct (by rw [hostAct, readOutByte_closed hidle' hclosed]; rfl)
  · exact ⟨_, step_of_hostAct rfl, readOutByte_lt i (withHost rest s), rfl⟩
  · refine ⟨_, step_of_hostAct rfl, ?_⟩
    rw [resetBlock_outOpen, openAfterReset, hidle']
    rfl
  · exact ⟨_, step_of_hostAct rfl, rfl, registerWord_idle (s := withHost rest s) n _ hidle'⟩

/-- Settles O5: while a command runs a read draws what is open, and a reset opens what the command might have written. -/
theorem statusReadWhileBusy : Obligations.StatusReadWhileBusy := by
  intro s rest hbusy
  have hbusy' : (withHost rest s).status.busy = true := hbusy
  refine ⟨fun n => ?_, fun i => ?_, ?_⟩
  · exact ⟨_, step_of_hostAct rfl, rfl, registerWord_busy (s := withHost rest s) n _ hbusy'⟩
  · exact ⟨_, step_of_hostAct rfl, readOutByte_lt i (withHost rest s), rfl⟩
  · refine ⟨_, step_of_hostAct rfl, rfl, fun a => ?_⟩
    rw [resetBlock_outOpen, isOpen_openAfterReset, hbusy']
    simp only [Bool.true_and, Bool.or_eq_true, decide_eq_true_eq]
    rfl

/-! ## Reset -/

/-- Settles O46: the fields of `State.reset` are R44's values; its spaces and tables are empty and no command runs. -/
theorem resetStateIsSound : Obligations.ResetStateIsSound := by
  have hvalues : ResetValues State.reset := by
    unfold ResetValues
    simp only [State.reset, and_self]
  have hidle : State.reset.phase = .idle := rfl
  refine ⟨hvalues, ⟨reset_spaces_wf.1, reset_spaces_wf.2, rfl, rfl⟩, statusInv_of_ended ⟨rfl, rfl⟩, cursorInv_idle hidle,
    fun h => absurd hidle h, ?_, hufInv_idle hidle, ?_, ?_⟩
  · rintro ⟨⟩
  · exact ⟨by rintro (⟨⟨⟩⟩ | ⟨⟨⟩⟩), by rintro (⟨⟨⟩⟩ | ⟨⟨⟩⟩), by rintro ⟨⟩⟩
  · exact ⟨by rintro ⟨⟩, by rintro ⟨⟩⟩

end Sys2Proof.Proofs
end

section
/-! The output: the engine writes it onward from `OUT_LEN`, byte after byte, and never past `REQ_SIZE` (R11, R62, R66). -/

namespace Sys2Proof.Proofs

open Sys2Proof.Machine Sys2Proof.Laws Sys2Proof.Safety

/-! ## The part of the state that is the output -/

/-- What the append to the output reads and writes (R11, R66; `ranges` is the model's, log 10). -/
structure OutputSide where
  space : Memory
  ranges : List (Nat × Nat)
  len : Word
  size : Word

/-- `OUT`, its open bytes, `OUT_LEN` and `REQ_SIZE`. -/
def outputSide (s : State) : OutputSide where
  space := s.outSpace
  ranges := s.outOpen
  len := s.outLen
  size := s.par.reqSize

/-- From `o` to `p` the output is written from its old length up to its new one alone, and stays within the requested size
(R62, R66). -/
structure WrittenOnward (o p : OutputSide) : Prop where
  size_eq : p.size = o.size
  len_le : o.len.toNat ≤ p.len.toNat
  within : o.len.toNat ≤ o.size.toNat → p.len.toNat ≤ o.size.toNat
  reads : ∀ a, a < o.len.toNat ∨ p.len.toNat ≤ a → memRead p.space a = memRead o.space a
  opens : ∀ a, isOpen p.ranges a = true ↔ isOpen o.ranges a = true ∧ ¬ (o.len.toNat ≤ a ∧ a < p.len.toNat)

theorem WrittenOnward.refl (o : OutputSide) : WrittenOnward o o where
  size_eq := rfl
  len_le := le_rfl
  within := id
  reads := fun _ _ => rfl
  opens := fun a => (and_iff_left (by omega)).symm

theorem WrittenOnward.trans {o p q : OutputSide} (h1 : WrittenOnward o p) (h2 : WrittenOnward p q) :
    WrittenOnward o q where
  size_eq := h2.size_eq.trans h1.size_eq
  len_le := h1.len_le.trans h2.len_le
  within := fun h => by
    have hq := h2.within
    rw [h1.size_eq] at hq
    exact hq (h1.within h)
  reads := fun a ha => by
    have h1le := h1.len_le
    have h2le := h2.len_le
    rw [h2.reads a (by omega), h1.reads a (by omega)]
  opens := fun a => by
    have h1le := h1.len_le
    have h2le := h2.len_le
    rw [h2.opens, h1.opens, and_assoc]
    exact and_congr_right fun _ => by omega

/-! ## The appends -/

/-- One append with room writes the byte at `OUT_LEN` (R11). -/
theorem appendByte_writtenOnward (v : Byte) {s : State} (hroom : s.outLen.toNat < s.par.reqSize.toNat) :
    WrittenOnward (outputSide s) (outputSide (appendByte v s)) := by
  have hlen : (outputSide (appendByte v s)).len.toNat = s.outLen.toNat + 1 :=
    appendByte_outLen_toNat (v := v) hroom
  refine ⟨rfl, hlen ▸ Nat.le_succ _, fun _ => hlen ▸ hroom, fun a ha => ?_, fun a => ?_⟩
  · rw [hlen] at ha
    dsimp only [outputSide] at ha
    exact memRead_memWrite_other (by omega)
  · rw [hlen]
    dsimp only [outputSide]
    rw [appendByte_outOpen, isOpen_closeIndex, Bool.and_eq_true, decide_eq_true_eq]
    exact and_congr_right fun _ => by omega

theorem foldl_appendByte_writtenOnward {str : List Byte} {s : State}
    (hroom : s.outLen.toNat + str.length ≤ s.par.reqSize.toNat) :
    WrittenOnward (outputSide s) (outputSide (str.foldl (fun t v => appendByte v t) s)) := by
  induction str generalizing s with
  | nil => exact .refl _
  | cons v rest ih =>
    rw [List.length_cons] at hroom
    have hfirst : s.outLen.toNat < s.par.reqSize.toNat := by omega
    refine (appendByte_writtenOnward v hfirst).trans (ih ?_)
    rw [appendByte_outLen_toNat hfirst, appendByte_par]
    omega

/-- An emission is cut to the room left (R162). -/
theorem emit_writtenOnward (str : List Byte) (s : State) : WrittenOnward (outputSide s) (outputSide (emit str s)) := by
  rcases Nat.lt_or_ge s.par.reqSize.toNat s.outLen.toNat with hover | hin
  · have hnone : emit str s = s := by rw [emit, Nat.sub_eq_zero_of_le hover.le, List.take_zero, List.foldl_nil]
    rw [hnone]
    exact .refl _
  · refine foldl_appendByte_writtenOnward ?_
    rw [List.length_take]
    omega

/-! ## The symbols -/

/-- What the rules below prove of each symbol: its outcome has the output of `s`, written onward. -/
def WritesOnward (s : State) : Host.Outcome State Fault Refusal → Prop :=
  Answers fun t => WrittenOnward (outputSide s) (outputSide t)

theorem writesOnward_next {s t : State} (h : WrittenOnward (outputSide s) (outputSide t)) : WritesOnward s (.next t) :=
  answers_next h

theorem raiseStop_writesOnward {s u : State} (cause : StopCause)
    (h : WrittenOnward (outputSide s) (outputSide u)) : WritesOnward s (raiseStop cause u) :=
  answers_raiseStop fun _ => h

/-- An append in a state whose output is that of `s`, written onward, and on with `k`. -/
theorem appendThen_writesOnward {s u : State} {v : Byte} {k : State → Host.Outcome State Fault Refusal}
    (h : WrittenOnward (outputSide s) (outputSide u))
    (hk : WrittenOnward (outputSide s) (outputSide (appendByte v u)) → WritesOnward s (k (appendByte v u))) :
    WritesOnward s (appendThen v u k) :=
  answers_appendThen fun hroom => hk (h.trans (appendByte_writtenOnward v hroom))

theorem unlessFull_writesOnward {s u : State} {k : State → Host.Outcome State Fault Refusal}
    (h : WrittenOnward (outputSide s) (outputSide u)) (hk : WritesOnward s (k u)) : WritesOnward s (unlessFull u k) :=
  answers_unlessFull (fun _ => h) fun _ => hk

theorem normalCode_writesOnward (code start : Code) (again : Bool) (s : State) :
    WritesOnward s (normalCode code start again s) :=
  answers_normalCode fun _ emitted _ _ => emit_writtenOnward emitted s

/-- A node record writes no output (R182). -/
theorem execHufNode_writesOnward (v : BitVec 7) (l r : Bool) (s : State) : WritesOnward s (execHufNode v l r s) :=
  answers_execHufNode (fun _ => .refl _) (fun _ _ _ => .refl _) (fun _ _ _ _ _ => .refl _) fun _ _ _ _ =>
    answers_checkRoot (.refl _) fun _ _ _ _ => .refl _

theorem execHufSample_writesOnward (sign : Bool) (path : List Bool) (s : State) :
    WritesOnward s (execHufSample sign path s) := by
  refine answers_inPhase fun _ => ?_
  cases walk s.huf.nodes s.huf.nodeCount.toNat Config.hufNodeCap 0 path with
  | leaf node value => exact appendThen_writesOnward (.refl _) writesOnward_next
  | outside => exact raiseStop_writesOnward _ (.refl _)
  | mismatch => exact answers_refused _ _
  | broken f => exact answers_fault _ f

theorem execSddInit_writesOnward (a : Byte) (s : State) : WritesOnward s (execSddInit a s) := by
  refine answers_inPhase fun _ => ?_
  split
  · exact writesOnward_next (.refl _)
  · exact appendThen_writesOnward (.refl _) writesOnward_next

theorem execNduPair_writesOnward (h l : Nibble) (s : State) : WritesOnward s (execNduPair h l s) := by
  refine answers_inPhase fun _ => appendThen_writesOnward (.refl _) fun h1 => unlessFull_writesOnward h1 ?_
  split
  · exact writesOnward_next h1
  · exact appendThen_writesOnward h1 fun h2 => unlessFull_writesOnward h2 (writesOnward_next h2)

/-- A stream symbol writes the output onward. -/
theorem exec_writesOnward {i : Instr} {p : Phase} (s : State) (hi : symbolPhase i = some p) :
    WritesOnward s (exec i s) := by
  cases i with
  | decLzw | decHuf | decSdd | decNdu => cases hi
  | cursorInit | fetchb | rdbitsL | rdbitM | rdbitsM => cases hi
  | lzwEnd => exact answers_inPhase fun _ => raiseStop_writesOnward _ (.refl _)
  | lzwCorrupt c => exact answers_inPhase fun _ => raiseStop_writesOnward _ (.refl _)
  | lzwReset => exact answers_inPhase fun _ => writesOnward_next (.refl _)
  | lzwLit b => exact normalCode_writesOnward _ _ _ s
  | lzwRef c => exact normalCode_writesOnward _ _ _ s
  | lzwKwkwk c => exact normalCode_writesOnward _ _ _ s
  | hufNode v l r => exact execHufNode_writesOnward v l r s
  | hufSample sign path => exact execHufSample_writesOnward sign path s
  | sddHdr m => exact answers_inPhase fun _ => writesOnward_next (.refl _)
  | sddInit a => exact execSddInit_writesOnward a s
  | sddEsc => exact answers_inPhase fun _ => writesOnward_next (.refl _)
  | sddHold v => exact answers_inPhase fun _ => appendThen_writesOnward (.refl _) fun h => writesOnward_next h
  | sddDelta v => exact answers_inPhase fun _ => appendThen_writesOnward (.refl _) fun h => writesOnward_next h
  | nduLit b => exact answers_inPhase fun _ => appendThen_writesOnward (.refl _) writesOnward_next
  | nduEsc seed count =>
    exact answers_inPhase fun _ => appendThen_writesOnward (.refl _) fun h => unlessFull_writesOnward h (writesOnward_next h)
  | nduPair h l => exact execNduPair_writesOnward h l s

/-! ## The step -/

/-- Of a symbol cut short at most the seed of an escape sequence is in the output (R244). -/
theorem CutShort.writtenOnward {s u : State} (h : CutShort s u) : WrittenOnward (outputSide s) (outputSide u) := by
  cases h with
  | read c => exact .refl _
  | slot c _ => exact .refl _
  | seed c b _ hroom =>
    exact appendByte_writtenOnward b (s := { s with cur := c, ndu := { s.ndu with accumulator := b } }) hroom

theorem engineStep_writesOnward (s : State) : WritesOnward s (engineStep s) := by
  intro t ht
  rcases engineStep_next ht with ⟨_, rfl⟩ | ⟨u, cause, hcut, rfl⟩ | ⟨m, i, c, _, hi, _, he⟩
  · exact .refl _
  · exact hcut.writtenOnward
  · exact exec_writesOnward { s with cur := c } hi t he

/-- An idle engine stays as it is (R300). -/
theorem engineStep_idle {s : State} (h : s.phase = .idle) : engineStep s = .next s := by
  simp only [engineStep, fetchStream, h]

theorem engineStep_outputInv {s : State} (hs : OutputInv s) : Answers OutputInv (engineStep s) := by
  by_cases hidle : s.phase = .idle
  · exact engineStep_idle hidle ▸ answers_next hs
  · intro t ht _
    have h := engineStep_writesOnward s t ht
    have hsize : t.par.reqSize = s.par.reqSize := h.size_eq
    rw [hsize]
    exact h.within (hs hidle)

theorem outputInv_idle {s : State} (h : s.phase = .idle) : OutputInv s := fun hp => absurd h hp

/-- A launched command has no output yet (R45). -/
theorem outputInv_launched {s start : State}
    (hstart : start = startLzw s ∨ start = startHuf s ∨ start = startSdd s ∨ start = startNdu s) :
    OutputInv start := by
  intro _
  rcases hstart with rfl | rfl | rfl | rfl <;> exact Nat.zero_le _

/-- `REQ_SIZE` changes while idle alone (R32), and no access writes `OUT_LEN` but a launch and a reset. -/
theorem Accessed.outputInv {s t : State} (hs : StatusInv s) (ho : OutputInv s) (h : Accessed s t) : OutputInv t := by
  cases h with
  | launched start _ hstart => exact outputInv_launched hstart
  | setParams par hidle => exact outputInv_idle (phase_idle_of_not_busy hs hidle)
  | reset => exact outputInv_idle rfl
  | ignored | readWord | placed | bound | wrote => exact ho

/-- Settles O50: every append has room, and a running command's `REQ_SIZE` stays. -/
theorem stepKeepsOutputInBounds : Obligations.StepKeepsOutputInBounds := by
  intro s t hstatus houtput hstep
  exact (step_keeps (P := fun s => StatusInv s ∧ OutputInv s) (fun _ _ h => h)
    (fun _ _ h ha => ⟨ha.statusInv h.1, ha.outputInv h.1 h.2⟩)
    (fun _ h u hu => ⟨engineStep_statusInv h.1 u hu, engineStep_outputInv h.2 u hu⟩) ⟨hstatus, houtput⟩ hstep).2

/-- Settles O58: the engine's step writes the output onward; a running command does so within `REQ_SIZE`, and an idle block
writes nothing. -/
theorem outputIsWrittenOnce : Obligations.OutputIsWrittenOnce := by
  intro s t hinv hhost hstep
  obtain ⟨_, _, _, houtput, _⟩ := hinv
  rw [step_eq_engineStep hhost] at hstep
  have h := engineStep_writesOnward s t hstep
  refine ⟨h.len_le, fun a ha => ?_, h.opens⟩
  by_cases hidle : s.phase = .idle
  · rw [engineStep_idle hidle] at hstep
    cases hstep
    rfl
  · have hlen : t.outLen.toNat ≤ s.par.reqSize.toNat := h.within (houtput hidle)
    exact h.reads a (by change a < s.outLen.toNat ∨ t.outLen.toNat ≤ a; omega)

end Sys2Proof.Proofs
end

section
/-! The input: `FETCHB` alone reads `IN`, below `IN_LEN` (R63), so a step with another `IN` that agrees there is the same
step, and it leaves that `IN` in place. -/

namespace Sys2Proof.Proofs

open Sys2Proof.Machine Sys2Proof.Laws

/-! ## Another input -/

/-- A state with another input space. -/
def withInput (m : Memory) (s : State) : State := { s with inSpace := m }

/-- An outcome with another input space in its next state. -/
def outcomeWithInput (m : Memory) : Host.Outcome State Fault Refusal → Host.Outcome State Fault Refusal
  | .next t => .next (withInput m t)
  | .fault f => .fault f
  | .refused r => .refused r

/-- What was fetched, with another input space. -/
def fetchedWithInput (m : Memory) : Fetched → Fetched
  | .run i t => .run i (withInput m t)
  | .acted o => .acted (outcomeWithInput m o)

/-! ## The reads -/

/-- Two inputs serve `FETCHB` alike, wherever the cursor stands (R63, R131). -/
def SameBytes (inLen : Word) (m inp : Memory) : Prop := ∀ c, fetchByte m inLen c = fetchByte inp inLen c

/-- `FETCHB` reads below `IN_LEN` alone (R131). -/
theorem sameBytes_of_agree {inLen : Word} {m inp : Memory} (h : ∀ i, i < inLen.toNat → memRead m i = memRead inp i) :
    SameBytes inLen m inp := by
  intro c
  unfold fetchByte
  split
  · rfl
  · rw [h _ (by omega)]

section
variable {inLen : Word} {m inp : Memory} (h : SameBytes inLen m inp)
include h

theorem SameBytes.refill_eq (n k : Nat) (c : Cursor) : refill m inLen n k c = refill inp inLen n k c := by
  induction k generalizing c with
  | zero => rfl
  | succ k ih => simp only [refill, h c, ih]

theorem SameBytes.readBitsLsb_eq (n : Nat) (c : Cursor) : readBitsLsb m inLen n c = readBitsLsb inp inLen n c := by
  simp only [readBitsLsb, h.refill_eq]

theorem SameBytes.readBitMsb_eq (c : Cursor) : readBitMsb m inLen c = readBitMsb inp inLen c := by
  simp only [readBitMsb, h c]

theorem SameBytes.readBitsMsb_eq (n : Nat) (c : Cursor) : readBitsMsb m inLen n c = readBitsMsb inp inLen n c := by
  have hfrom : ∀ r, readBitsMsbFrom m inLen n r c = readBitsMsbFrom inp inLen n r c := by
    induction n generalizing c with
    | zero => exact fun _ => rfl
    | succ n ih =>
      intro r
      simp only [readBitsMsbFrom, h.readBitMsb_eq c, ih]
  exact hfrom 0

end

/-! ## The shared operations -/

section
variable (m : Memory)

theorem raiseStop_withInput (cause : StopCause) (s : State) :
    raiseStop cause (withInput m s) = outcomeWithInput m (raiseStop cause s) := by
  rw [raiseStop, raiseStop, apply_ite (outcomeWithInput m)]
  rfl

theorem inPhase_withInput (p : Phase) (s : State) {k l : Host.Outcome State Fault Refusal}
    (hk : l = outcomeWithInput m k) : inPhase p (withInput m s) l = outcomeWithInput m (inPhase p s k) := by
  rw [inPhase, inPhase, apply_ite (outcomeWithInput m), hk]
  rfl

theorem unlessFull_withInput (s : State) {k : State → Host.Outcome State Fault Refusal}
    (hk : ∀ t, k (withInput m t) = outcomeWithInput m (k t)) :
    unlessFull (withInput m s) k = outcomeWithInput m (unlessFull s k) := by
  rw [unlessFull, unlessFull, apply_ite (outcomeWithInput m), hk, raiseStop_withInput]
  rfl

theorem appendThen_withInput (v : Byte) (s : State) {k : State → Host.Outcome State Fault Refusal}
    (hk : ∀ t, k (withInput m t) = outcomeWithInput m (k t)) :
    appendThen v (withInput m s) k = outcomeWithInput m (appendThen v s k) := by
  by_cases hroom : s.outLen.toNat < s.par.reqSize.toNat
  · rw [appendThen_room hroom, appendThen_room (s := withInput m s) hroom]
    exact hk (appendByte v s)
  · have hfault : ∀ u : State, u.par.reqSize.toNat ≤ u.outLen.toNat → appendThen v u k = .fault .outputFull := by
      intro u hfull
      rw [appendThen, outAppend, if_pos hfull]
    have hfull := Nat.not_lt.1 hroom
    rw [hfault s hfull, hfault (withInput m s) hfull]
    rfl

theorem emit_withInput (str : List Byte) (s : State) : emit str (withInput m s) = withInput m (emit str s) :=
  List.foldl_hom (withInput m) fun _ _ => rfl

/-! ## The symbols -/

theorem normalCode_withInput (code start : Code) (again : Bool) (s : State) :
    normalCode code start again (withInput m s) = outcomeWithInput m (normalCode code start again s) := by
  refine inPhase_withInput m _ s ?_
  change (match stringOf s.lzw.dict start with | .error f => _ | .ok str => _) = _
  cases stringOf s.lzw.dict start with
  | error f => rfl
  | ok str =>
    dsimp only
    rw [emit_withInput]
    rfl

theorem checkRoot_withInput (s : State) : checkRoot (withInput m s) = outcomeWithInput m (checkRoot s) := by
  unfold checkRoot
  change (match tableGet s.huf.nodes 0 with | none => _ | some root => _) = _
  cases tableGet s.huf.nodes 0 with
  | none => rfl
  | some root =>
    dsimp only
    rw [apply_ite (outcomeWithInput m), raiseStop_withInput]
    rfl

theorem execHufNode_withInput (v : BitVec 7) (l r : Bool) (s : State) :
    execHufNode v l r (withInput m s) = outcomeWithInput m (execHufNode v l r s) := by
  refine inPhase_withInput m _ s ?_
  by_cases hcap : Config.hufNodeCap ≤ s.huf.nodeCount.toNat
  · rw [if_pos hcap]
    exact (if_pos hcap).trans (raiseStop_withInput m _ s)
  · rw [if_neg hcap]
    refine (if_neg hcap).trans ?_
    cases l with
    | true => rfl
    | false =>
      cases r with
      | true => rfl
      | false =>
        change (match returnBuild (s.huf.nodeCount.setWidth 8) (allocNode v s.huf).nodes (allocNode v s.huf).stack with
          | (nodes, some stack) => _ | (nodes, none) => _) = _
        dsimp only
        rcases returnBuild (s.huf.nodeCount.setWidth 8) (allocNode v s.huf).nodes (allocNode v s.huf).stack
          with ⟨nodes, _ | stack⟩
        · exact checkRoot_withInput m { s with huf := { allocNode v s.huf with nodes := nodes, stack := [] } }
        · rfl

theorem execHufSample_withInput (sign : Bool) (path : List Bool) (s : State) :
    execHufSample sign path (withInput m s) = outcomeWithInput m (execHufSample sign path s) := by
  refine inPhase_withInput m _ s ?_
  change (match walk s.huf.nodes s.huf.nodeCount.toNat Config.hufNodeCap 0 path with
    | .broken f => _ | .mismatch => _ | .outside => _ | .leaf node value => _) = _
  cases walk s.huf.nodes s.huf.nodeCount.toNat Config.hufNodeCap 0 path with
  | broken f => rfl
  | mismatch => rfl
  | outside => exact raiseStop_withInput m _ s
  | leaf node value => exact appendThen_withInput m _ (walked sign node _ s) fun _ => rfl

theorem execSddInit_withInput (a : Byte) (s : State) :
    execSddInit a (withInput m s) = outcomeWithInput m (execSddInit a s) := by
  refine inPhase_withInput m _ s ?_
  rw [apply_ite (outcomeWithInput m), ← appendThen_withInput m a _ fun _ => rfl]
  rfl

theorem nduSeed_withInput (seed : Byte) (s : State) {k : State → Host.Outcome State Fault Refusal}
    (hk : ∀ t, k (withInput m t) = outcomeWithInput m (k t)) :
    nduSeed seed (withInput m s) k = outcomeWithInput m (nduSeed seed s k) :=
  appendThen_withInput m seed { s with ndu := { s.ndu with accumulator := seed } } fun t => unlessFull_withInput m t hk

theorem nduDelta_withInput (n : Nibble) (s : State) {k : State → Host.Outcome State Fault Refusal}
    (hk : ∀ t, k (withInput m t) = outcomeWithInput m (k t)) :
    nduDelta n (withInput m s) k = outcomeWithInput m (nduDelta n s k) :=
  appendThen_withInput m _
    { s with ndu := { accumulator := s.ndu.accumulator + nibbleDelta n, count := s.ndu.count - 1 } }
    fun t => unlessFull_withInput m t hk

theorem execNduPair_withInput (h l : Nibble) (s : State) :
    execNduPair h l (withInput m s) = outcomeWithInput m (execNduPair h l s) := by
  refine inPhase_withInput m _ s (nduDelta_withInput m h s fun t => ?_)
  rw [apply_ite (outcomeWithInput m), ← nduDelta_withInput m l t fun _ => rfl]
  rfl

/-- The rule of a stream symbol does not read `IN`: its bits have been read. -/
theorem exec_withInput {i : Instr} {p : Phase} (s : State) (hi : symbolPhase i = some p) :
    exec i (withInput m s) = outcomeWithInput m (exec i s) := by
  cases i with
  | decLzw | decHuf | decSdd | decNdu => cases hi
  | cursorInit | fetchb | rdbitsL | rdbitM | rdbitsM => cases hi
  | lzwEnd => exact inPhase_withInput m _ s (raiseStop_withInput m _ s)
  | lzwCorrupt c => exact inPhase_withInput m _ s (raiseStop_withInput m _ s)
  | lzwReset => exact inPhase_withInput m _ s rfl
  | lzwLit b => exact normalCode_withInput m _ _ _ s
  | lzwRef c => exact normalCode_withInput m _ _ _ s
  | lzwKwkwk c => exact normalCode_withInput m _ _ _ s
  | hufNode v l r => exact execHufNode_withInput m v l r s
  | hufSample sign path => exact execHufSample_withInput m sign path s
  | sddHdr b => exact inPhase_withInput m _ s rfl
  | sddInit a => exact execSddInit_withInput m a s
  | sddEsc => exact inPhase_withInput m _ s rfl
  | sddHold v =>
    exact inPhase_withInput m _ s (appendThen_withInput m _
      { s with sdd := { s.sdd with accumulator := sddSample s.sdd.accumulator v } } fun _ => rfl)
  | sddDelta v =>
    exact inPhase_withInput m _ s (appendThen_withInput m _
      { s with sdd := { s.sdd with accumulator := sddSample s.sdd.accumulator v } } fun _ => rfl)
  | nduLit b =>
    exact inPhase_withInput m _ s
      (appendThen_withInput m b { s with ndu := { s.ndu with accumulator := b } } fun _ => rfl)
  | nduEsc seed count => exact inPhase_withInput m _ s (nduSeed_withInput m seed s fun _ => rfl)
  | nduPair h l => exact execNduPair_withInput m h l s

end

/-! ## The fetch -/

section
variable {m : Memory}

theorem ite_withInput {c : Prop} [Decidable c] {a b a' b' : Fetched} (ha : a' = fetchedWithInput m a)
    (hb : b' = fetchedWithInput m b) : (if c then a' else b') = fetchedWithInput m (if c then a else b) := by
  rw [ha, hb, apply_ite (fetchedWithInput m)]

theorem actedStop_withInput (cause : StopCause) (s : State) :
    Fetched.acted (raiseStop cause (withInput m s)) = fetchedWithInput m (.acted (raiseStop cause s)) :=
  congrArg Fetched.acted (raiseStop_withInput m cause s)

theorem atLoopHead_withInput {s : State} {k l : Fetched} (hk : l = fetchedWithInput m k) :
    atLoopHead (withInput m s) l = fetchedWithInput m (atLoopHead s k) :=
  ite_withInput (actedStop_withInput .full s) hk

/-- A read that delivers the same from both inputs goes on alike with its value, or stops alike. -/
theorem reading_withInput {α : Type} {s : State} {d d' : Delivery α} {cut : State → State} {k : α → State → Fetched}
    (hd : d' = d) (hcut : ∀ t, cut (withInput m t) = withInput m (cut t))
    (hk : ∀ v c, k v (withInput m { s with cur := c }) = fetchedWithInput m (k v { s with cur := c })) :
    reading (withInput m s) d' cut k = fetchedWithInput m (reading s d cut k) := by
  subst hd
  cases d' with
  | value v c => exact hk v c
  | exhausted c =>
    have hstop := actedStop_withInput (m := m) .exhausted (cut { s with cur := c })
    rwa [← hcut] at hstop

section
variable {s : State} (h : SameBytes s.par.inLen m s.inSpace)
include h

theorem readingByte_withInput {k : Byte → State → Fetched}
    (hk : ∀ v c, k v (withInput m { s with cur := c }) = fetchedWithInput m (k v { s with cur := c })) :
    readingByte (withInput m s) id k = fetchedWithInput m (readingByte s id k) :=
  reading_withInput (h s.cur) (fun _ => rfl) hk

theorem readingLsb_withInput (n : Nat) {k : Code → State → Fetched}
    (hk : ∀ v c, k v (withInput m { s with cur := c }) = fetchedWithInput m (k v { s with cur := c })) :
    readingLsb n (withInput m s) k = fetchedWithInput m (readingLsb n s k) :=
  reading_withInput (h.readBitsLsb_eq n s.cur) (fun _ => rfl) hk

theorem readingBit_withInput {cut : State → State} {k : Bool → State → Fetched}
    (hcut : ∀ t, cut (withInput m t) = withInput m (cut t))
    (hk : ∀ v c, k v (withInput m { s with cur := c }) = fetchedWithInput m (k v { s with cur := c })) :
    readingBit (withInput m s) cut k = fetchedWithInput m (readingBit s cut k) :=
  reading_withInput (h.readBitMsb_eq s.cur) hcut hk

theorem fetchNode_withInput : fetchNode (withInput m s) = fetchedWithInput m (fetchNode s) := by
  have hslot : ∀ t, slotTaken (withInput m t) = withInput m (slotTaken t) := fun _ => rfl
  refine ite_withInput (actedStop_withInput .nodeRange s)
    (reading_withInput (h.readBitsMsb_eq 7 s.cur) hslot fun v c => ?_)
  exact readingBit_withInput (s := { s with cur := c }) h hslot fun l c1 =>
    readingBit_withInput (s := { s with cur := c1 }) h hslot fun _ _ => rfl

theorem fetchPath_withInput (sign : Bool) (fuel : Nat) (node : NodeIdx) (path : List Bool) :
    fetchPath sign fuel node path (withInput m s) = fetchedWithInput m (fetchPath sign fuel node path s) := by
  induction fuel generalizing node path s with
  | zero => rfl
  | succ fuel ih =>
    unfold fetchPath
    change (match tableGet s.huf.nodes node.toNat with | none => _ | some n => _) = _
    cases tableGet s.huf.nodes node.toNat with
    | none => rfl
    | some n =>
      refine ite_withInput rfl (readingBit_withInput h (fun _ => rfl) fun d c => ?_)
      cases childOf n d with
      | none => rfl
      | some child => exact ite_withInput rfl (ih (s := { s with cur := c }) h child (d :: path))

theorem fetchEsc_withInput : fetchEsc (withInput m s) = fetchedWithInput m (fetchEsc s) := by
  refine readingByte_withInput h fun seed c => ?_
  have hseed : ∀ c k, (∀ t, k (withInput m t) = outcomeWithInput m (k t)) →
      Fetched.acted (nduSeed seed (withInput m { s with cur := c }) k) =
        fetchedWithInput m (.acted (nduSeed seed { s with cur := c } k)) := fun c _ hk =>
    congrArg Fetched.acted (nduSeed_withInput m seed { s with cur := c } hk)
  have hcut := fun c => hseed c _ (raiseStop_withInput m .exhausted)
  refine ite_withInput (hseed c _ fun _ => rfl) ?_
  change (match fetchByte m s.par.inLen c with | .exhausted c => _ | .value hi c1 => _) = _
  rw [h c]
  dsimp only
  cases fetchByte s.inSpace s.par.inLen c with
  | exhausted c1 => exact hcut c1
  | value hi c1 =>
    change (match fetchByte m s.par.inLen c1 with | .exhausted c => _ | .value lo c2 => _) = _
    rw [h c1]
    dsimp only
    cases fetchByte s.inSpace s.par.inLen c1 with
    | exhausted c2 => exact hcut c2
    | value lo c2 => rfl

/-- What the engine fetches depends on `IN` below `IN_LEN` alone (R63). -/
theorem fetchStream_withInput : fetchStream (withInput m s) = fetchedWithInput m (fetchStream s) := by
  have hsdd : Fetched.acted (sddFull (withInput m s)) = fetchedWithInput m (.acted (sddFull s)) :=
    actedStop_withInput _ s
  unfold fetchStream
  change (match s.phase with
    | .idle => _ | .lzwCode => _ | .hufNode => _ | .hufSample => _ | .sddHdr => _ | .sddInit => _ | .sddWord => _
    | .nduScan => _ | .nduRun => _) = _
  cases s.phase with
  | idle => rfl
  | lzwCode => exact atLoopHead_withInput (readingLsb_withInput h _ fun _ _ => rfl)
  | hufNode => exact fetchNode_withInput h
  | hufSample =>
    exact atLoopHead_withInput (readingBit_withInput h (fun _ => rfl) fun sign c =>
      fetchPath_withInput (s := { s with cur := c }) h sign _ 0 [])
  | sddHdr => exact readingByte_withInput h fun _ _ => rfl
  | sddInit => exact ite_withInput hsdd (readingLsb_withInput h 8 fun _ _ => rfl)
  | sddWord => exact ite_withInput hsdd (readingLsb_withInput h _ fun _ _ => rfl)
  | nduScan =>
    exact atLoopHead_withInput (readingByte_withInput h fun _ c =>
      ite_withInput (fetchEsc_withInput (s := { s with cur := c }) h) rfl)
  | nduRun => exact readingByte_withInput h fun _ _ => rfl

/-! ## The step -/

theorem engineStep_withInput : engineStep (withInput m s) = outcomeWithInput m (engineStep s) := by
  rw [engineStep, engineStep, fetchStream_withInput h]
  cases hf : fetchStream s with
  | run i t =>
    obtain ⟨hi, _⟩ := fetchStream_run hf
    exact exec_withInput m t hi
  | acted o => rfl

end
end

/-- Settles O57: `FETCHB`, the one reader of `IN`, reads below `IN_LEN`, so the fetch is the same from both inputs; no
symbol's rule reads `IN`. -/
theorem noReadPastTheInput : Obligations.NoReadPastTheInput := by
  intro s m hhost hagree
  have h := engineStep_withInput (sameBytes_of_agree hagree)
  rw [step_eq_engineStep hhost]
  refine (step_eq_engineStep (s := withInput m s) hhost).trans (h.trans ?_)
  cases engineStep s <;> rfl

end Sys2Proof.Proofs
end

section
/-! The encoder and the decoder: what each format can say and by which bits, and that decoding takes exactly those bits (R91
to R109). -/

namespace Sys2Proof.Proofs

open Sys2Proof.Machine Sys2Proof.Laws

/-! ## A field and its value -/

theorem toLsb_ofLsb (l : List Bool) : toLsb l.length (ofLsb l) = l := by
  induction l with
  | nil => rfl
  | cons d l ih =>
    have hbit : (d.toNat + 2 * ofLsb l) % 2 = d.toNat ∧ (d.toNat + 2 * ofLsb l) / 2 = ofLsb l := by
      have := Bool.toNat_lt d
      omega
    rw [List.length_cons, ofLsb, toLsb, hbit.1, hbit.2, ih]
    cases d <;> rfl

theorem ofLsb_lt (l : List Bool) : ofLsb l < 2 ^ l.length := by
  have h := ofMsb_lt l.reverse
  rwa [ofMsb, List.reverse_reverse, List.length_reverse] at h

/-- A field of at most `w` bits, read into a `w`-bit register and written out again. -/
theorem toLsb_ofNat_ofLsb {n w : Nat} {l : List Bool} (hl : l.length = n) (hw : n ≤ w) :
    (BitVec.ofNat w (ofLsb l)).toNat < 2 ^ n ∧ toLsb n (BitVec.ofNat w (ofLsb l)).toNat = l := by
  subst hl
  have hlt := ofLsb_lt l
  rw [BitVec.toNat_ofNat, Nat.mod_eq_of_lt (lt_of_lt_of_le hlt (Nat.pow_le_pow_right (by decide) hw))]
  exact ⟨hlt, toLsb_ofLsb l⟩

theorem ofNat_ofLsb_toLsb {n w : Nat} {v : BitVec w} (hv : v.toNat < 2 ^ n) :
    BitVec.ofNat w (ofLsb (toLsb n v.toNat)) = v := by
  rw [ofLsb_toLsb, Nat.mod_eq_of_lt hv, BitVec.ofNat_toNat, BitVec.setWidth_eq]

theorem ofNat_ofMsb_toMsb {n : Nat} (v : BitVec n) : BitVec.ofNat n (ofMsb (toMsb n v.toNat)) = v := by
  rw [ofMsb, toMsb, List.reverse_reverse, ofNat_ofLsb_toLsb v.isLt]

theorem toMsb_ofNat_ofMsb {n : Nat} {l : List Bool} (hl : l.length = n) :
    toMsb n (BitVec.ofNat n (ofMsb l)).toNat = l := by
  rw [toMsb, ofMsb, (toLsb_ofNat_ofLsb (by rw [List.length_reverse, hl]) le_rfl).2, List.reverse_reverse]

/-! ## Splitting fields off -/

theorem takeBits_append {n : Nat} {front : List Bool} (hn : front.length = n) (rest : List Bool) :
    takeBits n (front ++ rest) = some (front, rest) := by
  rw [takeBits_eq, if_pos (by simp [← hn]), List.take_left' hn, List.drop_left' hn]

theorem takeBits_some {n : Nat} {bits front rest : List Bool} (h : takeBits n bits = some (front, rest)) :
    front.length = n ∧ bits = front ++ rest := by
  rw [takeBits_eq, Option.ite_none_right_eq_some] at h
  obtain ⟨hn, he⟩ := h
  cases he
  exact ⟨by simp [hn], (List.take_append_drop n bits).symm⟩

theorem decodeField_append {n : Nat} {front : List Bool} (hn : front.length = n) (rest : List Bool)
    (f : List Bool → Instr) : decodeField n (front ++ rest) f = .ok (f front) rest := by
  rw [decodeField, takeBits_append hn]

/-- A field that decodes is the front of the bits. -/
theorem decodeField_front {n : Nat} {bits rest : List Bool} {f : List Bool → Instr} {i : Instr}
    (h : decodeField n bits f = .ok i rest) : ∃ front, front.length = n ∧ bits = front ++ rest ∧ i = f front := by
  obtain ⟨hn, hi, rfl⟩ := decodeField_ok h
  exact ⟨bits.take n, by simp [hn], (List.take_append_drop n bits).symm, hi⟩

/-! ## Command words -/

theorem decodeCmd_eq (w : Word) :
    decodeCmd w = match w.toNat % 4 with | 0 => .decLzw | 1 => .decHuf | 2 => .decSdd | _ => .decNdu := by
  have h : w.toNat % 4 < 4 := Nat.mod_lt _ (by decide)
  unfold decodeCmd
  generalize w.toNat % 4 = op at h ⊢
  interval_cases op <;> rfl

/-- The encoder writes a command as a word whose reserved bits are 0 (R91). -/
theorem encode_cmd {i : Instr} {bits : List Bool} (h : encode .cmd i = some bits) :
    ∃ w : Word, i = decodeCmd w ∧ bits = toLsb 32 w.toNat := by
  cases i with
  | decLzw => exact ⟨0, rfl, (Option.some.inj h).symm⟩
  | decHuf => exact ⟨1, rfl, (Option.some.inj h).symm⟩
  | decSdd => exact ⟨2, rfl, (Option.some.inj h).symm⟩
  | decNdu => exact ⟨3, rfl, (Option.some.inj h).symm⟩
  | _ => cases h

/-! ## LZW codes -/

section
variable {next : BitVec 14} {code : Code}

theorem classifyLzw_eq :
    classifyLzw next code =
      if code.toNat = 257 then .lzwEnd
      else if next.toNat < code.toNat then .lzwCorrupt code
      else if code.toNat = 256 then .lzwReset
      else if code.toNat ≤ 255 then .lzwLit (code.setWidth 8)
      else if code.toNat < next.toNat then .lzwRef code
      else .lzwKwkwk code := rfl

theorem classifyLzw_end (h : code.toNat = 257) : classifyLzw next code = .lzwEnd := by
  rw [classifyLzw_eq, if_pos h]

theorem classifyLzw_corrupt (h : code.toNat ≠ 257) (hnext : next.toNat < code.toNat) :
    classifyLzw next code = .lzwCorrupt code := by
  rw [classifyLzw_eq, if_neg h, if_pos hnext]

theorem classifyLzw_reset (h : code.toNat = 256) (hnext : 256 ≤ next.toNat) : classifyLzw next code = .lzwReset := by
  rw [classifyLzw_eq, if_neg (by omega), if_neg (by omega), if_pos h]

theorem classifyLzw_lit (h : code.toNat ≤ 255) (hnext : code.toNat ≤ next.toNat) :
    classifyLzw next code = .lzwLit (code.setWidth 8) := by
  rw [classifyLzw_eq, if_neg (by omega), if_neg (by omega), if_neg (by omega), if_pos h]

theorem classifyLzw_ref (h : 258 ≤ code.toNat) (hnext : code.toNat < next.toNat) :
    classifyLzw next code = .lzwRef code := by
  rw [classifyLzw_eq, if_neg (by omega), if_neg (by omega), if_neg (by omega), if_neg (by omega), if_pos hnext]

theorem classifyLzw_kwkwk (h : 258 ≤ code.toNat) (hnext : code.toNat = next.toNat) :
    classifyLzw next code = .lzwKwkwk code := by
  rw [classifyLzw_eq, if_neg (by omega), if_neg (by omega), if_neg (by omega), if_neg (by omega), if_neg (by omega)]

end

theorem encodeLzw_eq_some {width code : Nat} {bits : List Bool} :
    encodeLzw width code = some bits ↔ code < 2 ^ width ∧ toLsb width code = bits := by
  rw [encodeLzw, Option.ite_none_right_eq_some, Option.some.injEq]

/-- Whatever its class, a code is encoded as itself (R93, R94). -/
theorem encode_classifyLzw (width : Nat) (next : BitVec 14) (code : Code) :
    encode (.lzw width next) (classifyLzw next code) = encodeLzw width code.toNat := by
  by_cases hend : code.toNat = 257
  · rw [classifyLzw_end hend, hend]
    rfl
  rcases lt_or_ge next.toNat code.toNat with hnext | hnext
  · rw [classifyLzw_corrupt hend hnext]
    exact if_pos ⟨hnext, hend⟩
  by_cases hreset : code.toNat = 256
  · rw [hreset] at hnext
    rw [classifyLzw_reset hreset hnext, hreset]
    exact if_pos hnext
  rcases Nat.lt_or_ge code.toNat 256 with hlit | hbuilt
  · have hbyte : (code.setWidth 8).toNat = code.toNat := by
      rw [BitVec.toNat_setWidth, Nat.mod_eq_of_lt hlit]
    rw [classifyLzw_lit (by omega) hnext, ← hbyte]
    exact if_pos (hbyte ▸ hnext)
  have h258 : 258 ≤ code.toNat := by omega
  rcases Nat.lt_or_eq_of_le hnext with hlt | heq
  · rw [classifyLzw_ref h258 hlt]
    exact if_pos ⟨h258, hlt⟩
  · rw [classifyLzw_kwkwk h258 heq]
    exact if_pos ⟨h258, heq⟩

/-- What the LZW format can say is the codes of its width, each as its class. -/
theorem encode_lzw_iff {width : Nat} {next : BitVec 14} {i : Instr} {bits : List Bool} :
    encode (.lzw width next) i = some bits ↔
      ∃ code : Code, i = classifyLzw next code ∧ code.toNat < 2 ^ width ∧ toLsb width code.toNat = bits := by
  constructor
  · intro h
    suffices hclass : ∃ code : Code, i = classifyLzw next code by
      obtain ⟨code, rfl⟩ := hclass
      rw [encode_classifyLzw, encodeLzw_eq_some] at h
      exact ⟨code, rfl, h⟩
    cases i with
    | lzwEnd => exact ⟨257, (classifyLzw_end rfl).symm⟩
    | lzwCorrupt c =>
      obtain ⟨⟨hnext, hend⟩, _⟩ := Option.ite_none_right_eq_some.1 h
      exact ⟨c, (classifyLzw_corrupt hend hnext).symm⟩
    | lzwReset =>
      obtain ⟨hnext, _⟩ := Option.ite_none_right_eq_some.1 h
      exact ⟨256, (classifyLzw_reset rfl hnext).symm⟩
    | lzwLit b =>
      obtain ⟨hnext, _⟩ := Option.ite_none_right_eq_some.1 h
      have hb := b.isLt
      have hcode : (b.setWidth 13).toNat = b.toNat := BitVec.toNat_setWidth_of_le (by decide)
      refine ⟨b.setWidth 13, ?_⟩
      rw [classifyLzw_lit (by omega) (by omega), BitVec.setWidth_setWidth_of_le _ (by decide), BitVec.setWidth_eq]
    | lzwRef c =>
      obtain ⟨⟨h258, hnext⟩, _⟩ := Option.ite_none_right_eq_some.1 h
      exact ⟨c, (classifyLzw_ref h258 hnext).symm⟩
    | lzwKwkwk c =>
      obtain ⟨⟨h258, hnext⟩, _⟩ := Option.ite_none_right_eq_some.1 h
      exact ⟨c, (classifyLzw_kwkwk h258 hnext).symm⟩
    | _ => cases h
  · rintro ⟨code, rfl, h⟩
    rwa [encode_classifyLzw, encodeLzw_eq_some]

/-! ## Sigma-delta value words -/

/-- What the value word format can say is the words of its width, each as its class (R101). -/
theorem encode_sddWord_iff {width : Nat} {i : Instr} {bits : List Bool} :
    encode (.sddWord width) i = some bits ↔
      ∃ v : BitVec 9, i = classifySdd width v ∧ v.toNat < 2 ^ width ∧ toLsb width v.toNat = bits := by
  constructor
  · intro h
    cases i with
    | sddEsc => exact ⟨0, rfl, Nat.two_pow_pos width, Option.some.inj h⟩
    | sddHold v =>
      obtain ⟨⟨hlt, hne, htop⟩, hbits⟩ := Option.ite_none_right_eq_some.1 h
      exact ⟨v, by rw [classifySdd, if_neg hne, if_pos htop], hlt, Option.some.inj hbits⟩
    | sddDelta v =>
      obtain ⟨⟨hlt, hne, htop⟩, hbits⟩ := Option.ite_none_right_eq_some.1 h
      exact ⟨v, by rw [classifySdd, if_neg hne, if_neg (by simp [htop])], hlt, Option.some.inj hbits⟩
    | _ => cases h
  · rintro ⟨v, rfl, hlt, rfl⟩
    unfold classifySdd
    split_ifs with hzero htop
    · rw [hzero]
      rfl
    · exact if_pos ⟨hlt, hzero, htop⟩
    · exact if_pos ⟨hlt, hzero, Bool.not_eq_true _ ▸ htop⟩

/-! ## The formats of one symbol -/

theorem encode_hufNode_iff {i : Instr} {bits : List Bool} :
    encode .hufNode i = some bits ↔ ∃ v l r, i = .hufNode v l r ∧ toMsb 7 v.toNat ++ [l, r] = bits := by
  constructor
  · intro h
    cases i with
    | hufNode v l r => exact ⟨v, l, r, rfl, Option.some.inj h⟩
    | _ => cases h
  · rintro ⟨v, l, r, rfl, rfl⟩
    rfl

theorem encode_hufSample_iff {nodes : Table Node} {nodeCount : Nat} {i : Instr} {bits : List Bool} :
    encode (.hufSample nodes nodeCount) i = some bits ↔
      ∃ sign path, i = .hufSample sign path ∧ pathFits nodes nodeCount Config.hufNodeCap 0 path = true ∧
        sign :: path = bits := by
  cases i <;> simp [encode]

theorem encode_sddHdr_iff {i : Instr} {bits : List Bool} :
    encode .sddHdr i = some bits ↔ ∃ m, i = .sddHdr m ∧ toMsb 8 m.toNat = bits := by
  cases i <;> simp [encode]

theorem encode_sddInit_iff {i : Instr} {bits : List Bool} :
    encode .sddInit i = some bits ↔ ∃ a, i = .sddInit a ∧ toLsb 8 a.toNat = bits := by
  cases i <;> simp [encode]

theorem encode_nduRun_iff {i : Instr} {bits : List Bool} :
    encode .nduRun i = some bits ↔ ∃ h l, i = .nduPair h l ∧ toMsb 4 h.toNat ++ toMsb 4 l.toNat = bits := by
  cases i <;> simp [encode]

/-- In scan state a byte other than the escape byte is a literal, and the escape byte begins a sequence (R103, R105). -/
theorem encode_nduScan_iff {escape : Byte} {i : Instr} {bits : List Bool} :
    encode (.nduScan escape) i = some bits ↔
      (∃ b, i = .nduLit b ∧ b ≠ escape ∧ toMsb 8 b.toNat = bits) ∨
      ∃ seed count, i = .nduEsc seed count ∧
        toMsb 8 escape.toNat ++ toMsb 8 seed.toNat ++ toMsb 16 count.toNat = bits := by
  cases i <;> simp [encode]

/-! ## The walk of a sample code -/

/-- A walk takes the path that fits, and no more. -/
theorem decodePath_append {nodes : Table Node} {nodeCount fuel : Nat} {node : NodeIdx} {path : List Bool}
    (h : pathFits nodes nodeCount fuel node path = true) (rest : List Bool) :
    decodePath nodes nodeCount fuel node (path ++ rest) = .ok (path, rest) := by
  induction fuel generalizing node path with
  | zero => cases h
  | succ fuel ih =>
    rw [pathFits] at h
    rw [decodePath]
    cases hget : tableGet nodes node.toNat with
    | none => simp [hget] at h
    | some n =>
      simp only [hget] at h ⊢
      cases path with
      | nil => exact if_pos h
      | cons d path =>
        by_cases hleaf : isLeaf n = true
        · simp [hleaf] at h
        · simp only [if_neg hleaf, List.cons_append] at h ⊢
          cases hchild : childOf n d with
          | none =>
            simp only [hchild, List.isEmpty_iff] at h
            rw [h, List.nil_append]
          | some child =>
            simp only [hchild] at h ⊢
            by_cases hout : nodeCount ≤ child.toNat
            · rw [if_pos hout, List.isEmpty_iff] at h
              rw [if_pos hout, h, List.nil_append]
            · rw [if_neg hout] at h
              rw [if_neg hout, ih h]

/-- The path that a walk takes fits, and is the front of the bits. -/
theorem decodePath_front {nodes : Table Node} {nodeCount fuel : Nat} {node : NodeIdx} {bits path rest : List Bool}
    (h : decodePath nodes nodeCount fuel node bits = .ok (path, rest)) :
    pathFits nodes nodeCount fuel node path = true ∧ bits = path ++ rest := by
  induction fuel generalizing node bits path with
  | zero => cases h
  | succ fuel ih =>
    rw [decodePath] at h
    rw [pathFits]
    cases hget : tableGet nodes node.toNat with
    | none => simp [hget] at h
    | some n =>
      simp only [hget] at h ⊢
      by_cases hleaf : isLeaf n = true
      · rw [if_pos hleaf] at h
        cases h
        exact ⟨hleaf, rfl⟩
      · rw [if_neg hleaf] at h
        cases bits with
        | nil => cases h
        | cons d after =>
          cases hchild : childOf n d with
          | none =>
            simp only [hchild] at h
            cases h
            simp [hleaf, hchild]
          | some child =>
            simp only [hchild] at h
            by_cases hout : nodeCount ≤ child.toNat
            · rw [if_pos hout] at h
              cases h
              simp [hleaf, hchild, hout]
            · rw [if_neg hout] at h
              cases hbelow : decodePath nodes nodeCount fuel child after with
              | error r => simp [hbelow] at h
              | ok pair =>
                simp only [hbelow] at h
                cases h
                obtain ⟨hfits, hbits⟩ := ih hbelow
                simpa [hleaf, hchild, hout] using And.intro hfits hbits

/-! ## An escape sequence -/

theorem decodeEsc_append (seed : Byte) (count : BitVec 16) (rest : List Bool) :
    decodeEsc (toMsb 8 seed.toNat ++ (toMsb 16 count.toNat ++ rest)) = .ok (.nduEsc seed count) rest := by
  simp only [decodeEsc, takeBits_append (toMsb_length _ _), ofNat_ofMsb_toMsb]

/-- An escape sequence that decodes is the front of the bits: its seed, then its count. -/
theorem decodeEsc_front {bits rest : List Bool} {i : Instr} (h : decodeEsc bits = .ok i rest) :
    ∃ seed count, i = .nduEsc seed count ∧ bits = toMsb 8 seed.toNat ++ (toMsb 16 count.toNat ++ rest) := by
  unfold decodeEsc at h
  split at h
  · cases h
  · rename_i seed after hseed
    split at h
    · cases h
    · rename_i count rest' hcount
      cases h
      obtain ⟨hseed8, rfl⟩ := takeBits_some hseed
      obtain ⟨hcount16, rfl⟩ := takeBits_some hcount
      exact ⟨_, _, rfl, by rw [toMsb_ofNat_ofMsb hseed8, toMsb_ofNat_ofMsb hcount16]⟩

/-! ## Decoding and encoding -/

/-- Settles O9: format by format, the decoder splits off the fields that the encoder wrote, and each reads back as its
value. -/
theorem decodeInvertsEncode : Obligations.DecodeInvertsEncode := by
  intro f i bits rest h
  cases f with
  | cmd =>
    obtain ⟨w, rfl, rfl⟩ := encode_cmd h
    rw [decode, decodeField_append (toLsb_length _ _), ofNat_ofLsb_toLsb w.isLt]
  | lzw width next =>
    obtain ⟨code, rfl, hlt, rfl⟩ := encode_lzw_iff.1 h
    rw [decode, decodeField_append (toLsb_length _ _), ofNat_ofLsb_toLsb hlt]
  | hufNode =>
    obtain ⟨v, l, r, rfl, rfl⟩ := encode_hufNode_iff.1 h
    rw [decode, decodeField_append (by simp), List.take_left' (toMsb_length _ _), ofNat_ofMsb_toMsb,
      List.getD_append_right _ _ _ _ (by simp), List.getD_append_right _ _ _ _ (by simp), toMsb_length]
    rfl
  | hufSample nodes nodeCount =>
    obtain ⟨sign, path, rfl, hfits, rfl⟩ := encode_hufSample_iff.1 h
    simp only [decode, List.cons_append, decodePath_append hfits]
  | sddHdr =>
    obtain ⟨m, rfl, rfl⟩ := encode_sddHdr_iff.1 h
    rw [decode, decodeField_append (toMsb_length _ _), ofNat_ofMsb_toMsb]
  | sddInit =>
    obtain ⟨a, rfl, rfl⟩ := encode_sddInit_iff.1 h
    rw [decode, decodeField_append (toLsb_length _ _), ofNat_ofLsb_toLsb a.isLt]
  | sddWord width =>
    obtain ⟨v, rfl, hlt, rfl⟩ := encode_sddWord_iff.1 h
    rw [decode, decodeField_append (toLsb_length _ _), ofNat_ofLsb_toLsb hlt]
  | nduScan escape =>
    rcases encode_nduScan_iff.1 h with ⟨b, rfl, hb, rfl⟩ | ⟨seed, count, rfl, rfl⟩
    · simp only [decode, takeBits_append (toMsb_length _ _), ofNat_ofMsb_toMsb, if_neg hb]
    · simp only [decode, List.append_assoc, takeBits_append (toMsb_length _ _), ofNat_ofMsb_toMsb, if_true,
        decodeEsc_append]
  | nduRun =>
    obtain ⟨h, l, rfl, rfl⟩ := encode_nduRun_iff.1 h
    rw [decode, decodeField_append (by simp), List.take_left' (toMsb_length _ _), List.drop_left' (toMsb_length _ _),
      ofNat_ofMsb_toMsb, ofNat_ofMsb_toMsb]

/-- A node record is its value's seven bits and its two flags (R96). -/
theorem nodeRecord_parts {l : List Bool} (h : l.length = 9) :
    toMsb 7 (BitVec.ofNat 7 (ofMsb (l.take 7))).toNat ++ [l.getD 7 false, l.getD 8 false] = l := by
  rw [toMsb_ofNat_ofMsb (by simp [h])]
  match l, h with
  | [_, _, _, _, _, _, _, _, _], _ => rfl

/-- Settles O10: format by format, the bits that the decoder split off are the field that the encoder writes for its value. -/
theorem encodeInvertsDecode : Obligations.EncodeInvertsDecode := by
  intro f i bits rest hwidth h
  cases f with
  | cmd => exact hwidth.elim
  | lzw width next =>
    obtain ⟨_, hmax⟩ := hwidth
    obtain ⟨front, hlen, rfl, rfl⟩ := decodeField_front h
    obtain ⟨hlt, hbits⟩ := toLsb_ofNat_ofLsb hlen hmax
    exact ⟨front, encode_lzw_iff.2 ⟨_, rfl, hlt, hbits⟩, rfl⟩
  | hufNode =>
    obtain ⟨front, hlen, rfl, rfl⟩ := decodeField_front h
    exact ⟨front, encode_hufNode_iff.2 ⟨_, _, _, rfl, nodeRecord_parts hlen⟩, rfl⟩
  | hufSample nodes nodeCount =>
    cases bits with
    | nil => cases h
    | cons sign after =>
      rw [decode] at h
      cases hpath : decodePath nodes nodeCount Config.hufNodeCap 0 after with
      | error r => simp only [hpath, reduceCtorEq] at h
      | ok pair =>
        obtain ⟨path, rest'⟩ := pair
        simp only [hpath] at h
        cases h
        obtain ⟨hfits, rfl⟩ := decodePath_front hpath
        exact ⟨sign :: path, encode_hufSample_iff.2 ⟨_, _, rfl, hfits, rfl⟩, rfl⟩
  | sddHdr =>
    obtain ⟨front, hlen, rfl, rfl⟩ := decodeField_front h
    exact ⟨front, encode_sddHdr_iff.2 ⟨_, rfl, toMsb_ofNat_ofMsb hlen⟩, rfl⟩
  | sddInit =>
    obtain ⟨front, hlen, rfl, rfl⟩ := decodeField_front h
    obtain ⟨_, hbits⟩ := toLsb_ofNat_ofLsb hlen le_rfl
    exact ⟨front, encode_sddInit_iff.2 ⟨_, rfl, hbits⟩, rfl⟩
  | sddWord width =>
    obtain ⟨_, hmax⟩ := hwidth
    obtain ⟨front, hlen, rfl, rfl⟩ := decodeField_front h
    obtain ⟨hlt, hbits⟩ := toLsb_ofNat_ofLsb hlen hmax
    exact ⟨front, encode_sddWord_iff.2 ⟨_, rfl, hlt, hbits⟩, rfl⟩
  | nduScan escape =>
    unfold decode at h
    cases htake : takeBits 8 bits with
    | none => simp [htake] at h
    | some pair =>
      obtain ⟨byte, after⟩ := pair
      obtain ⟨hlen, rfl⟩ := takeBits_some htake
      have hbyte := toMsb_ofNat_ofMsb hlen
      simp only [htake] at h
      by_cases hesc : BitVec.ofNat 8 (ofMsb byte) = escape
      · rw [if_pos hesc] at h
        obtain ⟨seed, count, rfl, rfl⟩ := decodeEsc_front h
        exact ⟨_, encode_nduScan_iff.2 (.inr ⟨seed, count, rfl, rfl⟩), by rw [← hesc, hbyte]; simp⟩
      · rw [if_neg hesc] at h
        cases h
        exact ⟨byte, encode_nduScan_iff.2 (.inl ⟨_, rfl, hesc, hbyte⟩), rfl⟩
  | nduRun =>
    obtain ⟨front, hlen, rfl, rfl⟩ := decodeField_front h
    refine ⟨front, encode_nduRun_iff.2 ⟨_, _, rfl, ?_⟩, rfl⟩
    rw [toMsb_ofNat_ofMsb (by simp [hlen]), toMsb_ofNat_ofMsb (by simp [hlen]), List.take_append_drop]

/-! ## Commands, classes and written-out words -/

/-- Settles O7: the write of `CMD` is a step of its own, which runs the command that its word decodes to. -/
theorem commandWordRunsItsCommand : Obligations.CommandWordRunsItsCommand := by
  intro s w rest
  have hstep : step { s with host := .writeReg 0 w :: rest } = exec (decodeCmd w) { s with host := rest } := rfl
  exact hstep.trans (congrArg (exec · { s with host := rest }) (decodeCmd_eq w))

/-- Settles O11: each class by the lemma of that class. -/
theorem lzwClassesByCondition : Obligations.LzwClassesByCondition := by
  intro next code hlo _
  refine ⟨classifyLzw_end, fun h => classifyLzw_corrupt (by omega) h, fun h => classifyLzw_reset h (by omega), fun h => ?_,
    classifyLzw_ref, classifyLzw_kwkwk⟩
  rw [classifyLzw_lit h (by omega)]
  rfl

/-- Settles O8: the node record and the escape sequence are what the encoder writes for their instructions; a word of the
opcode table is decoded by computation. -/
theorem writtenOutWordsDecode : Obligations.WrittenOutWordsDecode :=
  ⟨rfl, rfl, rfl, decodeInvertsEncode .hufNode (.hufNode 3 true false) _ [] rfl,
    decodeInvertsEncode (.nduScan 0xFE) (.nduEsc 0x10 0x0102) _ [] rfl⟩

end Sys2Proof.Proofs
end

section
/-! The node records of a tree, one after another: each allocates the next slot, and the last record of a subtree returns to
the node that waits for it (R97, R182, R185, R194). -/

namespace Sys2Proof.Proofs

open Sys2Proof.Machine Sys2Proof.Laws Sys2Proof.Safety

/-! ## Runs of instructions -/

theorem execAll_cons {i : Instr} {rest : List Instr} {s t : State} (h : exec i s = .next t) :
    execAll (i :: rest) s = execAll rest t := by
  rw [execAll, h]

theorem execAll_singleton (i : Instr) (s : State) : execAll [i] s = exec i s := by
  rw [execAll]
  cases exec i s <;> rfl

theorem execAll_append {a b : List Instr} {s t : State} (h : execAll a s = .next t) :
    execAll (a ++ b) s = execAll b t := by
  induction a generalizing s with
  | nil =>
    cases h
    rfl
  | cons i a ih =>
    rw [List.cons_append]
    cases he : exec i s with
    | next u =>
      rw [execAll_cons he] at h ⊢
      exact ih h
    | fault f => simp [execAll, he] at h
    | refused r => simp [execAll, he] at h

/-! ## Slots filled -/

/-- From `before` to `after` the slots from `i` on are filled with `ns` (R182); every other slot stays. -/
structure Fills (i : Nat) (ns : List Node) (before after : Table Node) : Prop where
  filled : ∀ k n, ns[k]? = some n → tableGet after (i + k) = some n
  others : ∀ k, k < i ∨ i + ns.length ≤ k → tableGet after k = tableGet before k

section
variable {i : Nat} {t u w : Table Node}

theorem fills_alloc (n : Node) : Fills i [n] t (tableSet t i n) where
  filled k m hk := by
    cases k with
    | zero =>
      cases hk
      exact tableGet_tableSet_same
    | succ k => cases hk
  others k hk := tableGet_tableSet_other (by rw [List.length_singleton] at hk; omega)

/-- Filling goes on where it stood. -/
theorem Fills.append {a b : List Node} {j : Nat} (ha : Fills i a t u) (hj : j = i + a.length) (hb : Fills j b u w) :
    Fills i (a ++ b) t w where
  filled k n hk := by
    subst hj
    by_cases hlt : k < a.length
    · rw [List.getElem?_append_left hlt] at hk
      rw [hb.others _ (.inl (by omega)), ha.filled k n hk]
    · rw [List.getElem?_append_right (by omega)] at hk
      have h := hb.filled _ n hk
      rwa [show i + a.length + (k - a.length) = i + k by omega] at h
  others k hk := by
    subst hj
    rw [List.length_append] at hk
    rw [hb.others k (by omega), ha.others k (by omega)]

theorem Fills.cons {n : Node} {ns : List Node} (h : Fills (i + 1) ns (tableSet t i n) u) : Fills i (n :: ns) t u :=
  (fills_alloc n).append rfl h

/-- A link set in the first of the slots filled. -/
theorem Fills.update {n : Node} {ns : List Node} {slot : NodeIdx} (h : Fills i (n :: ns) t u) (hslot : slot.toNat = i)
    (f : Node → Node) : Fills i (f n :: ns) t (updateNode u slot f) where
  filled k m hk := by
    subst hslot
    cases k with
    | zero =>
      cases hk
      rw [Nat.add_zero, tableGet_updateNode_same]
      exact congrArg (Option.map f) (h.filled 0 n rfl)
    | succ k =>
      rw [tableGet_updateNode_other (by omega)]
      exact h.filled (k + 1) m hk
  others k hk := by
    subst hslot
    rw [List.length_cons] at hk
    rw [tableGet_updateNode_other (by omega)]
    exact h.others k hk

end

@[simp] theorem layout_length (i : Nat) (tree : CodeTree) : (tree.layout i).length = tree.size := by
  induction tree generalizing i with
  | leaf v => rfl
  | leftOnly v l ih => simp [CodeTree.layout, CodeTree.size, ih, Nat.add_comm]
  | rightOnly v r ih => simp [CodeTree.layout, CodeTree.size, ih, Nat.add_comm]
  | both v l r ihl ihr =>
    simp only [CodeTree.layout, CodeTree.size, List.length_cons, List.length_append, ihl, ihr]
    omega

/-! ## A record -/

/-- A node with slot `j` as its left child (R39). -/
def linkLeft (j : Nat) (n : Node) : Node := { n with left := some (BitVec.ofNat 8 j) }

/-- A node with slot `j` as its right child (R39). -/
def linkRight (j : Nat) (n : Node) : Node := { n with right := some (BitVec.ofNat 8 j) }

/-- The slots after a record of value `v` has taken slot `i`. -/
def withSlot (v : BitVec 7) (i : Nat) (nodes : Table Node) : Table Node :=
  tableSet nodes i { left := none, right := none, value := v }

/-- `s` in the build, with `count` slots allocated. -/
def inBuild (nodes : Table Node) (count : Nat) (stack : List BuildFrame) (s : State) : State :=
  { s with huf := { s.huf with nodes := nodes, nodeCount := BitVec.ofNat 9 count, stack := stack } }

/-- `s` in the build, where the subtree of slot `j` has just been completed (R182). -/
def completed (j : Nat) (nodes : Table Node) (count : Nat) (stack : List BuildFrame) (s : State) :
    Host.Outcome State Fault Refusal :=
  match returnBuild (BitVec.ofNat 8 j) nodes stack with
  | (nodes, some stack) => .next (inBuild nodes count stack s)
  | (nodes, none) => checkRoot (inBuild nodes count [] s)

section
variable {i j count : Nat} {nodes : Table Node} {stack : List BuildFrame} {s : State}

/-- A left child completed where the right one follows: the build goes on with that one. -/
theorem completed_left_of_both :
    completed j nodes count (⟨BitVec.ofNat 8 i, .leftChild true⟩ :: stack) s =
      .next (inBuild (updateNode nodes (BitVec.ofNat 8 i) (linkLeft j)) count
        (⟨BitVec.ofNat 8 i, .rightChild⟩ :: stack) s) := rfl

/-- An only child on the left completes its node. -/
theorem completed_left :
    completed j nodes count (⟨BitVec.ofNat 8 i, .leftChild false⟩ :: stack) s =
      completed i (updateNode nodes (BitVec.ofNat 8 i) (linkLeft j)) count stack s := rfl

/-- A right child completes its node. -/
theorem completed_right :
    completed j nodes count (⟨BitVec.ofNat 8 i, .rightChild⟩ :: stack) s =
      completed i (updateNode nodes (BitVec.ofNat 8 i) (linkRight j)) count stack s := rfl

theorem inBuild_start (hcount : s.huf.nodeCount = 0) (hstack : s.huf.stack = []) : inBuild s.huf.nodes 0 [] s = s := by
  have hzero : BitVec.ofNat 9 0 = s.huf.nodeCount := hcount.symm
  rw [inBuild, hzero, ← hstack]

theorem slotIndex_toNat (hi : i < 256) : (BitVec.ofNat 8 i).toNat = i := Nat.mod_eq_of_lt hi

theorem inBuild_nodeCount (hi : i < 256) : (inBuild nodes i stack s).huf.nodeCount.toNat = i :=
  Nat.mod_eq_of_lt (by omega)

theorem allocNode_inBuild (v : BitVec 7) (hi : i < 256) :
    allocNode v (inBuild nodes i stack s).huf = (inBuild (withSlot v i nodes) (i + 1) stack s).huf := by
  rw [allocNode, inBuild_nodeCount hi]
  simp only [inBuild, withSlot, BitVec.ofNat_add]
  rfl

theorem inBuild_slot : (inBuild nodes i stack s).huf.nodeCount.setWidth 8 = BitVec.ofNat 8 i :=
  BitVec.setWidth_ofNat_of_le (by decide) i

/-- A record in the build takes its slot; then it waits for its first child, or, having none, is completed. -/
theorem exec_hufNode_inBuild (hp : s.phase = .hufNode) (hi : i < 256) (v : BitVec 7) (l r : Bool) :
    exec (.hufNode v l r) (inBuild nodes i stack s) =
      if l then .next (inBuild (withSlot v i nodes) (i + 1) (⟨BitVec.ofNat 8 i, .leftChild r⟩ :: stack) s)
      else if r then .next (inBuild (withSlot v i nodes) (i + 1) (⟨BitVec.ofNat 8 i, .rightChild⟩ :: stack) s)
      else completed i (withSlot v i nodes) (i + 1) stack s := by
  have hrun : exec (.hufNode v l r) (inBuild nodes i stack s) = execHufNode v l r (inBuild nodes i stack s) := rfl
  rw [hrun, execHufNode, inPhase_of_phase (s := inBuild nodes i stack s) hp,
    if_neg (by rw [inBuild_nodeCount hi]; exact Nat.not_le.2 hi), allocNode_inBuild v hi, inBuild_slot]
  rfl

end

/-! ## A tree -/

/-- The records of a subtree fill its slots in pre-order, and the last of them completes it (R97, R182). -/
theorem execAll_records {tree : CodeTree} {s : State} (hp : s.phase = .hufNode) :
    ∀ {i nodes stack}, i + tree.size ≤ 256 → ∃ nodes', Fills i (tree.layout i) nodes nodes' ∧
      execAll tree.records (inBuild nodes i stack s) = completed i nodes' (i + tree.size) stack s := by
  induction tree with
  | leaf v =>
    intro i nodes stack hsize
    refine ⟨_, fills_alloc _, ?_⟩
    exact (execAll_singleton _ _).trans (exec_hufNode_inBuild hp hsize v false false)
  | leftOnly v l ih =>
    intro i nodes stack hsize
    rw [CodeTree.size] at hsize
    obtain ⟨nodes1, hfill, hrun⟩ := ih (nodes := withSlot v i nodes)
      (stack := ⟨BitVec.ofNat 8 i, .leftChild false⟩ :: stack) (show i + 1 + l.size ≤ 256 by omega)
    refine ⟨_, hfill.cons.update (slotIndex_toNat (by omega)) (linkLeft (i + 1)), ?_⟩
    rw [CodeTree.records, execAll_cons (exec_hufNode_inBuild hp (by omega) v true false), hrun, completed_left,
      CodeTree.size, ← Nat.add_assoc]
  | rightOnly v r ih =>
    intro i nodes stack hsize
    rw [CodeTree.size] at hsize
    obtain ⟨nodes1, hfill, hrun⟩ := ih (nodes := withSlot v i nodes)
      (stack := ⟨BitVec.ofNat 8 i, .rightChild⟩ :: stack) (show i + 1 + r.size ≤ 256 by omega)
    refine ⟨_, hfill.cons.update (slotIndex_toNat (by omega)) (linkRight (i + 1)), ?_⟩
    rw [CodeTree.records, execAll_cons (exec_hufNode_inBuild hp (by omega) v false true), hrun, completed_right,
      CodeTree.size, ← Nat.add_assoc]
  | both v l r ihl ihr =>
    intro i nodes stack hsize
    rw [CodeTree.size] at hsize
    have hslot : (BitVec.ofNat 8 i).toNat = i := slotIndex_toNat (by omega)
    obtain ⟨nodes1, hfill1, hrun1⟩ := ihl (nodes := withSlot v i nodes)
      (stack := ⟨BitVec.ofNat 8 i, .leftChild true⟩ :: stack) (show i + 1 + l.size ≤ 256 by omega)
    have hleft := hfill1.cons.update hslot (linkLeft (i + 1))
    obtain ⟨nodes2, hfill2, hrun2⟩ := ihr (nodes := updateNode nodes1 (BitVec.ofNat 8 i) (linkLeft (i + 1)))
      (stack := ⟨BitVec.ofNat 8 i, .rightChild⟩ :: stack) (show i + 1 + l.size + r.size ≤ 256 by omega)
    have hboth := hleft.append (by rw [List.length_cons, layout_length]; omega) hfill2
    refine ⟨_, hboth.update hslot (linkRight (i + 1 + l.size)), ?_⟩
    rw [CodeTree.records, execAll_cons (exec_hufNode_inBuild hp (by omega) v true true),
      execAll_append (hrun1.trans completed_left_of_both), hrun2, completed_right, CodeTree.size, ← Nat.add_assoc,
      ← Nat.add_assoc]

theorem checkRoot_both {s : State} {root : Node} (h : tableGet s.huf.nodes 0 = some root) (hleft : root.left ≠ none)
    (hright : root.right ≠ none) : checkRoot s = .next { s with phase := .hufSample } := by
  simp only [checkRoot, h]
  exact if_neg (not_or.2 ⟨hleft, hright⟩)

/-- Settles O32: the records fill the tree's slots by induction on the tree, and the last one completes the root, which has two
children. -/
theorem hufBuildsTheTree : Obligations.HufBuildsTheTree := by
  intro v l r s hp hcount hstack hsize
  obtain ⟨nodes, hfill, hrun⟩ := execAll_records (nodes := s.huf.nodes) (stack := []) hp
    (i := 0) (tree := .both v l r) (by omega)
  rw [inBuild_start hcount hstack, Nat.zero_add] at hrun
  have hroot : checkRoot (inBuild nodes (CodeTree.both v l r).size [] s) = _ :=
    checkRoot_both (hfill.filled 0 _ rfl) (Option.some_ne_none _) (Option.some_ne_none _)
  refine ⟨_, hrun.trans hroot, rfl, rfl, Nat.mod_eq_of_lt (by omega), fun i hi => ?_, ?_⟩
  · rw [← layout_length 0] at hi
    have h := hfill.filled i _ (List.getElem?_eq_getElem hi)
    rw [Nat.zero_add] at h
    exact h.trans (List.getElem?_eq_getElem hi).symm
  · simp only [inBuild, hstack]

end Sys2Proof.Proofs
end

section
/-! Where a micro-operation leaves the cursor: how far it reads, and where it stands when the input is over (R131 to R136). -/

namespace Sys2Proof.Proofs

open Sys2Proof.Machine Sys2Proof.Laws Sys2Proof.Safety

/-! ## The input over -/

/-- From cursor `c` a read has found the input over at `c'`: every byte is fetched, and mode `LSB` alone still holds bits that
were not delivered (R132, R135). -/
structure RunsOut (inp : Memory) (inLen : Word) (c c' : Cursor) : Prop where
  exhausted_eq : c'.exhausted = true
  mode_eq : c'.mode = c.mode
  position : c'.bytePos.toNat = max inLen.toNat c.bytePos.toNat
  ahead_eq : ahead inp inLen c' = if c.mode = .lsb then ahead inp inLen c else []

theorem ahead_over {inp : Memory} {inLen : Word} {c : Cursor} (hm : c.mode ≠ .lsb) (hempty : c.bitsAvailable = 0)
    (hover : inLen.toNat ≤ c.bytePos.toNat) : ahead inp inLen c = [] := by
  rw [ahead_msb hm, hempty, unfetched_nil hover]
  rfl

/-- `FETCHB` past the last byte takes nothing (R131). -/
theorem runsOut_here {inp : Memory} {inLen : Word} {c : Cursor} (hover : inLen.toNat ≤ c.bytePos.toNat)
    (hempty : c.mode ≠ .lsb → c.bitsAvailable = 0) : RunsOut inp inLen c { c with exhausted := true } where
  exhausted_eq := rfl
  mode_eq := rfl
  position := (max_eq_right hover).symm
  ahead_eq := by
    by_cases hm : c.mode = .lsb
    · rw [if_pos hm]
      rfl
    · rw [if_neg hm]
      exact ahead_over hm (hempty hm) hover

/-- From `c` to `c1` bytes before the input's end have been fetched, and mode `LSB` has delivered none of their bits. -/
structure Proceeds (inp : Memory) (inLen : Word) (c c1 : Cursor) : Prop where
  mode_eq : c1.mode = c.mode
  position : max inLen.toNat c1.bytePos.toNat = max inLen.toNat c.bytePos.toNat
  ahead_eq : c.mode = .lsb → ahead inp inLen c1 = ahead inp inLen c

theorem RunsOut.after {inp : Memory} {inLen : Word} {c c1 c2 : Cursor} (h2 : RunsOut inp inLen c1 c2)
    (h1 : Proceeds inp inLen c c1) : RunsOut inp inLen c c2 where
  exhausted_eq := h2.exhausted_eq
  mode_eq := h2.mode_eq.trans h1.mode_eq
  position := h2.position.trans h1.position
  ahead_eq := by
    rw [h2.ahead_eq, h1.mode_eq]
    split
    · exact h1.ahead_eq (by assumption)
    · rfl

theorem position_succ {inLen : Word} {c : Cursor} (hin : c.bytePos.toNat < inLen.toNat) :
    max inLen.toNat (c.bytePos + 1).toNat = max inLen.toNat c.bytePos.toNat := by
  rw [bytePos_succ hin]
  omega

/-- A micro-operation that finds the input over leaves the cursor as `RunsOut` says. -/
def EndsOut {α : Type} (inp : Memory) (inLen : Word) (c : Cursor) (d : Delivery α) : Prop :=
  ∀ c', d = .exhausted c' → RunsOut inp inLen c c'

/-- A micro-operation that delivers a value leaves the cursor as `Proceeds` says. -/
def Delivers {α : Type} (inp : Memory) (inLen : Word) (c : Cursor) (d : Delivery α) : Prop :=
  ∀ v c', d = .value v c' → Proceeds inp inLen c c'

/-! ## `FETCHB` -/

theorem fetchByte_endsOut {inp : Memory} {inLen : Word} {c : Cursor} (hm : c.mode = .byte) (hb : BufferOk c) :
    EndsOut inp inLen c (fetchByte inp inLen c) := by
  intro c' hd
  rcases fetchByte_cases inp inLen c with ⟨hover, he⟩ | ⟨_, he⟩
  · rw [he] at hd
    cases hd
    exact runsOut_here hover fun _ => ((bufferOk_byte hm).1 hb).1
  · rw [he] at hd
    cases hd

theorem fetchByte_delivers {inp : Memory} {inLen : Word} {c : Cursor} (hm : c.mode ≠ .lsb) :
    Delivers inp inLen c (fetchByte inp inLen c) := by
  intro v c' hd
  rcases fetchByte_cases inp inLen c with ⟨_, he⟩ | ⟨hin, he⟩
  · rw [he] at hd
    cases hd
  · rw [he] at hd
    cases hd
    exact ⟨rfl, position_succ hin, fun h => absurd h hm⟩

/-! ## `RDBIT_M` and `RDBITS_M` -/

/-- The input is over for `RDBIT_M` where no bit is held and no byte is left (R133). -/
theorem readBitMsb_exhausted {inp : Memory} {inLen : Word} {c c' : Cursor}
    (hd : readBitMsb inp inLen c = .exhausted c') :
    c.bitsAvailable = 0 ∧ inLen.toNat ≤ c.bytePos.toNat ∧ c' = { c with exhausted := true } := by
  rcases readBitMsb_cases inp inLen c with ⟨_, he⟩ | ⟨_, _, he⟩ | ⟨hempty, hover, he⟩
  · cases he ▸ hd
  · cases he ▸ hd
  · cases he ▸ hd
    exact ⟨hempty, hover, rfl⟩

/-- A bit delivered is one less held; a byte is fetched where none was, from inside the input (R133). -/
theorem readBitMsb_value {inp : Memory} {inLen : Word} {c c' : Cursor} {d : Bool}
    (hd : readBitMsb inp inLen c = .value d c') :
    c'.mode = c.mode ∧
      ((c.bitsAvailable ≠ 0 ∧ c'.bytePos = c.bytePos ∧ c'.bitsAvailable.toNat + 1 = c.bitsAvailable.toNat) ∨
       (c.bitsAvailable = 0 ∧ c.bytePos.toNat < inLen.toNat ∧ c'.bytePos = c.bytePos + 1 ∧
         c'.bitsAvailable.toNat = 7)) := by
  rcases readBitMsb_cases inp inLen c with ⟨hheld, he⟩ | ⟨hempty, hin, he⟩ | ⟨_, _, he⟩
  · cases he ▸ hd
    have hpos : c.bitsAvailable.toNat ≠ 0 := fun h0 => hheld (BitVec.eq_of_toNat_eq h0)
    refine ⟨rfl, .inl ⟨hheld, rfl, ?_⟩⟩
    rw [BitVec.toNat_sub, show (1 : BitVec 6).toNat = 1 from rfl]
    omega
  · cases he ▸ hd
    exact ⟨rfl, .inr ⟨hempty, hin, rfl, show ((8 : BitVec 6) - 1).toNat = 7 by decide⟩⟩
  · cases he ▸ hd

theorem readBitMsb_endsOut {inp : Memory} {inLen : Word} {c : Cursor} :
    EndsOut inp inLen c (readBitMsb inp inLen c) := by
  intro c' hd
  obtain ⟨hempty, hover, rfl⟩ := readBitMsb_exhausted hd
  exact runsOut_here hover fun _ => hempty

theorem readBitMsb_delivers {inp : Memory} {inLen : Word} {c : Cursor} (hm : c.mode ≠ .lsb) :
    Delivers inp inLen c (readBitMsb inp inLen c) := by
  intro v c' hd
  obtain ⟨hmode, ⟨_, hpos, _⟩ | ⟨_, hin, hpos, _⟩⟩ := readBitMsb_value hd
  · exact ⟨hmode, by rw [hpos], fun h => absurd h hm⟩
  · exact ⟨hmode, by rw [hpos, position_succ hin], fun h => absurd h hm⟩

/-- `RDBITS_M` ends, or delivers, as its bits do one after another. -/
theorem readBitsMsbFrom_runs {inp : Memory} {inLen : Word} {n : Nat} {r : BitVec 7} {c : Cursor} (hm : c.mode ≠ .lsb) :
    EndsOut inp inLen c (readBitsMsbFrom inp inLen n r c) ∧ Delivers inp inLen c (readBitsMsbFrom inp inLen n r c) := by
  induction n generalizing r c with
  | zero =>
    refine ⟨nofun, fun v c' hd => ?_⟩
    cases hd
    exact ⟨rfl, rfl, fun _ => rfl⟩
  | succ n ih =>
    rw [readBitsMsbFrom]
    cases hbit : readBitMsb inp inLen c with
    | exhausted c1 =>
      refine ⟨fun c' hd => ?_, nofun⟩
      cases hd
      exact readBitMsb_endsOut _ hbit
    | value d c1 =>
      have h1 := readBitMsb_delivers hm d c1 hbit
      obtain ⟨hends, hgoes⟩ := ih (r := (r <<< 1) ||| (BitVec.ofBool d).setWidth 7) (c := c1) (h1.mode_eq ▸ hm)
      refine ⟨fun c' hd => (hends c' hd).after h1, fun v c' hd => ?_⟩
      have h2 := hgoes v c' hd
      exact ⟨h2.mode_eq.trans h1.mode_eq, h2.position.trans h1.position, fun h => absurd h hm⟩

/-- A field of at most 8 bits takes a byte when, and only when, fewer bits are held (R134). -/
theorem readBitsMsbFrom_bytePos {inp : Memory} {inLen : Word} {n : Nat} {r v : BitVec 7} {c c' : Cursor} (hn : n ≤ 8)
    (hd : readBitsMsbFrom inp inLen n r c = .value v c') :
    c'.bytePos.toNat = c.bytePos.toNat + (if c.bitsAvailable.toNat < n then 1 else 0) := by
  induction n generalizing r c with
  | zero =>
    cases hd
    rfl
  | succ n ih =>
    rw [readBitsMsbFrom] at hd
    cases hbit : readBitMsb inp inLen c with
    | exhausted c1 => simp [hbit] at hd
    | value d c1 =>
      simp only [hbit] at hd
      rw [ih (by omega) hd]
      obtain ⟨_, ⟨_, hpos, hheld⟩ | ⟨hempty, hin, hpos, hheld⟩⟩ := readBitMsb_value hbit
      · rw [hpos]
        simp only [show c1.bitsAvailable.toNat < n ↔ c.bitsAvailable.toNat < n + 1 by omega]
      · rw [hpos, bytePos_succ hin, hempty, if_neg (by omega), if_pos (show (0 : BitVec 6).toNat < n + 1 from Nat.succ_pos n)]

/-! ## `RDBITS_L` -/

/-- A refill that finds the input over keeps the bits it gathered (R132, R135). -/
theorem refill_endsOut {inp : Memory} {inLen : Word} {n k : Nat} {c : Cursor} (hm : c.mode = .lsb) (hn : n ≤ 16)
    (hbuf : c.bitBuffer.toNat < 2 ^ c.bitsAvailable.toNat) : EndsOut inp inLen c (refill inp inLen n k c) := by
  intro c' hd
  induction k generalizing c with
  | zero => cases hd
  | succ k ih =>
    by_cases hfew : c.bitsAvailable.toNat < n
    · have h24 : c.bitsAvailable.toNat ≤ 24 := by omega
      rcases refill_short (inp := inp) (inLen := inLen) (k := k) hfew with ⟨hover, he⟩ | ⟨hin, he⟩
      · cases he ▸ hd
        exact runsOut_here hover fun h => absurd hm h
      · have hstack := stackByte_refills (inp := inp) hm h24 hbuf hin
        refine (ih (c := stackByte inp c) hm (stackByte_bitBuffer_lt h24 hbuf) (he ▸ hd)).after ?_
        exact ⟨rfl, position_succ hin, fun _ => hstack.ahead_eq⟩
    · rw [refill_enough (Nat.not_lt.1 hfew)] at hd
      cases hd

theorem readBitsLsb_endsOut {inp : Memory} {inLen : Word} {n : Nat} {c : Cursor} (hm : c.mode = .lsb)
    (hb : BufferOk c) (hn : n ≤ 16) : EndsOut inp inLen c (readBitsLsb inp inLen n c) := by
  intro c' hd
  rw [readBitsLsb] at hd
  cases href : refill inp inLen n 2 c with
  | exhausted c1 =>
    rw [href] at hd
    cases hd
    exact refill_endsOut hm hn ((bufferOk_lsb hm).1 hb).2 _ href
  | value u c1 =>
    rw [href] at hd
    cases hd

end Sys2Proof.Proofs
end

section
/-! The five cursor micro-operations as instructions of their own (R130 to R138): what each delivers, how each stops where the
input is over, and when it is refused (log 15). -/

namespace Sys2Proof.Proofs

open Sys2Proof.Machine Sys2Proof.Laws Sys2Proof.Safety

/-! ## The end of a micro-operation -/

theorem settle_value {α : Type} {s : State} {c : Cursor} {d : Delivery α} {v : α} {f : α → Code} (hd : d = .value v c) :
    settle s d f = .next { s with cur := c, delivered := f v } := by
  rw [hd, settle]

theorem settle_exhausted {α : Type} {s : State} {c : Cursor} {d : Delivery α} {f : α → Code} (hp : s.phase ≠ .idle)
    (hd : d = .exhausted c) : settle s d f = .next (stopped .exhausted { s with cur := c }) := by
  subst hd
  exact raiseStop_running hp

/-- A field that is ahead is delivered, and the bits after it stay ahead. -/
theorem Takes.field {α : Type} {s : State} {n : Nat} {d : Delivery α} {v : α} {front rest : List Bool}
    (h : Takes s.inSpace s.par.inLen s.cur n d v) (ht : takeBits n (aheadOf s) = some (front, rest)) :
    ∃ c, d = .value v c ∧ Reads s.inSpace s.par.inLen s.cur rest c := by
  obtain ⟨hlen, hsplit⟩ := takeBits_some ht
  unfold aheadOf at hsplit
  obtain ⟨c, hd, hr⟩ := h.value (by rw [hsplit, List.length_append]; omega)
  rw [hsplit, List.drop_left' hlen] at hr
  exact ⟨c, hd, hr⟩

theorem takeBits_front {n : Nat} {bits front rest : List Bool} (h : takeBits n bits = some (front, rest)) :
    bits.take n = front := by
  obtain ⟨hlen, hsplit⟩ := takeBits_some h
  rw [hsplit, List.take_left' hlen]

/-- The value of a field of at most `w` bits fits a `w`-bit register. -/
theorem toNat_ofNat_ofLsb {n w : Nat} {l : List Bool} (hl : l.length = n) (hw : n ≤ w) :
    (BitVec.ofNat w (ofLsb l)).toNat = ofLsb l := by
  rw [BitVec.toNat_ofNat, Nat.mod_eq_of_lt (lt_of_lt_of_le (ofLsb_lt l) (Nat.pow_le_pow_right (by decide) (hl ▸ hw)))]

theorem toNat_ofNat_ofMsb {n w : Nat} {l : List Bool} (hl : l.length = n) (hw : n ≤ w) :
    (BitVec.ofNat w (ofMsb l)).toNat = ofMsb l := toNat_ofNat_ofLsb (by rw [List.length_reverse, hl]) hw

theorem takeBits_none {n : Nat} {bits : List Bool} : takeBits n bits = none ↔ bits.length < n := by
  rw [takeBits_eq, ite_eq_right_iff, ← Nat.not_le]
  simp

/-- With too few bits ahead a micro-operation finds the input over. -/
theorem Takes.over {α : Type} {inp : Memory} {inLen : Word} {c : Cursor} {n : Nat} {d : Delivery α} {v : α}
    (h : Takes inp inLen c n d v) (hn : (ahead inp inLen c).length < n) : ∃ c', d = .exhausted c' := by
  rcases h with ⟨_, hd⟩ | ⟨hle, _⟩
  · exact hd
  · omega

/-! ## In its mode and range, and outside -/

section
variable {s : State} {n : Nat}

theorem exec_fetchb (hm : s.cur.mode = .byte) :
    exec .fetchb s = settle s (fetchByte s.inSpace s.par.inLen s.cur) fun b => b.setWidth 13 := if_pos hm

theorem exec_rdbitM (hm : s.cur.mode = .msb) :
    exec .rdbitM s = settle s (readBitMsb s.inSpace s.par.inLen s.cur) fun d => (BitVec.ofBool d).setWidth 13 := if_pos hm

theorem exec_rdbitsL (hlo : 1 ≤ n) (hhi : n ≤ 13) (hm : s.cur.mode = .lsb) :
    exec (.rdbitsL n) s = settle s (readBitsLsb s.inSpace s.par.inLen n s.cur) id := (if_pos ⟨hlo, hhi⟩).trans (if_pos hm)

theorem exec_rdbitsM (hlo : 1 ≤ n) (hhi : n ≤ 7) (hm : s.cur.mode = .msb) :
    exec (.rdbitsM n) s = settle s (readBitsMsb s.inSpace s.par.inLen n s.cur) fun v => v.setWidth 13 :=
  (if_pos ⟨hlo, hhi⟩).trans (if_pos hm)

theorem inMode_refused {m : CursorMode} {k : Host.Outcome State Fault Refusal} (hm : s.cur.mode ≠ m) :
    inMode m s k = .refused .wrongMode := if_neg hm

theorem inRange_refused {hi : Nat} {k : Host.Outcome State Fault Refusal} (h : n = 0 ∨ hi < n) :
    inRange n hi k = .refused .bitCountOutOfRange := if_neg (by omega)

end

/-- Settles O18. -/
theorem cursorInitSetsTheCursor : Obligations.CursorInitSetsTheCursor := fun _ _ _ => rfl

/-- Settles O24: outside its mode or its range each of the four is refused before it reads. -/
theorem microOperationsKeepToTheirModes : Obligations.MicroOperationsKeepToTheirModes := fun _ _ =>
  ⟨inMode_refused, inMode_refused, fun hlo hhi hm => (if_pos ⟨hlo, hhi⟩).trans (inMode_refused hm),
    fun hlo hhi hm => (if_pos ⟨hlo, hhi⟩).trans (inMode_refused hm), inRange_refused, inRange_refused⟩

/-! ## What each delivers -/

/-- Settles O19: `FETCHB` inside the input. -/
theorem fetchbReadsTheByteAtTheCursor : Obligations.FetchbReadsTheByteAtTheCursor := by
  intro s hm hin
  rcases fetchByte_cases s.inSpace s.par.inLen s.cur with ⟨hover, _⟩ | ⟨_, hd⟩
  · omega
  · refine ⟨_, (exec_fetchb hm).trans (settle_value hd), rfl, bytePos_succ hin, ?_⟩
    exact BitVec.toNat_setWidth_of_le (by decide)

/-- Settles O21: the field is what `RDBITS_L` takes of the bits ahead. -/
theorem rdbitsLDeliversTheNextField : Obligations.RdbitsLDeliversTheNextField := by
  intro n s front rest hlo hhi hm hb ht
  obtain ⟨c, hd, hr⟩ := (readBitsLsb_takes hm hb (by omega)).field ht
  have hvalue : (BitVec.ofNat 13 (ofLsb ((aheadOf s).take n))).toNat = ofLsb front := by
    rw [takeBits_front ht, toNat_ofNat_ofLsb (takeBits_some ht).1 hhi]
  exact ⟨_, (exec_rdbitsL hlo hhi hm).trans (settle_value hd), hvalue, hr.ahead_eq, hr.buffer, rfl,
    hr.mode_eq.trans hm, hr.exhausted_eq⟩

/-- Settles O22: the bit is what `RDBIT_M` takes of the bits ahead. -/
theorem rdbitMDeliversTheNextBit : Obligations.RdbitMDeliversTheNextBit := by
  intro s d rest hm hb ht
  have htake : takeBits 1 (aheadOf s) = some ([d], rest) := by rw [ht]; rfl
  obtain ⟨c, hd, hr⟩ := (readBitMsb_takes hm hb).field htake
  have hbit : (ahead s.inSpace s.par.inLen s.cur).headD false = d := by
    change (aheadOf s).headD false = d
    rw [ht]
    rfl
  have hpos : c.bytePos.toNat = s.cur.bytePos.toNat + (if s.cur.bitsAvailable = 0 then 1 else 0) := by
    obtain ⟨_, ⟨hheld, hpos, _⟩ | ⟨hempty, hin, hpos, _⟩⟩ := readBitMsb_value hd
    · rw [hpos, if_neg hheld]
      rfl
    · rw [hpos, if_pos hempty, bytePos_succ hin]
  rw [hbit] at hd
  exact ⟨_, (exec_rdbitM hm).trans (settle_value hd), by cases d <;> rfl, hr.ahead_eq, hr.buffer, hr.held, hpos, rfl,
    hr.mode_eq.trans hm, hr.exhausted_eq⟩

/-- Settles O23: the field is what `RDBITS_M` takes of the bits ahead. -/
theorem rdbitsMDeliversTheNextField : Obligations.RdbitsMDeliversTheNextField := by
  intro n s front rest hlo hhi hm hb ht
  obtain ⟨k, rfl⟩ := Nat.exists_eq_add_of_le' hlo
  obtain ⟨c, hd, hr⟩ := (readBitsMsb_takes hm hb).field ht
  have hvalue : ((BitVec.ofNat 7 (ofMsb ((aheadOf s).take (k + 1)))).setWidth 13).toNat = ofMsb front := by
    rw [takeBits_front ht, BitVec.toNat_setWidth_of_le (by decide),
      toNat_ofNat_ofMsb (takeBits_some ht).1 hhi]
  exact ⟨_, (exec_rdbitsM hlo hhi hm).trans (settle_value hd), hvalue, hr.ahead_eq, hr.buffer, hr.held,
    readBitsMsbFrom_bytePos (by omega) hd, rfl, hr.mode_eq.trans hm, hr.exhausted_eq⟩

/-! ## Where the input is over -/

/-- Settles O20: each micro-operation finds the input over and stops the command there. -/
theorem microOperationsExhaust : Obligations.MicroOperationsExhaust := by
  intro n s hb hp
  refine ⟨fun hm hover => ?_, fun hm hnone => ?_, fun hlo hhi hm hfew => ?_, fun hlo hhi hm hfew => ?_⟩
  · rcases fetchByte_cases s.inSpace s.par.inLen s.cur with ⟨_, hd⟩ | ⟨hin, _⟩
    · exact ⟨_, _, (exec_fetchb hm).trans (settle_exhausted hp hd), stopped_stoppedAs _ _, rfl⟩
    · omega
  · have hlt : (ahead s.inSpace s.par.inLen s.cur).length < 1 := by
      change (aheadOf s).length < 1
      rw [hnone]
      decide
    obtain ⟨c, hd⟩ := (readBitMsb_takes hm hb).over hlt
    obtain ⟨_, _, rfl⟩ := readBitMsb_exhausted hd
    exact ⟨_, _, (exec_rdbitM hm).trans (settle_exhausted hp hd), stopped_stoppedAs _ _, rfl⟩
  · obtain ⟨c, hd⟩ := (readBitsLsb_takes hm hb (by omega)).over (takeBits_none.1 hfew)
    have hout := readBitsLsb_endsOut hm hb (by omega) c hd
    exact ⟨{ s with cur := c }, _, (exec_rdbitsL hlo hhi hm).trans (settle_exhausted hp hd), stopped_stoppedAs _ _, rfl,
      hout.exhausted_eq, hout.mode_eq.trans hm, hout.position, hout.ahead_eq.trans (if_pos hm)⟩
  · obtain ⟨k, rfl⟩ := Nat.exists_eq_add_of_le' hlo
    have hlsb : s.cur.mode ≠ .lsb := by simp [hm]
    obtain ⟨c, hd⟩ := (readBitsMsb_takes hm hb).over (takeBits_none.1 hfew)
    have hout := (readBitsMsbFrom_runs hlsb).1 c hd
    exact ⟨{ s with cur := c }, _, (exec_rdbitsM hlo hhi hm).trans (settle_exhausted hp hd), stopped_stoppedAs _ _, rfl,
      hout.exhausted_eq, hout.mode_eq.trans hm, hout.position, hout.ahead_eq.trans (if_neg hlsb)⟩

end Sys2Proof.Proofs
end

section
/-! A symbol cut short: where the bits ahead end inside it the engine stops the command there, phase by phase as the decoder
finds it truncated (R131, R135, R184); and an escape sequence whose seed is there has written it (R244, R248). -/

namespace Sys2Proof.Proofs

open Sys2Proof.Machine Sys2Proof.Laws Sys2Proof.Safety

/-! ## A symbol cut off by the end of input -/

/-- From the cursor `c` the engine finds the input over inside a symbol, and stops the command after `cut`. -/
def CutOff (s : State) (c : Cursor) (cut : State → State) (f : Fetched) : Prop :=
  ∃ c', f = .acted (raiseStop .exhausted (cut { s with cur := c' })) ∧ RunsOut s.inSpace s.par.inLen c c'

/-- A read whose bits are not all ahead stops the command. -/
theorem reading_short {α : Type} {s : State} {c : Cursor} {n : Nat} {d : Delivery α} {v : α} {cut : State → State}
    {k : α → State → Fetched} (h : Takes s.inSpace s.par.inLen c n d v) (he : EndsOut s.inSpace s.par.inLen c d)
    (hn : (ahead s.inSpace s.par.inLen c).length < n) : CutOff s c cut (reading { s with cur := c } d cut k) := by
  obtain ⟨c', hd⟩ := h.over hn
  exact ⟨c', by rw [hd, reading], he c' hd⟩

/-- A read outside mode `LSB` stops the command, or goes on with its value to where the symbol is cut off. -/
theorem reading_cutOff {α : Type} {s : State} {c : Cursor} {n : Nat} {d : Delivery α} {v : α} {cut : State → State}
    {k : α → State → Fetched} (h : Takes s.inSpace s.par.inLen c n d v) (he : EndsOut s.inSpace s.par.inLen c d)
    (hv : Delivers s.inSpace s.par.inLen c d)
    (hk : ∀ c', n ≤ (ahead s.inSpace s.par.inLen c).length →
      Reads s.inSpace s.par.inLen c ((ahead s.inSpace s.par.inLen c).drop n) c' →
      CutOff s c' cut (k v { s with cur := c' })) : CutOff s c cut (reading { s with cur := c } d cut k) := by
  by_cases hn : n ≤ (ahead s.inSpace s.par.inLen c).length
  · obtain ⟨c1, hd, hr⟩ := h.value hn
    obtain ⟨c', hf, hout⟩ := hk c1 hn hr
    exact ⟨c', by rw [hd, reading, hf], hout.after (hv v c1 hd)⟩
  · exact reading_short h he (Nat.not_le.1 hn)

theorem atLoopHead_cutOff {s : State} {c : Cursor} {cut : State → State} {k : Fetched}
    (hroom : s.outLen.toNat < s.par.reqSize.toNat) (hk : CutOff s c cut k) : CutOff s c cut (atLoopHead s k) := by
  rcases atLoopHead_cases s k with ⟨hfull, _⟩ | ⟨_, he⟩
  · omega
  · rwa [he]

/-! ## The formats -/

theorem decodeField_truncated {n : Nat} {bits : List Bool} {f : List Bool → Instr}
    (h : decodeField n bits f = .reject .truncated) : bits.length < n := by
  rw [decodeField, takeBits_eq] at h
  by_cases hn : n ≤ bits.length
  · simp [hn] at h
  · exact Nat.not_le.1 hn

section
variable {s : State} {c : Cursor} {cut : State → State}

theorem readingByte_cutOff {k : Byte → State → Fetched} (hm : c.mode = .byte) (hb : BufferOk c)
    (hk : ∀ c', 8 ≤ (ahead s.inSpace s.par.inLen c).length →
      Reads s.inSpace s.par.inLen c ((ahead s.inSpace s.par.inLen c).drop 8) c' →
      CutOff s c' cut (k (BitVec.ofNat 8 (ofMsb ((ahead s.inSpace s.par.inLen c).take 8))) { s with cur := c' })) :
    CutOff s c cut (readingByte { s with cur := c } cut k) :=
  reading_cutOff (fetchByte_takes hm hb) (fetchByte_endsOut hm hb) (fetchByte_delivers (by simp [hm])) hk

theorem readingBit_cutOff {k : Bool → State → Fetched} (hm : c.mode = .msb) (hb : BufferOk c)
    (hk : ∀ c', 1 ≤ (ahead s.inSpace s.par.inLen c).length →
      Reads s.inSpace s.par.inLen c ((ahead s.inSpace s.par.inLen c).drop 1) c' →
      CutOff s c' cut (k ((ahead s.inSpace s.par.inLen c).headD false) { s with cur := c' })) :
    CutOff s c cut (readingBit { s with cur := c } cut k) :=
  reading_cutOff (readBitMsb_takes hm hb) readBitMsb_endsOut (readBitMsb_delivers (by simp [hm])) hk

theorem readingLsb_cutOff {n : Nat} {k : Code → State → Fetched} (hm : s.cur.mode = .lsb) (hb : BufferOk s.cur)
    (hn : n ≤ 16) (hfew : (aheadOf s).length < n) : CutOff s s.cur id (readingLsb n s k) :=
  reading_short (readBitsLsb_takes hm hb hn) (readBitsLsb_endsOut hm hb hn) hfew

theorem fetchLzw_cutOff (hm : s.cur.mode = .lsb) (hb : BufferOk s.cur) (hroom : s.outLen.toNat < s.par.reqSize.toNat)
    (hdec : decode (.lzw s.lzw.codeWidth.toNat s.lzw.nextIndex) (aheadOf s) = .reject .truncated) :
    CutOff s s.cur id (fetchLzw s) := by
  have hw := s.lzw.codeWidth.isLt
  exact atLoopHead_cutOff hroom (readingLsb_cutOff hm hb (by omega) (decodeField_truncated hdec))

/-- A node record ends in its value or before either flag. -/
theorem fetchNode_cutOff (hm : s.cur.mode = .msb) (hb : BufferOk s.cur) (hcap : s.huf.nodeCount.toNat < 256)
    (hdec : decode .hufNode (aheadOf s) = .reject .truncated) : CutOff s s.cur slotTaken (fetchNode s) := by
  have hfew : (ahead s.inSpace s.par.inLen s.cur).length < 9 := decodeField_truncated hdec
  have hlsb : s.cur.mode ≠ .lsb := by simp [hm]
  obtain ⟨hends, hdelivers⟩ := readBitsMsbFrom_runs (inp := s.inSpace) (inLen := s.par.inLen) (n := 7) (r := 0) hlsb
  rw [fetchNode, if_neg (show ¬ Config.hufNodeCap ≤ s.huf.nodeCount.toNat from Nat.not_le.2 hcap)]
  refine reading_cutOff (readBitsMsb_takes (n := 6) hm hb) hends hdelivers fun c1 _ h1 => ?_
  have hlen1 := h1.length_ahead
  have hm1 := h1.mode_eq.trans hm
  refine readingBit_cutOff hm1 h1.buffer fun c2 _ h2 => ?_
  have hlen2 := h2.length_ahead
  exact readingBit_cutOff (h2.mode_eq.trans hm1) h2.buffer fun c3 _ _ => by omega

/-- The engine's walk and the decoder's run out of bits at the same node (R98, R187). -/
theorem fetchPath_cutOff {sign : Bool} {fuel : Nat} {node : NodeIdx} {taken : List Bool} (hm : c.mode = .msb)
    (hb : BufferOk c)
    (hdec : decodePath s.huf.nodes s.huf.nodeCount.toNat fuel node (ahead s.inSpace s.par.inLen c) = .error .truncated) :
    CutOff s c id (fetchPath sign fuel node taken { s with cur := c }) := by
  induction fuel generalizing node taken c with
  | zero => cases hdec
  | succ fuel ih =>
    rw [decodePath] at hdec
    rw [fetchPath]
    dsimp only
    cases hget : tableGet s.huf.nodes node.toNat with
    | none => simp [hget] at hdec
    | some n =>
      simp only [hget] at hdec ⊢
      by_cases hleaf : isLeaf n = true
      · simp [hleaf] at hdec
      · rw [if_neg hleaf] at hdec ⊢
        refine readingBit_cutOff hm hb fun c' hlen hr => ?_
        obtain ⟨d, after, hbits⟩ := List.exists_cons_of_length_pos hlen
        rw [hbits] at hdec hr ⊢
        simp only [List.headD_cons, List.drop_one, List.tail_cons] at hdec hr ⊢
        cases hchild : childOf n d with
        | none => simp [hchild] at hdec
        | some child =>
          simp only [hchild] at hdec ⊢
          by_cases hout : s.huf.nodeCount.toNat ≤ child.toNat
          · simp [hout] at hdec
          · rw [if_neg hout] at hdec ⊢
            refine ih (hr.mode_eq.trans hm) hr.buffer ?_
            rw [hr.ahead_eq]
            cases hrec : decodePath s.huf.nodes s.huf.nodeCount.toNat fuel child after with
            | ok pair => simp [hrec] at hdec
            | error r => simpa [hrec] using hdec

theorem fetchSample_cutOff (hm : s.cur.mode = .msb) (hb : BufferOk s.cur)
    (hroom : s.outLen.toNat < s.par.reqSize.toNat)
    (hdec : decode (.hufSample s.huf.nodes s.huf.nodeCount.toNat) (aheadOf s) = .reject .truncated) :
    CutOff s s.cur id (fetchSample s) := by
  unfold decode aheadOf at hdec
  refine atLoopHead_cutOff hroom (readingBit_cutOff hm hb fun c' hlen hr => ?_)
  obtain ⟨sign, after, hbits⟩ := List.exists_cons_of_length_pos hlen
  rw [hbits] at hdec hr ⊢
  refine fetchPath_cutOff (hr.mode_eq.trans hm) hr.buffer ?_
  rw [hr.ahead_eq, List.drop_one, List.tail_cons]
  cases hpath : decodePath s.huf.nodes s.huf.nodeCount.toNat Config.hufNodeCap 0 after with
  | ok pair => simp only [hpath, reduceCtorEq] at hdec
  | error r =>
    simp only [hpath, Decoded.reject.injEq] at hdec
    rw [hdec]

/-- A byte cut off is no byte at all. -/
theorem readingByte_truncated {k : Byte → State → Fetched} {f : List Bool → Instr} (hm : s.cur.mode = .byte)
    (hb : BufferOk s.cur) (hdec : decodeField 8 (aheadOf s) f = .reject .truncated) :
    CutOff s s.cur id (readingByte s id k) :=
  reading_short (fetchByte_takes hm hb) (fetchByte_endsOut hm hb) (decodeField_truncated hdec)

theorem fetchInit_cutOff (hm : s.cur.mode = .lsb) (hb : BufferOk s.cur) (hsize : 0 < s.sdd.effSize.toNat)
    (hdec : decode .sddInit (aheadOf s) = .reject .truncated) : CutOff s s.cur id (fetchInit s) := by
  rw [fetchInit, if_neg (Nat.ne_of_gt hsize)]
  exact readingLsb_cutOff hm hb (by decide) (decodeField_truncated hdec)

theorem fetchWord_cutOff (hm : s.cur.mode = .lsb) (hb : BufferOk s.cur) (hroom : s.outLen.toNat < s.sdd.effSize.toNat)
    (hdec : decode (.sddWord s.sdd.bitWidth.toNat) (aheadOf s) = .reject .truncated) :
    CutOff s s.cur id (fetchWord s) := by
  have hw := s.sdd.bitWidth.isLt
  rw [fetchWord, if_neg (Nat.not_le.2 hroom)]
  exact readingLsb_cutOff hm hb (by omega) (decodeField_truncated hdec)

theorem length_ahead_lastByte {inp : Memory} {inLen : Word} (hm : c.mode = .byte) (hb : BufferOk c)
    (hlast : inLen.toNat ≤ c.bytePos.toNat + 1) : (ahead inp inLen c).length ≤ 8 := by
  rw [ahead_msb (by simp [hm]), ((bufferOk_byte hm).1 hb).1]
  by_cases hin : c.bytePos.toNat < inLen.toNat
  · rw [unfetched_cons hin, unfetched_nil hlast]
    simp
  · rw [unfetched_nil (Nat.not_lt.1 hin)]
    simp

/-- With no seed there the scan stops before or after an escape byte. -/
theorem fetchScan_cutOff (hm : s.cur.mode = .byte) (hb : BufferOk s.cur) (hroom : s.outLen.toNat < s.par.reqSize.toNat)
    (hlast : s.par.inLen.toNat ≤ s.cur.bytePos.toNat + 1)
    (hdec : decode (.nduScan s.par.escape) (aheadOf s) = .reject .truncated) : CutOff s s.cur id (fetchScan s) := by
  have hlen := length_ahead_lastByte (inp := s.inSpace) hm hb hlast
  unfold decode aheadOf at hdec
  rw [takeBits_eq] at hdec
  refine atLoopHead_cutOff hroom (readingByte_cutOff hm hb fun c hn hr => ?_)
  simp only [if_pos hn] at hdec
  by_cases hbyte : BitVec.ofNat 8 (ofMsb ((ahead s.inSpace s.par.inLen s.cur).take 8)) = s.par.escape
  · have hlen1 := hr.length_ahead
    have hm1 := hr.mode_eq.trans hm
    rw [if_pos hbyte, fetchEsc]
    exact reading_short (s := s) (fetchByte_takes hm1 hr.buffer) (fetchByte_endsOut hm1 hr.buffer) (by omega)
  · simp [hbyte] at hdec

/-- What the rule of a phase's symbol has done where the input ends inside it: a node record has its slot (R184), no other
symbol has done anything (R301). -/
def cutOf (p : Phase) : State → State := if p = .hufNode then slotTaken else id

/-- With the loop-head test passed, a running command is cut off in the symbol that the decoder finds truncated. -/
theorem fetchStream_cutOff {f : Format} {m : CursorMode} (hst : Stands m s.par s.cur) (hm : modeOf s.phase = some m)
    (hnext : readsNext s) (hf : expects s = some f) (hdec : decode f (aheadOf s) = .reject .truncated)
    (hlast : s.phase = .nduScan → s.par.inLen.toNat ≤ s.cur.bytePos.toNat + 1) :
    CutOff s s.cur (cutOf s.phase) (fetchStream s) := by
  obtain ⟨hmode, hb, _, _⟩ := hst
  unfold fetchStream
  unfold readsNext at hnext
  unfold expects at hf
  cases hp : s.phase
  case idle => simp [hp] at hf
  all_goals
    rw [hp] at hm hf hnext
    cases hm
    cases hf
  case lzwCode => exact fetchLzw_cutOff hmode hb hnext hdec
  case hufNode => exact fetchNode_cutOff hmode hb hnext hdec
  case hufSample => exact fetchSample_cutOff hmode hb hnext hdec
  case sddHdr => exact readingByte_truncated hmode hb hdec
  case sddInit => exact fetchInit_cutOff hmode hb hnext hdec
  case sddWord => exact fetchWord_cutOff hmode hb hnext hdec
  case nduScan => exact fetchScan_cutOff hmode hb hnext (hlast hp) hdec
  case nduRun => exact readingByte_truncated hmode hb hdec

end

/-! ## An escape sequence whose seed is there -/

/-- A seed written (R244): out, and in the accumulator. -/
def seeded (seed : Byte) (s : State) : State := appendByte seed { s with ndu := { s.ndu with accumulator := seed } }

theorem seeded_appends {seed : Byte} {s : State} (hwf : s.outSpace.wf = true)
    (hroom : s.outLen.toNat < s.par.reqSize.toNat) : Appends [seed] s (seeded seed s) :=
  appendByte_appends (s := { s with ndu := { s.ndu with accumulator := seed } }) hwf hroom

/-- A seed for which there is room is written; then the output is full, or the sequence goes on. -/
theorem nduSeed_eq {seed : Byte} {s : State} {k : State → Host.Outcome State Fault Refusal}
    (hroom : s.outLen.toNat < s.par.reqSize.toNat) :
    nduSeed seed s k = unlessFull (seeded seed s) k ∧ (seeded seed s).outLen.toNat = s.outLen.toNat + 1 :=
  ⟨appendThen_room (s := { s with ndu := { s.ndu with accumulator := seed } }) hroom, appendByte_outLen_toNat hroom⟩

theorem nduSeed_room {seed : Byte} {s : State} {k : State → Host.Outcome State Fault Refusal}
    (hroom : s.outLen.toNat + 1 < s.par.reqSize.toNat) : nduSeed seed s k = k (seeded seed s) := by
  obtain ⟨hseed, hlen⟩ := nduSeed_eq (seed := seed) (k := k) (Nat.lt_of_succ_lt hroom)
  rcases unlessFull_cases (seeded seed s) k with ⟨hfull, _⟩ | ⟨_, he⟩
  · rw [hlen] at hfull
    exact absurd hfull (Nat.not_le.2 hroom)
  · exact hseed.trans he

/-- A seed that fills the output stops the command (R248). -/
theorem nduSeed_full {seed : Byte} {s : State} {k : State → Host.Outcome State Fault Refusal} (hp : s.phase ≠ .idle)
    (hfull : s.outLen.toNat + 1 = s.par.reqSize.toNat) : nduSeed seed s k = .next (stopped .full (seeded seed s)) := by
  obtain ⟨hseed, hlen⟩ := nduSeed_eq (seed := seed) (k := k) (Nat.lt_of_succ_le hfull.le)
  rcases unlessFull_cases (seeded seed s) k with ⟨_, he⟩ | ⟨hmore, _⟩
  · exact (hseed.trans he).trans (raiseStop_running hp)
  · rw [hlen, hfull] at hmore
    exact absurd hmore (lt_irrefl _)

section
variable {s : State}

/-- The state once a decoder has read the byte at the cursor. -/
def pastByte (s : State) : State := { s with cur := { s.cur with bytePos := s.cur.bytePos + 1 } }

/-- The state once a decoder has read all input and wanted a byte more. -/
def inputOver (s : State) : State := { s with cur := { s.cur with bytePos := s.par.inLen, exhausted := true } }

theorem inputOver_pastByte (s : State) : inputOver (pastByte s) = inputOver s := rfl

@[simp] theorem pastByte_inSpace (s : State) : (pastByte s).inSpace = s.inSpace := rfl
@[simp] theorem pastByte_par (s : State) : (pastByte s).par = s.par := rfl
@[simp] theorem pastByte_outLen (s : State) : (pastByte s).outLen = s.outLen := rfl

theorem pastByte_bytePos (hin : s.cur.bytePos.toNat < s.par.inLen.toNat) :
    (pastByte s).cur.bytePos.toNat = s.cur.bytePos.toNat + 1 := bytePos_succ hin

theorem fetchByte_in (hin : s.cur.bytePos.toNat < s.par.inLen.toNat) :
    fetchByte s.inSpace s.par.inLen s.cur = .value (memRead s.inSpace s.cur.bytePos.toNat) (pastByte s).cur :=
  if_neg (Nat.not_le.2 hin)

theorem fetchByte_end (hend : s.cur.bytePos = s.par.inLen) :
    fetchByte s.inSpace s.par.inLen s.cur = .exhausted (inputOver s).cur := by
  rw [fetchByte, if_pos (by rw [hend]), inputOver, ← hend]

theorem pastByte_pastByte : pastByte (pastByte s) = { s with cur := { s.cur with bytePos := s.cur.bytePos + 2 } } := by
  simp only [pastByte, BitVec.add_assoc]
  rfl

theorem readingByte_in {cut : State → State} {k : Byte → State → Fetched}
    (hin : s.cur.bytePos.toNat < s.par.inLen.toNat) :
    readingByte s cut k = k (memRead s.inSpace s.cur.bytePos.toNat) (pastByte s) := by
  rw [readingByte, fetchByte_in hin]
  rfl

/-- An escape byte leads to its sequence. -/
theorem fetchScan_escape (hroom : s.outLen.toNat < s.par.reqSize.toNat) (hin : s.cur.bytePos.toNat < s.par.inLen.toNat)
    (hesc : memRead s.inSpace s.cur.bytePos.toNat = s.par.escape) : fetchScan s = fetchEsc (pastByte s) := by
  rw [fetchScan, readingByte_in hin]
  rcases atLoopHead_cases s (if memRead s.inSpace s.cur.bytePos.toNat = s.par.escape then fetchEsc (pastByte s)
    else .run (.nduLit (memRead s.inSpace s.cur.bytePos.toNat)) (pastByte s)) with ⟨hfull, _⟩ | ⟨_, he⟩
  · omega
  · exact he.trans (if_pos hesc)

/-- A seed that fills the output: the count bytes stay unread (R248). -/
theorem fetchEsc_seedFills (hin : s.cur.bytePos.toNat < s.par.inLen.toNat)
    (hfull : s.par.reqSize.toNat ≤ s.outLen.toNat + 1) :
    fetchEsc s = .acted (nduSeed (memRead s.inSpace s.cur.bytePos.toNat) (pastByte s) .next) := by
  rw [fetchEsc, readingByte_in hin]
  exact if_pos hfull

/-- A seed with room after it and a count byte missing: all input is fetched (R244). -/
theorem fetchEsc_countMissing (hin : s.cur.bytePos.toNat < s.par.inLen.toNat)
    (hroom : s.outLen.toNat + 1 < s.par.reqSize.toNat) (hcut : s.par.inLen.toNat < s.cur.bytePos.toNat + 3) :
    fetchEsc s = .acted (nduSeed (memRead s.inSpace s.cur.bytePos.toNat) (inputOver s) (raiseStop .exhausted)) := by
  have hsucc := pastByte_bytePos hin
  rw [fetchEsc, readingByte_in hin]
  refine (if_neg (Nat.not_le.2 hroom)).trans ?_
  by_cases hhi : (pastByte s).cur.bytePos.toNat < (pastByte s).par.inLen.toNat
  · -- The high byte of the count is the last one there.
    have hsucc2 := pastByte_bytePos hhi
    have hend : fetchByte (pastByte s).inSpace (pastByte s).par.inLen (pastByte (pastByte s)).cur = _ :=
      fetchByte_end (s := pastByte (pastByte s)) (BitVec.eq_of_toNat_eq (by simp only [pastByte_par] at hhi ⊢; omega))
    rw [fetchByte_in hhi]
    dsimp only
    rw [hend]
    rfl
  · have hend : (pastByte s).cur.bytePos = (pastByte s).par.inLen :=
      BitVec.eq_of_toNat_eq (by rw [pastByte_par] at hhi ⊢; omega)
    rw [fetchByte_end hend]
    rfl

/-- `CONSUMED` of `DEC_NDU` is its position (R249). -/
theorem stoppedAs_nduScan {cause : StopCause} (hp : s.phase = .nduScan) :
    StoppedAs cause s.cur.bytePos.toNat s (stopped cause s) := by
  have hstop := stopped_stoppedAs cause s
  rwa [consumedFor, hp] at hstop

end

/-! ## The step -/

/-- A running engine with no host action to come does what it fetched. -/
theorem step_of_acted {s : State} {o : Host.Outcome State Fault Refusal} (hhost : s.host = [])
    (h : fetchStream s = .acted o) : step s = o := by
  rw [step_eq_engineStep hhost, engineStep, h]

theorem fetchStream_nduScan {s : State} (hp : s.phase = .nduScan) : fetchStream s = fetchScan s := by
  rw [fetchStream, hp]

section
variable {s : State}

/-- In scan state at an escape byte whose seed is there, the step is the rest of the sequence. -/
theorem step_escape {o : Host.Outcome State Fault Refusal} (hhost : s.host = []) (hp : s.phase = .nduScan)
    (hesc : memRead s.inSpace s.cur.bytePos.toNat = s.par.escape) (hin : s.cur.bytePos.toNat < s.par.inLen.toNat)
    (hroom : s.outLen.toNat < s.par.reqSize.toNat) (h : fetchEsc (pastByte s) = .acted o) : step s = o :=
  step_of_acted hhost (((fetchStream_nduScan hp).trans (fetchScan_escape hroom hin hesc)).trans h)

theorem step_countMissing (hhost : s.host = []) (hp : s.phase = .nduScan)
    (hesc : memRead s.inSpace s.cur.bytePos.toNat = s.par.escape) (hseed : s.cur.bytePos.toNat + 2 ≤ s.par.inLen.toNat)
    (hcut : s.par.inLen.toNat < s.cur.bytePos.toNat + 4) (hroom : s.outLen.toNat + 1 < s.par.reqSize.toNat) :
    ∃ t, step s = .next t ∧
      StoppedAs .exhausted s.par.inLen.toNat
        (seeded (memRead s.inSpace (s.cur.bytePos.toNat + 1)) (inputOver s)) t := by
  have hin : s.cur.bytePos.toNat < s.par.inLen.toNat := by omega
  have hsucc := pastByte_bytePos hin
  have hfetch := fetchEsc_countMissing (s := pastByte s) (by rw [pastByte_par]; omega) hroom (by rw [pastByte_par]; omega)
  rw [pastByte_inSpace, hsucc, inputOver_pastByte, nduSeed_room (s := inputOver s) hroom] at hfetch
  have hstep := step_escape hhost hp hesc hin (Nat.lt_of_succ_lt hroom) hfetch
  have hrun : s.phase ≠ .idle := by simp [hp]
  exact ⟨_, hstep.trans (raiseStop_running hrun), stoppedAs_nduScan hp⟩

theorem step_seedFills (hhost : s.host = []) (hp : s.phase = .nduScan)
    (hesc : memRead s.inSpace s.cur.bytePos.toNat = s.par.escape) (hseed : s.cur.bytePos.toNat + 2 ≤ s.par.inLen.toNat)
    (hfull : s.outLen.toNat + 1 = s.par.reqSize.toNat) :
    ∃ t, step s = .next t ∧
      StoppedAs .full (s.cur.bytePos.toNat + 2)
        (seeded (memRead s.inSpace (s.cur.bytePos.toNat + 1)) (pastByte (pastByte s))) t := by
  have hin : s.cur.bytePos.toNat < s.par.inLen.toNat := by omega
  have hsucc := pastByte_bytePos hin
  have hin1 : (pastByte s).cur.bytePos.toNat < (pastByte s).par.inLen.toNat := by rw [pastByte_par]; omega
  have hrun : s.phase ≠ .idle := by simp [hp]
  have hfetch := fetchEsc_seedFills hin1 hfull.ge
  rw [pastByte_inSpace, hsucc, nduSeed_full (s := pastByte (pastByte s)) hrun hfull] at hfetch
  have hstop := stoppedAs_nduScan (cause := .full)
    (s := seeded (memRead s.inSpace (s.cur.bytePos.toNat + 1)) (pastByte (pastByte s))) hp
  have hpos : (pastByte (pastByte s)).cur.bytePos.toNat = s.cur.bytePos.toNat + 2 := by rw [pastByte_bytePos hin1, hsucc]
  exact ⟨_, step_escape hhost hp hesc hin (Nat.lt_of_succ_le hfull.le) hfetch, hpos ▸ hstop⟩

end

/-- The slot that a cut node record has taken (R184). -/
theorem slotTaken_nodes {s : State} (hcap : s.huf.nodeCount.toNat < 256) :
    (slotTaken s).huf = { s.huf with nodes := (slotTaken s).huf.nodes, nodeCount := (slotTaken s).huf.nodeCount } ∧
    (slotTaken s).huf.nodeCount.toNat = s.huf.nodeCount.toNat + 1 ∧
    tableGet (slotTaken s).huf.nodes s.huf.nodeCount.toNat = some { left := none, right := none, value := 0 } ∧
    ∀ i, i ≠ s.huf.nodeCount.toNat → tableGet (slotTaken s).huf.nodes i = tableGet s.huf.nodes i :=
  ⟨rfl, nodeCount_succ hcap, tableGet_tableSet_same, fun _ h => tableGet_tableSet_other h⟩

/-- Settles O13: each phase's reads run out where the decoder does; and an escape sequence has its seed written before its
count is read. -/
theorem cutSymbolExhausts : Obligations.CutSymbolExhausts := by
  intro s f hinv hhost hnext hf
  obtain ⟨⟨_, hwf, _, _⟩, _, hcursor, _⟩ := hinv
  have hrun := readsNext_ne_idle hnext
  obtain ⟨m, hm, hst⟩ := cursorInv_iff.1 hcursor hrun
  refine ⟨fun hdec hlast => ?_, fun hp hesc hseed seed hseedEq => ⟨fun hcut hroom => ?_, fun hfull => ?_⟩⟩
  · obtain ⟨c, hfetch, hout⟩ := fetchStream_cutOff hst hm hnext hf hdec hlast
    have hstep := step_of_acted hhost hfetch
    by_cases hp : s.phase = .hufNode
    · have hcap : s.huf.nodeCount.toNat < 256 := by simpa only [readsNext, hp] using hnext
      rw [cutOf, if_pos hp] at hstep
      exact ⟨_, _, hstep.trans (raiseStop_running hrun), rfl, stopped_stoppedAs _ _, hout.exhausted_eq, hout.mode_eq,
        hout.position, hout.ahead_eq, fun h => absurd hp h, fun _ => slotTaken_nodes (s := { s with cur := c }) hcap⟩
    · rw [cutOf, if_neg hp] at hstep
      exact ⟨{ s with cur := c }, _, hstep.trans (raiseStop_running hrun), rfl, stopped_stoppedAs _ _, hout.exhausted_eq,
        hout.mode_eq, hout.position, hout.ahead_eq, fun _ => rfl, fun h => absurd h hp⟩
  · obtain ⟨t, hstep, hstop⟩ := step_countMissing hhost hp hesc hseed hcut hroom
    rw [← hseedEq] at hstop
    exact ⟨_, t, hstep, seeded_appends (s := inputOver s) hwf (Nat.lt_of_succ_lt hroom), rfl, hstop⟩
  · obtain ⟨t, hstep, hstop⟩ := step_seedFills hhost hp hesc hseed hfull
    rw [← hseedEq] at hstop
    exact ⟨_, t, hstep, seeded_appends (s := pastByte (pastByte s)) hwf (Nat.lt_of_succ_le hfull.le),
      by rw [pastByte_pastByte]; rfl, hstop⟩

end Sys2Proof.Proofs
end

section
/-! The LZW unit's own rules: the string that a code stands for (R161), the insertion and the width growth (R163 to R165), and
what a normal code whose string is known does (R152, R158 to R166). -/

namespace Sys2Proof.Proofs

open Sys2Proof.Machine Sys2Proof.Laws Sys2Proof.Safety

/-! ## The string of a code -/

theorem spells_ne_nil {dict : Table DictEntry} {c : Code} {str : List Byte} (h : Spells dict c str) : str ≠ [] := by
  cases h <;> simp

/-- A code stands for at most one string: its prefix chain is a function of the table. -/
theorem spells_unique {dict : Table DictEntry} {c : Code} {str other : List Byte} (h : Spells dict c str)
    (h' : Spells dict c other) : other = str := by
  induction h generalizing other with
  | literal c hc =>
    cases h' with
    | literal => rfl
    | built _ e _ hc' => omega
  | built c e str hc he _ ih =>
    cases h' with
    | literal _ hc' => omega
    | built _ e' str' _ he' hs' =>
      obtain rfl : e = e' := Option.some.inj (he.symm.trans he')
      rw [ih hs']

theorem spells_byte (dict : Table DictEntry) (b : Byte) : Spells dict (b.setWidth 13) [b] := by
  have h := Spells.literal (dict := dict) (b.setWidth 13) (by rw [BitVec.toNat_setWidth]; omega)
  rwa [BitVec.setWidth_setWidth_of_le _ (by decide), BitVec.setWidth_eq] at h

/-- Where the entries are built, the chain of a code falls to a literal, so it ends; each built code of the chain adds a byte
(R168 item 2). -/
theorem exists_spells {dict : Table DictEntry} {top : Nat} (hdict : DictBuilt dict top) (c : Code) (hc : NormalCode c)
    (htop : c.toNat < top) : ∃ str, Spells dict c str ∧ str.length ≤ max 1 (c.toNat - 256) := by
  induction hn : c.toNat using Nat.strong_induction_on generalizing c with
  | _ n ih =>
    subst hn
    rcases hc with hlit | hbuilt
    · exact ⟨_, .literal c hlit, le_max_left _ _⟩
    · obtain ⟨e, he, hprefix, hlt⟩ := hdict c.toNat hbuilt htop
      obtain ⟨str, hstr, hlen⟩ := ih _ hlt e.prefixCode hprefix (hlt.trans htop) rfl
      refine ⟨_, .built c e str (by omega) he hstr, ?_⟩
      rw [List.length_append, List.length_singleton]
      omega

/-- Settles O27: the chain of a normal code ends, and it is the only one of its code. -/
theorem lzwStringsAreWellDefined : Obligations.LzwStringsAreWellDefined := by
  intro dict top c hdict hc htop
  obtain ⟨str, hstr, hlen⟩ := exists_spells hdict c hc htop
  exact ⟨str, hstr, spells_ne_nil hstr, fun hbuilt => by omega, fun _ => spells_unique hstr⟩

/-- `MATCH` has room for the string of a code, so its resolution finds it (R38, R161). -/
theorem stringOf_of_spells {dict : Table DictEntry} {c : Code} {str : List Byte} (h : Spells dict c str)
    (hlen : str.length ≤ 8192) : stringOf dict c = .ok str :=
  (chainFrom_of_spells h Config.lzwDictSize [] hlen).trans (by rw [List.append_nil])

/-! ## The insertion -/

/-- From `u` to `v` an entry with the byte `first` is inserted at `nextIndex`, and the width grows where the new `nextIndex`
is `2^codeWidth`, up to 13 (R163 to R165). -/
structure Inserted (first : Byte) (u v : LzwUnit) : Prop where
  index_eq : v.nextIndex.toNat = u.nextIndex.toNat + 1
  dict_eq : v.dict = tableSet u.dict u.nextIndex.toNat { prefixCode := u.prevCode, value := first }
  width_eq : v.codeWidth.toNat =
    if u.nextIndex.toNat + 1 = 2 ^ u.codeWidth.toNat ∧ u.codeWidth.toNat < 13 then u.codeWidth.toNat + 1
    else u.codeWidth.toNat
  scratch_eq : v.scratch = u.scratch

/-- With room in the output and in the table the entry is inserted, without a wrap in `nextIndex` or the width. -/
theorem insertEntry_inserted {first : Byte} {out : State} {u : LzwUnit}
    (hroom : out.outLen.toNat < out.par.reqSize.toNat) (htable : u.nextIndex.toNat < 8192) :
    Inserted first u (insertEntry first out u) := by
  rcases insertEntry_cases first out u with ⟨_, _, he⟩ | ⟨hnot, _⟩
  · rw [he]
    refine ⟨?_, rfl, ?_, rfl⟩
    · rw [BitVec.toNat_add, show (1 : BitVec 14).toNat = 1 from rfl]
      omega
    · dsimp only
      rw [Config.lzwMaxWidth]
      split_ifs
      · rw [BitVec.toNat_add, show (1 : BitVec 4).toNat = 1 from rfl]
        omega
      · rfl
  · exact absurd ⟨hroom, htable⟩ hnot

/-- With the output or the table full nothing is inserted. -/
theorem insertEntry_skipped {first : Byte} {out : State} {u : LzwUnit}
    (h : ¬ (out.outLen.toNat < out.par.reqSize.toNat ∧ u.nextIndex.toNat < 8192)) : insertEntry first out u = u :=
  if_neg h

/-! ## A normal code -/

/-- The state after a normal code that resolved `str` into `MATCH` and emitted `emitted` (R152). -/
def coded (code : Code) (str emitted : List Byte) (s : State) : State :=
  { emit emitted s with
    lzw := { insertEntry (str.headD Config.blank) (emit emitted s) { s.lzw with scratch := str } with prevCode := code } }

/-- A normal code whose string is known runs (R152, R158 to R160). -/
theorem normalCode_eq {code start : Code} {again : Bool} {s : State} {str : List Byte} (hp : s.phase = .lzwCode)
    (hstr : Spells s.lzw.dict start str) (hlen : str.length ≤ 8192) :
    normalCode code start again s =
      .next (coded code str (if again then str ++ [str.headD Config.blank] else str) s) := by
  rw [normalCode, inPhase_of_phase hp, stringOf_of_spells hstr hlen]
  rfl

section
variable {code : Code} {str emitted : List Byte} {s : State}

theorem coded_inserts : Inserts (str.headD 0) s (coded code str emitted s) := by
  unfold Inserts
  split
  next h =>
    have hins := insertEntry_inserted (first := str.headD 0) (out := emit emitted s)
      (u := { s.lzw with scratch := str }) (by rw [emit_par]; exact h.1) h.2
    have hdict : (coded code str emitted s).lzw.dict = _ := hins.dict_eq
    rw [hdict]
    exact ⟨hins.index_eq, tableGet_tableSet_same, fun _ hi => tableGet_tableSet_other hi, hins.width_eq⟩
  next h =>
    have hskip : insertEntry (str.headD Config.blank) (emit emitted s) { s.lzw with scratch := str } = _ :=
      insertEntry_skipped (by rw [emit_par]; exact h)
    simp only [coded, hskip, and_self]

theorem coded_scratch : (coded code str emitted s).lzw.scratch = str := by
  rcases insertEntry_cases (str.headD Config.blank) (emit emitted s) { s.lzw with scratch := str }
    with ⟨_, _, he⟩ | ⟨_, he⟩ <;> simp only [coded, he]

/-- The emission, the insertion and the frame of a normal code; the byte inserted is also the first one emitted (R160, R163). -/
theorem coded_runsNormalCode (hwf : s.outSpace.wf = true) (hfirst : emitted.headD 0 = str.headD 0) :
    RunsNormalCode code emitted s (coded code str emitted s) := by
  refine ⟨emit_appends hwf, ?_, rfl, ?_⟩
  · rw [← List.headD_eq_getD, hfirst]
    exact coded_inserts
  · exact congrArg (fun t => { t with lzw := (coded code str emitted s).lzw }) (emit_frame emitted s)

end

/-- A literal or a reference emits the string of its code (R158, R159). -/
theorem normalCode_runs {code : Code} {s : State} {str : List Byte} (hp : s.phase = .lzwCode)
    (hwf : s.outSpace.wf = true) (hstr : Spells s.lzw.dict code str) (hlen : str.length ≤ 8192) :
    ∃ t, normalCode code code false s = .next t ∧ RunsNormalCode code str s t ∧ t.lzw.scratch = str :=
  ⟨_, normalCode_eq hp hstr hlen, coded_runsNormalCode hwf rfl, coded_scratch⟩

/-- A self-reference emits the string of the previous code and its first byte again (R160). -/
theorem normalCode_selfReference_runs {code : Code} {s : State} {str : List Byte} (hp : s.phase = .lzwCode)
    (hwf : s.outSpace.wf = true) (hstr : Spells s.lzw.dict s.lzw.prevCode str) (hlen : str.length ≤ 8192) :
    ∃ t, normalCode code s.lzw.prevCode true s = .next t ∧ RunsNormalCode code (str ++ [str.getD 0 0]) s t ∧
      t.lzw.scratch = str := by
  obtain ⟨b, rest, rfl⟩ := List.exists_cons_of_ne_nil (spells_ne_nil hstr)
  exact ⟨_, normalCode_eq hp hstr hlen, coded_runsNormalCode hwf rfl, coded_scratch⟩

/-- Settles O25: a byte's code stands for the byte. -/
theorem lzwLiteralRuns : Obligations.LzwLiteralRuns := fun b s hp hwf =>
  normalCode_runs hp hwf (spells_byte s.lzw.dict b) (by simp)

/-- Settles O26: both by the rule of a normal code, from the string that starts them. -/
theorem lzwReferencesRun : Obligations.LzwReferencesRun := fun _ _ _ hp hwf hlen =>
  ⟨fun hstr => normalCode_runs hp hwf hstr hlen, fun hstr => normalCode_selfReference_runs hp hwf hstr hlen⟩

/-! ## The other codes -/

/-- Settles O28: in its phase the rule is the reset of the three counters. -/
theorem lzwResetResetsTheCounters : Obligations.LzwResetResetsTheCounters := fun _ hp => inPhase_of_phase hp

/-- A stop at an LZW code with room in the output: `CONSUMED` rounded up, outcome `Partial` (R167, R296). -/
theorem lzwCode_stops {cause : StopCause} {s : State} (hcause : cause ≠ .invalidTree) (hp : s.phase = .lzwCode)
    (hroom : s.outLen.toNat < s.par.reqSize.toNat) :
    ∃ t, inPhase .lzwCode s (raiseStop cause s) = .next t ∧ StoppedAs cause (roundUp4 (bytesRead s)) s t ∧
      t.status.outcome = .partialResult := by
  have hstop := stopped_stoppedAs cause s
  rw [consumedFor, hp] at hstop
  have hlen : s.outLen ≠ s.par.reqSize := fun h => absurd hroom (by simp [h])
  refine ⟨_, (inPhase_of_phase hp).trans (raiseStop_running (by simp [hp])), hstop, ?_⟩
  change outcomeOf cause s.outLen s.par.reqSize = _
  rw [outcomeOf, if_neg hcause, if_neg hlen]

/-- Settles O29: both codes stop the command by the one rule. -/
theorem lzwEndAndCorruptStop : Obligations.LzwEndAndCorruptStop := fun _ _ hp hroom =>
  ⟨lzwCode_stops (by decide) hp hroom, lzwCode_stops (by decide) hp hroom⟩

end Sys2Proof.Proofs
end

section
/-! The loop of `DEC_LZW`: the ranges, the width and the built entries from its start through every code (R168). -/

namespace Sys2Proof.Proofs

open Sys2Proof.Machine Sys2Proof.Laws Sys2Proof.Safety

/-! ## The invariant in its two parts -/

/-- What holds of `nextIndex`, the width and the table at the loop head (R168). -/
structure TableOk (index width : Nat) (dict : Table DictEntry) : Prop where
  index_ge : 257 ≤ index
  index_le : index ≤ 8192
  width_ge : 9 ≤ width
  width_le : width ≤ 13
  width_holds : index < 2 ^ width ∨ width = 13
  width_needed : width = 9 ∨ 2 ^ (width - 1) ≤ index
  built : DictBuilt dict index

theorem lzwInv_iff {s : State} :
    LzwInv s ↔
      (s.phase = .lzwCode →
        TableOk s.lzw.nextIndex.toNat s.lzw.codeWidth.toNat s.lzw.dict ∧
        (s.outLen.toNat < s.par.reqSize.toNat →
          NormalCode s.lzw.prevCode ∧ s.lzw.prevCode.toNat < s.lzw.nextIndex.toNat)) := by
  refine imp_congr_right fun _ => ⟨?_, ?_⟩
  · rintro ⟨h1, h2, h3, h4, h5, h6, h7, hprev⟩
    exact ⟨⟨h1, h2, h3, h4, h5, h6, h7⟩, hprev⟩
  · rintro ⟨⟨h1, h2, h3, h4, h5, h6, h7⟩, hprev⟩
    exact ⟨h1, h2, h3, h4, h5, h6, h7, hprev⟩

theorem lzwInv_elsewhere {t : State} (h : t.phase ≠ .lzwCode) : LzwInv t := fun hp => absurd hp h

theorem lzwInv_idle {t : State} (h : t.phase = .idle) : LzwInv t := lzwInv_elsewhere (by simp [h])

/-! ## The counters reset -/

/-- At `nextIndex` 257 no entry from 258 on is built, whatever the table holds (R37). -/
theorem tableOk_reset (dict : Table DictEntry) : TableOk 257 9 dict where
  index_ge := by decide
  index_le := by decide
  width_ge := by decide
  width_le := by decide
  width_holds := .inl (by decide)
  width_needed := .inl rfl
  built := fun i hlo hhi => by omega

/-- The counters at the start and after `LZW.RESET` (R151, R157). -/
theorem lzwInv_of_reset {t : State} {u : LzwUnit}
    (h : t.lzw = { u with codeWidth := 9, nextIndex := 257, prevCode := 0 }) : LzwInv t := by
  refine lzwInv_iff.2 fun _ => ?_
  rw [h]
  exact ⟨tableOk_reset u.dict, fun _ => ⟨.inl (Nat.zero_lt_succ _), Nat.zero_lt_succ _⟩⟩

/-! ## A table grown -/

/-- An entry over the previous code is a built entry at `nextIndex`. -/
theorem dictBuilt_tableSet {dict : Table DictEntry} {top : Nat} {e : DictEntry} (hdict : DictBuilt dict top)
    (hprefix : NormalCode e.prefixCode) (hlt : e.prefixCode.toNat < top) :
    DictBuilt (tableSet dict top e) (top + 1) := by
  intro i hlo hhi
  by_cases hnew : i = top
  · subst hnew
    exact ⟨e, tableGet_tableSet_same, hprefix, hlt⟩
  · rw [tableGet_tableSet_other hnew]
    exact hdict i hlo (by omega)

/-- An insertion keeps the table: the width grows exactly where the new `nextIndex` no longer fits it (R163 to R165). -/
theorem TableOk.insert {index width : Nat} {dict : Table DictEntry} {e : DictEntry} (h : TableOk index width dict)
    (htable : index < 8192) (hprefix : NormalCode e.prefixCode) (hlt : e.prefixCode.toNat < index) :
    TableOk (index + 1) (if index + 1 = 2 ^ width ∧ width < 13 then width + 1 else width) (tableSet dict index e) := by
  obtain ⟨hge, _, hwge, hwle, hholds, hneeded, hbuilt⟩ := h
  have hbuilt' := dictBuilt_tableSet hbuilt hprefix hlt
  split_ifs with hgrow
  · obtain ⟨hfull, hwlt⟩ := hgrow
    refine ⟨by omega, htable, by omega, hwlt, .inl ?_, .inr hfull.ge, hbuilt'⟩
    rw [pow_succ]
    omega
  · exact ⟨by omega, htable, hwge, hwle, by omega, by omega, hbuilt'⟩

/-! ## The codes -/

/-- A normal code up to `nextIndex` keeps the invariant: room after its emission is room before it, where the previous code was
good for a prefix; and where `nextIndex` does not advance past the code, the table is full or the output is. -/
theorem normalCode_lzwInv {code start : Code} {again : Bool} {s : State} (hs : LzwInv s) (hcode : NormalCode code)
    (hle : code.toNat ≤ s.lzw.nextIndex.toNat) : Answers LzwInv (normalCode code start again s) := by
  refine answers_normalCode fun str emitted first hp => lzwInv_iff.2 fun _ => ?_
  obtain ⟨htable, hprev⟩ := lzwInv_iff.1 hs hp
  have hgrows : s.outLen.toNat ≤ (emit emitted s).outLen.toNat := (emit_writtenOnward emitted s).len_le
  by_cases hroom : (emit emitted s).outLen.toNat < (emit emitted s).par.reqSize.toNat ∧ s.lzw.nextIndex.toNat < 8192
  · have hins := insertEntry_inserted (first := first) (u := { s.lzw with scratch := str }) hroom.1 hroom.2
    have hbefore : s.outLen.toNat < s.par.reqSize.toNat := lt_of_le_of_lt hgrows (emit_par emitted s ▸ hroom.1)
    obtain ⟨hprefix, hlt⟩ := hprev hbefore
    have hgrown := htable.insert (e := { prefixCode := s.lzw.prevCode, value := first }) hroom.2 hprefix hlt
    dsimp only
    rw [hins.index_eq, hins.width_eq, hins.dict_eq]
    exact ⟨hgrown, fun _ => ⟨hcode, Nat.lt_succ_of_le hle⟩⟩
  · rw [insertEntry_skipped (u := { s.lzw with scratch := str }) hroom]
    refine ⟨htable, fun hafter => ⟨hcode, ?_⟩⟩
    have hfull : ¬ s.lzw.nextIndex.toNat < 8192 := fun h => hroom ⟨hafter, h⟩
    exact lt_of_lt_of_le code.isLt (Nat.not_lt.1 hfull)

/-- A code of any class keeps the invariant. -/
theorem exec_classifyLzw_lzwInv {s : State} (code : Code) (hp : s.phase = .lzwCode) (hs : LzwInv s) :
    Answers LzwInv (exec (classifyLzw s.lzw.nextIndex code) s) := by
  obtain ⟨htable, _⟩ := lzwInv_iff.1 hs hp
  have hge := htable.index_ge
  have hstop : ∀ cause, Answers LzwInv (raiseStop cause s) := fun _ => answers_raiseStop fun _ => lzwInv_idle rfl
  rw [classifyLzw_eq]
  split_ifs with hend hcorrupt hreset hlit href
  · exact answers_inPhase fun _ => hstop _
  · exact answers_inPhase fun _ => hstop _
  · exact answers_inPhase fun _ => answers_next (lzwInv_of_reset rfl)
  · have hbyte : ((code.setWidth 8).setWidth 13).toNat < 256 := by
      rw [BitVec.toNat_setWidth]
      omega
    exact normalCode_lzwInv hs (.inl hbyte) (by omega)
  · exact normalCode_lzwInv hs (.inr (by omega)) (by omega)
  · exact normalCode_lzwInv hs (.inr (by omega)) (by omega)

/-! ## The step -/

/-- At its loop head `DEC_LZW` stops, or runs the class of a code it has read (R152 to R154). -/
theorem engineStep_lzwCode {s : State} (hp : s.phase = .lzwCode) :
    (∃ cause u, engineStep s = raiseStop cause u) ∨
    ∃ code c, engineStep s = exec (classifyLzw s.lzw.nextIndex code) { s with cur := c } := by
  have hfetch : fetchStream s = fetchLzw s := by rw [fetchStream, hp]
  rw [engineStep, hfetch, fetchLzw, readingLsb]
  rcases atLoopHead_cases s _ with ⟨_, he⟩ | ⟨_, he⟩
  · exact .inl ⟨_, _, by rw [he]⟩
  · rw [he]
    rcases reading_cases s (readBitsLsb s.inSpace s.par.inLen s.lzw.codeWidth.toNat s.cur) id _
      with ⟨code, c, _, hread⟩ | ⟨c, _, hread⟩
    · exact .inr ⟨code, c, by rw [hread]⟩
    · exact .inl ⟨_, _, by rw [hread]⟩

theorem lzwCode_not_mem_nextPhases {p : Phase} (h : p ≠ .lzwCode) : .lzwCode ∉ nextPhases p := by
  cases p <;> simp [nextPhases] at h ⊢

theorem engineStep_lzwInv {s : State} (hs : LzwInv s) : Answers LzwInv (engineStep s) := by
  by_cases hp : s.phase = .lzwCode
  · rcases engineStep_lzwCode hp with ⟨cause, u, he⟩ | ⟨code, c, he⟩
    · rw [he]
      exact answers_raiseStop fun _ => lzwInv_idle rfl
    · rw [he]
      exact exec_classifyLzw_lzwInv (s := { s with cur := c }) code hp hs
  · intro t ht
    rcases engineStep_control ht with ⟨_, rfl⟩ | hend | ⟨_, _, _, _, hgo⟩
    · exact hs
    · exact lzwInv_idle hend.1
    · exact lzwInv_elsewhere fun ht => lzwCode_not_mem_nextPhases hp (ht ▸ hgo.phase_mem)

theorem Accessed.lzwInv {s t : State} (hstatus : StatusInv s) (hs : LzwInv s) (h : Accessed s t) : LzwInv t := by
  cases h with
  | launched start _ hstart =>
    rcases hstart with rfl | rfl | rfl | rfl
    · exact lzwInv_of_reset (startLzw_lzw s)
    · exact lzwInv_elsewhere (by simp)
    · exact lzwInv_elsewhere (by simp)
    · exact lzwInv_elsewhere (by simp)
  | setParams par hidle => exact lzwInv_idle (phase_idle_of_not_busy hstatus hidle)
  | reset => exact lzwInv_idle rfl
  | ignored | readWord | placed | bound | wrote => exact hs

/-- Settles O51: the engine runs a code by its class, so a normal one is at most `nextIndex`, and its insertion keeps the table
built and the width as `nextIndex` calls for; a start and `LZW.RESET` leave no entry built; nothing else touches the unit. -/
theorem stepKeepsLzw : Obligations.StepKeepsLzw := by
  intro s t hstatus hlzw hstep
  exact (step_keeps (P := fun s => StatusInv s ∧ LzwInv s) (fun _ _ h => h)
    (fun _ _ h ha => ⟨ha.statusInv h.1, ha.lzwInv h.1 h.2⟩)
    (fun _ h u hu => ⟨engineStep_statusInv h.1 u hu, engineStep_lzwInv h.2 u hu⟩) ⟨hstatus, hlzw⟩ hstep).2

end Sys2Proof.Proofs
end

section
/-! The issue of a command by a host that keeps its duties (R45, R260). -/

namespace Sys2Proof.Proofs

open Sys2Proof.Machine Sys2Proof.Laws Sys2Proof.Safety

/-- Ranges that do not meet in one memory do not collide (R79, U6). -/
theorem portsCollide_of_mayLaunch {s : State} (h : MayLaunch s) : portsCollide s = false := by
  obtain ⟨_, _, _, hports⟩ := h
  rw [portsCollide]
  cases hone : s.ports.oneMemory with
  | false => rfl
  | true =>
    have hapart := hports hone
    simp only [Bool.true_and, Bool.and_eq_false_iff, decide_eq_false_iff_not]
    omega

/-- A command that the host may issue starts (R260). -/
theorem issue_of_mayLaunch {s : State} (start : State) (h : MayLaunch s) : issue s start = .next start := by
  have hports := portsCollide_of_mayLaunch h
  obtain ⟨hidle, hlen, hroom, _⟩ := h
  rw [issue, if_neg (by simp [hidle]), if_neg (c := Config.maxInLen < _) (Nat.not_lt.2 hlen), if_neg (by simp [hports]),
    if_neg (Nat.not_lt.2 hroom)]

/-- Settles O14: the issue starts each command in the state that its first rule gives. -/
theorem commandsIssueWhileIdle : Obligations.CommandsIssueWhileIdle := fun s h =>
  ⟨issue_of_mayLaunch (startLzw s) h, issue_of_mayLaunch (startHuf s) h, issue_of_mayLaunch (startSdd s) h,
    issue_of_mayLaunch (startNdu s) h⟩

end Sys2Proof.Proofs
end

section
/-! The Huffman symbols: a record that waits for a child, the builds that stop, and where the walk of a sample code ends (R182,
R183, R185, R187 to R190). -/

namespace Sys2Proof.Proofs

open Sys2Proof.Machine Sys2Proof.Laws Sys2Proof.Safety

/-! ## A stop -/

/-- A stop of `DEC_HUF`: `CONSUMED` is the bytes read, not rounded (R192). -/
theorem raiseStop_huf {cause : StopCause} {s : State} (hp : s.phase = .hufNode ∨ s.phase = .hufSample) :
    ∃ t, raiseStop cause s = .next t ∧ StoppedAs cause (bytesRead s) s t := by
  have hstop := stopped_stoppedAs cause s
  have hconsumed : consumedFor s = bytesRead s := by
    rcases hp with hp | hp <;> rw [consumedFor, hp]
  have hbusy : s.phase ≠ .idle := by
    rcases hp with hp | hp <;> simp [hp]
  exact ⟨_, raiseStop_running hbusy, hconsumed ▸ hstop⟩

/-! ## A record -/

theorem inBuild_self (s : State) : inBuild s.huf.nodes s.huf.nodeCount.toNat s.huf.stack s = s := by
  rw [inBuild, BitVec.ofNat_toNat, BitVec.setWidth_eq]

/-- A record with a child takes its slot and waits for the child, the left one first (R182). -/
theorem exec_hufNode_descends {v : BitVec 7} {l r : Bool} {s : State} (hp : s.phase = .hufNode)
    (hroom : s.huf.nodeCount.toNat < 256) (hchild : l = true ∨ r = true) :
    exec (.hufNode v l r) s =
      .next (inBuild (withSlot v s.huf.nodeCount.toNat s.huf.nodes) (s.huf.nodeCount.toNat + 1)
        (⟨BitVec.ofNat 8 s.huf.nodeCount.toNat, if l then .leftChild r else .rightChild⟩ :: s.huf.stack) s) := by
  have hrun := exec_hufNode_inBuild (nodes := s.huf.nodes) (stack := s.huf.stack) hp hroom v l r
  rw [inBuild_self] at hrun
  rw [hrun]
  cases l with
  | true => rfl
  | false =>
    have hright : r = true := hchild.resolve_left Bool.false_ne_true
    rw [hright]
    rfl

/-- Settles O30: the slot is filled and the frame pushed; a table entry elsewhere reads as before. -/
theorem hufNodeWithChildDescends : Obligations.HufNodeWithChildDescends := by
  intro v s hp hroom l r hchild
  exact ⟨_, exec_hufNode_descends hp hroom hchild, rfl, Nat.mod_eq_of_lt (by omega), tableGet_tableSet_same,
    fun _ hi => tableGet_tableSet_other hi, rfl⟩

/-- Settles O31: a record tests for a slot before it acts, and the fetch before it reads. -/
theorem nodeTableOverflowStops : Obligations.NodeTableOverflowStops := by
  intro s hp hfull
  have hcap : Config.hufNodeCap ≤ s.huf.nodeCount.toNat := hfull.ge
  obtain ⟨t, hstop, has⟩ := raiseStop_huf (cause := .nodeRange) (.inl hp)
  refine ⟨fun v l r => ⟨t, ?_, has⟩, fun hhost => ⟨t, ?_, has⟩⟩
  · have hrun : exec (.hufNode v l r) s = execHufNode v l r s := rfl
    rw [hrun, execHufNode, inPhase_of_phase hp, if_pos hcap, hstop]
  · have hfetch : fetchStream s = .acted (raiseStop .nodeRange s) := by
      rw [fetchStream, hp]
      exact if_pos hcap
    rw [step_of_acted hhost hfetch, hstop]

/-! ## The root check -/

theorem checkRoot_oneSided {s : State} {root : Node} (h : tableGet s.huf.nodes 0 = some root)
    (hone : root.left = none ∨ root.right = none) : checkRoot s = raiseStop .invalidTree s := by
  simp only [checkRoot, h]
  exact if_pos hone

/-- The first slot of a tree's layout is its root, which lacks a child unless the tree has both. -/
theorem layout_root_oneSided {tree : CodeTree} (h : ∀ v l r, tree ≠ .both v l r) (i : Nat) :
    ∃ root, (tree.layout i)[0]? = some root ∧ (root.left = none ∨ root.right = none) := by
  cases tree with
  | leaf v => exact ⟨_, rfl, .inl rfl⟩
  | leftOnly v l => exact ⟨_, rfl, .inr rfl⟩
  | rightOnly v r => exact ⟨_, rfl, .inl rfl⟩
  | both v l r => exact absurd rfl (h v l r)

/-- Settles O33: the records fill the tree's slots, and the last one completes the root, which lacks a child. -/
theorem oneSidedRootIsInvalid : Obligations.OneSidedRootIsInvalid := by
  intro tree s hp hcount hstack hlen hsize hone
  obtain ⟨nodes, hfill, hrun⟩ := execAll_records (nodes := s.huf.nodes) (stack := []) hp (i := 0) (tree := tree) (by omega)
  obtain ⟨root, hroot, hside⟩ := layout_root_oneSided hone 0
  rw [inBuild_start hcount hstack, Nat.zero_add] at hrun
  have hcheck : checkRoot (inBuild nodes tree.size [] s) = raiseStop .invalidTree (inBuild nodes tree.size [] s) :=
    checkRoot_oneSided (hfill.filled 0 root hroot) hside
  obtain ⟨t, hstop, has⟩ := raiseStop_huf (cause := .invalidTree) (s := inBuild nodes tree.size [] s) (.inl hp)
  refine ⟨t, (hrun.trans hcheck).trans hstop, ?_⟩
  rw [StoppedAs] at has
  subst has
  exact ⟨rfl, rfl, hlen⟩

/-! ## The walk of a sample code -/

section
variable {nodes : Table Node} {count : Nat} {i k : NodeIdx} {n : Node} {path : List Bool}

/-- With fuel for every node of the table a walk reaches the end of a path that the table gives, with fuel to spare (R194). -/
theorem walk_cap_of_visits (h : Visits nodes count i path k) (hlen : path.length ≤ 255) (rest : List Bool) :
    ∃ fuel, walk nodes count Config.hufNodeCap i (path ++ rest) = walk nodes count (fuel + 1) k rest := by
  have hcap : Config.hufNodeCap = path.length + (255 - path.length + 1) := by
    rw [Config.hufNodeCap]
    omega
  exact ⟨255 - path.length, by rw [hcap, walk_of_visits h]⟩

theorem isLeaf_iff : isLeaf n = true ↔ n.left = none ∧ n.right = none := by
  simp [isLeaf]

theorem walk_leaf (h : Visits nodes count i path k) (hlen : path.length ≤ 255) (hn : tableGet nodes k.toNat = some n)
    (hleaf : isLeaf n = true) : walk nodes count Config.hufNodeCap i path = .leaf k n.value := by
  obtain ⟨fuel, hwalk⟩ := walk_cap_of_visits h hlen []
  rw [List.append_nil] at hwalk
  simp only [hwalk, walk, hn, hleaf, if_true]

/-- A last bit that selects no node of the table ends the walk outside it (R189, R190). -/
theorem walk_outside {d : Bool} (h : Visits nodes count i path k) (hlen : path.length ≤ 255)
    (hn : tableGet nodes k.toNat = some n) (hinner : isLeaf n = false)
    (hchild : ∀ j, childOf n d = some j → count ≤ j.toNat) :
    walk nodes count Config.hufNodeCap i (path ++ [d]) = .outside := by
  obtain ⟨fuel, hwalk⟩ := walk_cap_of_visits h hlen [d]
  cases hc : childOf n d with
  | none => simp [hwalk, walk, hn, hinner, hc]
  | some j => simp [hwalk, walk, hn, hinner, hc, hchild j hc]

end

/-! ## A sample -/

/-- The complement of a byte is its distance from 255 (R14). -/
theorem hufDelta_toNat (sign : Bool) (value : BitVec 7) :
    (hufDelta sign value).toNat = if sign then 255 - value.toNat else value.toNat := by
  have hwide : (value.setWidth 8).toNat = value.toNat := BitVec.toNat_setWidth_of_le (by decide)
  cases sign with
  | true =>
    have hnot : hufDelta true value = ~~~(value.setWidth 8) := BitVec.xor_allOnes
    rw [hnot, BitVec.toNat_not, hwide, if_pos rfl]
  | false => exact hwide

/-- A sample code that ends at a leaf appends the running value with the leaf's delta added (R187). -/
theorem exec_hufSample_leaf {sign : Bool} {path : List Bool} {s : State} {k : NodeIdx} {value : BitVec 7}
    (hp : s.phase = .hufSample) (hroom : s.outLen.toNat < s.par.reqSize.toNat)
    (hwalk : walk s.huf.nodes s.huf.nodeCount.toNat Config.hufNodeCap 0 path = .leaf k value) :
    exec (.hufSample sign path) s =
      .next (appendByte (s.huf.runningValue + hufDelta sign value)
        (walked sign k (s.huf.runningValue + hufDelta sign value) s)) := by
  have hrun : exec (.hufSample sign path) s = execHufSample sign path s := rfl
  simp only [hrun, execHufSample, inPhase_of_phase hp, hwalk]
  exact appendThen_room hroom

/-- A sample code whose walk leaves the table stops the command (R189, R190). -/
theorem exec_hufSample_outside {sign : Bool} {path : List Bool} {s : State} (hp : s.phase = .hufSample)
    (hwalk : walk s.huf.nodes s.huf.nodeCount.toNat Config.hufNodeCap 0 path = .outside) :
    exec (.hufSample sign path) s = raiseStop .nodeRange s := by
  have hrun : exec (.hufSample sign path) s = execHufSample sign path s := rfl
  simp only [hrun, execHufSample, inPhase_of_phase hp, hwalk]

/-- Settles O34: the walk ends at the leaf, and the one append writes the updated running value. -/
theorem hufSampleAddsTheLeaf : Obligations.HufSampleAddsTheLeaf := by
  intro sign path s k leaf hp hroom hwf hlen hvisits hk hleft hright
  have hwalk := walk_leaf hvisits hlen hk (isLeaf_iff.2 ⟨hleft, hright⟩)
  have hsum : (s.huf.runningValue + hufDelta sign leaf.value).toNat =
      (s.huf.runningValue.toNat + (if sign then 255 - leaf.value.toNat else leaf.value.toNat)) % 256 := by
    rw [BitVec.toNat_add, hufDelta_toNat]
  exact ⟨_, exec_hufSample_leaf hp hroom hwalk, appendByte_appends hwf hroom, hsum, rfl⟩

/-- Settles O35: the walk ends outside the table, which stops the command before any register is written. -/
theorem absentChildStops : Obligations.AbsentChildStops := by
  intro sign path d s k n hp hlen hvisits hk hinner hchild
  have hleaf : isLeaf n = false := by
    rw [← Bool.not_eq_true, isLeaf_iff, not_and_or]
    exact hinner
  obtain ⟨t, hstop, has⟩ := raiseStop_huf (cause := .nodeRange) (.inr hp)
  exact ⟨t, (exec_hufSample_outside hp (walk_outside hvisits hlen hk hleaf hchild)).trans hstop, has⟩

end Sys2Proof.Proofs
end

section
/-! The sigma-delta symbols: the run length and the clamp, the sample arithmetic and the count-down, what each symbol answers, and
the stop that the clamp makes of the loop head (R211 to R221). -/

namespace Sys2Proof.Proofs

open Sys2Proof.Machine Sys2Proof.Laws Sys2Proof.Safety

/-! ## The header's numbers -/

/-- A header byte of 0 counts as 1 (R211). -/
theorem runLengthOf_toNat (m : Byte) : (runLengthOf m).toNat = max m.toNat 1 := by
  unfold runLengthOf
  split_ifs with hzero
  · rw [hzero]
    rfl
  · have hpos : m.toNat ≠ 0 := fun h => hzero (BitVec.eq_of_toNat_eq h)
    omega

/-- The clamp never leaves the word, for the requested size bounds it (R212). -/
theorem clampedSize_toNat (reqSize inLen start : Word) :
    (clampedSize reqSize inLen start).toNat = min reqSize.toNat (8 * (inLen.toNat - start.toNat)) := by
  have hreq := reqSize.isLt
  exact Nat.mod_eq_of_lt (by omega)

/-! ## The sample -/

theorem sddMagnitude_toNat (v : BitVec 9) : (sddMagnitude v).toNat = v.toNat / 2 := by
  have hv := v.isLt
  rw [sddMagnitude, BitVec.toNat_setWidth, BitVec.toNat_ushiftRight, Nat.shiftRight_eq_div_pow]
  exact Nat.mod_eq_of_lt (by omega)

/-- Bit 0 of a value word is its sign (R15). -/
theorem sddSign_iff (v : BitVec 9) : v.getLsbD 0 = true ↔ v.toNat % 2 = 1 := by
  rw [BitVec.getLsbD, Nat.testBit_zero, decide_eq_true_eq]

/-- The accumulator takes the magnitude modulo 256, by its sign (R217). -/
theorem sddSample_toNat (acc : Byte) (v : BitVec 9) :
    (sddSample acc v).toNat =
      (if v.toNat % 2 = 1 then acc.toNat + 256 - v.toNat / 2 else acc.toNat + v.toNat / 2) % 256 := by
  have hv := v.isLt
  simp only [sddSample, sddSign_iff]
  split_ifs
  · rw [BitVec.toNat_sub, sddMagnitude_toNat]
    congr 1
    omega
  · rw [BitVec.toNat_add, sddMagnitude_toNat]

/-- The state with the sample of a value word in the accumulator and in the output (R217). -/
def sampled (v : BitVec 9) (s : State) : State :=
  appendByte (sddSample s.sdd.accumulator v)
    { s with sdd := { s.sdd with accumulator := sddSample s.sdd.accumulator v } }

theorem sddEmit_room {v : BitVec 9} {s : State} {k : State → Host.Outcome State Fault Refusal}
    (hroom : s.outLen.toNat < s.par.reqSize.toNat) : sddEmit v s k = k (sampled v s) :=
  appendThen_room (s := { s with sdd := { s.sdd with accumulator := sddSample s.sdd.accumulator v } }) hroom

/-- A value word that answers a next state has its sample out (R217). -/
theorem answers_sddEmit {P : State → Prop} {v : BitVec 9} {s : State} {k : State → Host.Outcome State Fault Refusal}
    (h : Answers P (k (sampled v s))) : Answers P (sddEmit v s k) :=
  answers_appendThen fun _ => h

theorem sampled_outLen_toNat {v : BitVec 9} {s : State} (hroom : s.outLen.toNat < s.par.reqSize.toNat) :
    (sampled v s).outLen.toNat = s.outLen.toNat + 1 :=
  appendByte_outLen_toNat (v := sddSample s.sdd.accumulator v) hroom

theorem sampled_appends {v : BitVec 9} {s : State} (hwf : s.outSpace.wf = true)
    (hroom : s.outLen.toNat < s.par.reqSize.toNat) :
    Appends [sddSample s.sdd.accumulator v] s (sampled v s) :=
  appendByte_appends (s := { s with sdd := { s.sdd with accumulator := sddSample s.sdd.accumulator v } }) hwf hroom

/-! ## The width and the run counter -/

/-- One bit wider, up to 9, still fits the width register (R216). -/
theorem widened_toNat (width : BitVec 4) :
    (BitVec.ofNat 4 (min (width.toNat + 1) Config.sddMaxWidth)).toNat = min (width.toNat + 1) 9 :=
  Nat.mod_eq_of_lt (by rw [Config.sddMaxWidth]; omega)

/-- One bit narrower, down to 1, still fits the width register (R219). -/
theorem narrowed_toNat (width : BitVec 4) :
    (BitVec.ofNat 4 (max (width.toNat - 1) Config.sddMinWidth)).toNat = max (width.toNat - 1) 1 := by
  have hwidth := width.isLt
  exact Nat.mod_eq_of_lt (by rw [Config.sddMinWidth]; omega)

theorem runCounter_pred {c : Byte} (h : 1 ≤ c.toNat) : (c - 1).toNat = c.toNat - 1 :=
  BitVec.toNat_sub_of_le (BitVec.le_def.2 h)

/-- At 1 the counter reaches 0: the width shrinks and the counter is reloaded (R219). -/
theorem countDown_last {u : SddUnit} (h : u.runCounter.toNat = 1) :
    countDown u =
      { u with
        bitWidth := BitVec.ofNat 4 (max (u.bitWidth.toNat - 1) Config.sddMinWidth)
        runCounter := u.maxRunLength } := by
  have hzero : u.runCounter - 1 = 0 := BitVec.eq_of_toNat_eq (by rw [runCounter_pred h.ge, h]; rfl)
  exact if_pos hzero

/-- Above 1 the counter alone changes (R219). -/
theorem countDown_before {u : SddUnit} (hpos : 1 ≤ u.runCounter.toNat) (h : u.runCounter.toNat ≠ 1) :
    countDown u = { u with runCounter := u.runCounter - 1 } := by
  have hnonzero : u.runCounter - 1 ≠ 0 := by
    intro hzero
    have hpred := runCounter_pred hpos
    rw [hzero, show (0 : Byte).toNat = 0 from rfl] at hpred
    omega
  exact if_neg hnonzero

/-- The count-down changes the width and the counter alone (R219). -/
theorem countDown_frame (u : SddUnit) :
    countDown u = { u with bitWidth := (countDown u).bitWidth, runCounter := (countDown u).runCounter } := by
  unfold countDown
  split <;> rfl

/-! ## What each symbol answers -/

/-- Settles O36: in its phase the header writes the unit, and both numbers it takes fit their registers. -/
theorem sddHeaderEntersTheRegion : Obligations.SddHeaderEntersTheRegion := fun m _ hp =>
  ⟨_, inPhase_of_phase hp, rfl, runLengthOf_toNat m, clampedSize_toNat _ _ _⟩

/-- At the loop head with the initial value in the accumulator, before it is output (R214). -/
def opened (a : Byte) (s : State) : State :=
  { s with sdd := { s.sdd with accumulator := a }, phase := .sddWord }

/-- Settles O37: the rule's own test on the clamped size decides whether the initial value is appended. -/
theorem sddInitIsTheFirstSample : Obligations.SddInitIsTheFirstSample := by
  intro a s hp hwf
  have hrun : exec (.sddInit a) s = execSddInit a s := rfl
  rw [hrun, execSddInit, inPhase_of_phase hp]
  constructor
  · intro hsize hroom
    rw [if_neg hsize.ne']
    exact ⟨appendByte a (opened a s), appendThen_room hroom, appendByte_appends (s := opened a s) hwf hroom, rfl⟩
  · intro hzero
    rw [hzero]
    rfl

/-- Settles O38: in its phase the escape writes the width and the counter alone. -/
theorem sddEscapeWidens : Obligations.SddEscapeWidens := fun s hp _ _ =>
  ⟨_, inPhase_of_phase hp, widened_toNat s.sdd.bitWidth, rfl⟩

/-- Settles O39: the sample is appended, and then the counter reloaded. -/
theorem sddHoldKeepsTheWidth : Obligations.SddHoldKeepsTheWidth := fun v s hp hroom hwf =>
  ⟨_, (inPhase_of_phase hp).trans (sddEmit_room hroom), sampled_appends hwf hroom,
    sddSample_toNat s.sdd.accumulator v, rfl⟩

/-- Settles O40: the sample is appended, and then the count-down takes the branch of the counter's value. -/
theorem sddDeltaCountsDown : Obligations.SddDeltaCountsDown := by
  intro v s hp hroom hwf hcounter _ _
  have hrun : exec (.sddDelta v) s = .next { sampled v s with sdd := countDown (sampled v s).sdd } :=
    (inPhase_of_phase hp).trans (sddEmit_room hroom)
  have hframe := countDown_frame (sampled v s).sdd
  have hacc : (countDown (sampled v s).sdd).accumulator = sddSample s.sdd.accumulator v :=
    congrArg SddUnit.accumulator hframe
  refine ⟨_, hrun, ?_, ?_, fun hlast => ?_, fun hbefore => ?_, ?_⟩
  · rw [hacc]
    exact sampled_appends hwf hroom
  · rw [hacc]
    exact sddSample_toNat s.sdd.accumulator v
  · rw [countDown_last (u := (sampled v s).sdd) hlast]
    exact ⟨narrowed_toNat s.sdd.bitWidth, rfl⟩
  · rw [countDown_before (u := (sampled v s).sdd) hcounter hbefore]
    exact ⟨rfl, runCounter_pred hcounter⟩
  · rw [hacc]
    exact congrArg (fun u => { sampled v s with sdd := u }) hframe

/-! ## The loop head -/

theorem fetchStream_sddInit {s : State} (hp : s.phase = .sddInit) : fetchStream s = fetchInit s := by
  rw [fetchStream, hp]

theorem fetchStream_sddWord {s : State} (hp : s.phase = .sddWord) : fetchStream s = fetchWord s := by
  rw [fetchStream, hp]

/-- In the bit region a stop counts the header byte and the region's bytes, rounded up (R221). -/
theorem stoppedAs_region {cause : StopCause} {s : State} (hp : s.phase = .sddInit ∨ s.phase = .sddWord) :
    StoppedAs cause (1 + roundUp4 (s.cur.bytePos.toNat - s.sdd.regionStart.toNat)) s (stopped cause s) := by
  have hstop := stopped_stoppedAs cause s
  have hconsumed : consumedFor s = 1 + roundUp4 (s.cur.bytePos.toNat - s.sdd.regionStart.toNat) := by
    rcases hp with hp | hp <;> rw [consumedFor, hp]
  rwa [hconsumed] at hstop

/-- Where the clamp cut the request, the stop of the loop head is `EXHAUSTED` (R220). -/
theorem sddFull_clamped {s : State} (hclamp : s.sdd.effSize ≠ s.par.reqSize) (hrunning : s.phase ≠ .idle) :
    sddFull s = .next (stopped .exhausted s) := by
  rw [sddFull, if_neg hclamp, raiseStop_running hrunning]

/-- Settles O41: neither fetch reads once the clamped size is out, and both then stop by the one rule. -/
theorem sddClampStops : Obligations.SddClampStops := by
  intro s hhost hclamp hdone
  have hregion : s.phase = .sddInit ∨ s.phase = .sddWord := hdone.symm.imp And.left And.left
  have hrunning : s.phase ≠ .idle := by rcases hregion with hp | hp <;> simp [hp]
  have hfetch : fetchStream s = .acted (sddFull s) := by
    rcases hdone with ⟨hp, hout⟩ | ⟨hp, hzero⟩
    · rw [fetchStream_sddWord hp, fetchWord, if_pos hout]
    · rw [fetchStream_sddInit hp, fetchInit, hzero]
      rfl
  exact ⟨_, (step_of_acted hhost hfetch).trans (sddFull_clamped hclamp hrunning), stoppedAs_region hregion⟩

end Sys2Proof.Proofs
end

section
/-! The loop of `DEC_SDD`: the ranges of its width, its counter and its clamped size, from the header through every value word
(R222). -/

namespace Sys2Proof.Proofs

open Sys2Proof.Machine Sys2Proof.Laws Sys2Proof.Safety

/-! ## The invariant by phase -/

/-- The width and the run counter in their ranges (R222). -/
structure CodingOk (u : SddUnit) : Prop where
  width_ge : 1 ≤ u.bitWidth.toNat
  width_le : u.bitWidth.toNat ≤ 9
  counter_ge : 1 ≤ u.runCounter.toNat
  counter_le : u.runCounter.toNat ≤ u.maxRunLength.toNat

/-- In the bit region: the coding's ranges, and the output within the clamped size within the requested one (R222). -/
structure RegionOk (s : State) : Prop where
  coding : CodingOk s.sdd
  len_le : s.outLen.toNat ≤ s.sdd.effSize.toNat
  size_le : s.sdd.effSize.toNat ≤ s.par.reqSize.toNat

theorem sddInv_iff {s : State} :
    SddInv s ↔
      (s.phase = .sddHdr ∨ s.phase = .sddInit → s.outLen = 0) ∧
      (s.phase = .sddInit ∨ s.phase = .sddWord → RegionOk s) ∧
      (s.phase = .sddWord → 1 ≤ s.outLen.toNat) := by
  refine and_congr_right fun _ => and_congr_left fun _ => imp_congr_right fun _ => ⟨?_, ?_⟩
  · rintro ⟨h1, h2, h3, h4, h5, h6⟩
    exact ⟨⟨h1, h2, h3, h4⟩, h5, h6⟩
  · rintro ⟨⟨h1, h2, h3, h4⟩, h5, h6⟩
    exact ⟨h1, h2, h3, h4, h5, h6⟩

theorem sddInv_hdr_iff {s : State} (hp : s.phase = .sddHdr) : SddInv s ↔ s.outLen = 0 := by
  simp [sddInv_iff, hp]

theorem sddInv_init_iff {s : State} (hp : s.phase = .sddInit) : SddInv s ↔ s.outLen = 0 ∧ RegionOk s := by
  simp [sddInv_iff, hp]

theorem sddInv_word_iff {s : State} (hp : s.phase = .sddWord) : SddInv s ↔ RegionOk s ∧ 1 ≤ s.outLen.toNat := by
  simp [sddInv_iff, hp]

/-- The phases of `DEC_SDD` (R210). -/
def sddPhases : List Phase := [.sddHdr, .sddInit, .sddWord]

theorem sddInv_elsewhere {s : State} (h : s.phase ∉ sddPhases) : SddInv s := by
  simp only [sddPhases, List.mem_cons, List.not_mem_nil, or_false, not_or] at h
  obtain ⟨hhdr, hinit, hword⟩ := h
  simp [sddInv_iff, hhdr, hinit, hword]

theorem sddInv_idle {s : State} (h : s.phase = .idle) : SddInv s := sddInv_elsewhere (by simp [h, sddPhases])

/-! ## The width and the counter -/

/-- The header's width and counter (R211). -/
theorem codingOk_header {u : SddUnit} {m : Byte} (hwidth : u.bitWidth = 8) (hcounter : u.runCounter = runLengthOf m)
    (hmax : u.maxRunLength = runLengthOf m) : CodingOk u where
  width_ge := by rw [hwidth]; decide
  width_le := by rw [hwidth]; decide
  counter_ge := by
    rw [hcounter, runLengthOf_toNat]
    exact le_max_right _ _
  counter_le := by rw [hcounter, hmax]

/-- A reloaded counter is in its range at any width that is (R216, R218, R219). -/
theorem CodingOk.reload {u : SddUnit} (h : CodingOk u) {width : BitVec 4} (hge : 1 ≤ width.toNat)
    (hle : width.toNat ≤ 9) : CodingOk { u with bitWidth := width, runCounter := u.maxRunLength } where
  width_ge := hge
  width_le := hle
  counter_ge := h.counter_ge.trans h.counter_le
  counter_le := le_rfl

theorem CodingOk.sample {u : SddUnit} (h : CodingOk u) (acc : Byte) : CodingOk { u with accumulator := acc } :=
  ⟨h.width_ge, h.width_le, h.counter_ge, h.counter_le⟩

/-- The count-down ends above 0, or reloads the counter at a width of at least 1 (R219). -/
theorem CodingOk.countDown {u : SddUnit} (h : CodingOk u) : CodingOk (countDown u) := by
  have hge := h.width_ge
  have hle := h.width_le
  by_cases hlast : u.runCounter.toNat = 1
  · rw [countDown_last hlast]
    refine h.reload ?_ ?_
    all_goals
      rw [narrowed_toNat]
      omega
  · have hpos := h.counter_ge
    have hmax := h.counter_le
    rw [countDown_before hpos hlast]
    refine ⟨hge, hle, ?_, ?_⟩
    all_goals
      dsimp only
      rw [runCounter_pred hpos]
      omega

/-! ## The symbols -/

/-- The header leaves a clamped size within the request and nothing out (R211, R212). -/
theorem execSddHdr_sddInv {s : State} (m : Byte) (hs : SddInv s) : Answers SddInv (execSddHdr m s) := by
  refine answers_inPhase fun hp => answers_next ((sddInv_init_iff rfl).2 ?_)
  have hnone : s.outLen = 0 := (sddInv_hdr_iff hp).1 hs
  refine ⟨hnone, codingOk_header rfl rfl rfl, ?_, ?_⟩
  · exact hnone ▸ Nat.zero_le _
  · rw [clampedSize_toNat]
    exact min_le_left _ _

/-- A sample out for which the clamped size has room keeps the loop's invariant, whatever in-range coding it leaves. -/
theorem sddInv_sampled {s t : State} (hlen : s.outLen.toNat < s.sdd.effSize.toNat)
    (hsize : s.sdd.effSize.toNat ≤ s.par.reqSize.toNat) (hp : t.phase = .sddWord)
    (hgrown : t.outLen.toNat = s.outLen.toNat + 1) (hpar : t.par = s.par) (heff : t.sdd.effSize = s.sdd.effSize)
    (hcoding : CodingOk t.sdd) : SddInv t := by
  refine (sddInv_word_iff hp).2 ⟨⟨hcoding, ?_, ?_⟩, ?_⟩
  · rw [hgrown, heff]
    exact hlen
  · rw [heff, hpar]
    exact hsize
  · rw [hgrown]
    exact Nat.le_add_left 1 _

/-- With a clamped size above 0 the initial value is the first sample out (R214). -/
theorem execSddInit_sddInv {s : State} (a : Byte) (hs : SddInv s) (hsize : 0 < s.sdd.effSize.toNat) :
    Answers SddInv (execSddInit a s) := by
  refine answers_inPhase fun hp => ?_
  obtain ⟨hnone, hregion⟩ := (sddInv_init_iff hp).1 hs
  rw [if_neg hsize.ne']
  refine answers_appendThen fun hroom => answers_next ?_
  exact sddInv_sampled (s := s) (hnone ▸ hsize) hregion.size_le rfl (appendByte_outLen_toNat hroom) rfl rfl
    (hregion.coding.sample a)

/-- A value word of any class, with room in the clamped size, keeps the loop's invariant (R216 to R219). -/
theorem exec_classifySdd_sddInv {s : State} (width : Nat) (v : BitVec 9) (hp : s.phase = .sddWord) (hs : SddInv s)
    (hlen : s.outLen.toNat < s.sdd.effSize.toNat) : Answers SddInv (exec (classifySdd width v) s) := by
  obtain ⟨⟨hcoding, hwithin, hsize⟩, hfirst⟩ := (sddInv_word_iff hp).1 hs
  have hge := hcoding.width_ge
  have hle := hcoding.width_le
  have hsample : CodingOk (sampled v s).sdd := hcoding.sample _
  have hgrown := sampled_outLen_toNat (v := v) (hlen.trans_le hsize)
  unfold classifySdd
  split_ifs with hescape hhold
  · have hwidth := widened_toNat s.sdd.bitWidth
    have hreloaded := hcoding.reload (width := .ofNat 4 (min (s.sdd.bitWidth.toNat + 1) Config.sddMaxWidth))
      (by omega) (by omega)
    refine answers_inPhase fun _ => answers_next ((sddInv_word_iff ?_).2 ⟨⟨hreloaded, hwithin, hsize⟩, hfirst⟩)
    exact hp
  · refine answers_inPhase fun _ => answers_sddEmit (answers_next ?_)
    exact sddInv_sampled hlen hsize hp hgrown rfl rfl (hsample.reload hge hle)
  · have heff := congrArg SddUnit.effSize (countDown_frame (sampled v s).sdd)
    refine answers_inPhase fun _ => answers_sddEmit (answers_next ?_)
    exact sddInv_sampled hlen hsize hp hgrown rfl heff hsample.countDown

/-! ## The step -/

/-- A symbol of one field, read least significant bit first, runs or is cut short (R132). -/
theorem engineStep_of_readingLsb {s : State} {n : Nat} {symbol : Code → Instr}
    (h : fetchStream s = readingLsb n s fun v t => .run (symbol v) t) :
    (∃ cause u, engineStep s = raiseStop cause u) ∨
    ∃ v c, engineStep s = exec (symbol v) { s with cur := c } := by
  rw [engineStep, h, readingLsb]
  rcases reading_cases s (readBitsLsb s.inSpace s.par.inLen n s.cur) id fun v t => .run (symbol v) t
    with ⟨v, c, _, hread⟩ | ⟨c, _, hread⟩
  · exact .inr ⟨v, c, by rw [hread]⟩
  · exact .inl ⟨_, _, by rw [hread]⟩

theorem engineStep_sddHdr_sddInv {s : State} (hp : s.phase = .sddHdr) (hs : SddInv s) :
    Answers SddInv (engineStep s) := by
  intro t ht
  rcases engineStep_next ht with ⟨_, rfl⟩ | ⟨_, _, _, rfl⟩ | ⟨_, i, c, _, hi, _, he⟩
  · exact hs
  · exact sddInv_idle rfl
  · rw [hp] at hi
    cases i <;> cases hi
    exact execSddHdr_sddInv (s := { s with cur := c }) _ hs t he

/-- The initial value is read only for a clamped size above 0 (R214, R220). -/
theorem engineStep_sddInit_sddInv {s : State} (hp : s.phase = .sddInit) (hs : SddInv s) :
    Answers SddInv (engineStep s) := by
  have hfetch := fetchStream_sddInit hp
  rw [fetchInit] at hfetch
  split_ifs at hfetch with hzero
  · rw [engineStep, hfetch]
    exact answers_raiseStop fun _ => sddInv_idle rfl
  · rcases engineStep_of_readingLsb (symbol := fun a => .sddInit (a.setWidth 8)) hfetch
      with ⟨cause, u, he⟩ | ⟨a, c, he⟩
    · rw [he]
      exact answers_raiseStop fun _ => sddInv_idle rfl
    · rw [he]
      exact execSddInit_sddInv (s := { s with cur := c }) _ hs (Nat.pos_of_ne_zero hzero)

/-- A value word is read only with room in the clamped size (R215, R220). -/
theorem engineStep_sddWord_sddInv {s : State} (hp : s.phase = .sddWord) (hs : SddInv s) :
    Answers SddInv (engineStep s) := by
  have hfetch := fetchStream_sddWord hp
  rw [fetchWord] at hfetch
  split_ifs at hfetch with hout
  · rw [engineStep, hfetch]
    exact answers_raiseStop fun _ => sddInv_idle rfl
  · rcases engineStep_of_readingLsb (symbol := fun v => classifySdd s.sdd.bitWidth.toNat (v.setWidth 9)) hfetch
      with ⟨cause, u, he⟩ | ⟨v, c, he⟩
    · rw [he]
      exact answers_raiseStop fun _ => sddInv_idle rfl
    · rw [he]
      exact exec_classifySdd_sddInv (s := { s with cur := c }) _ _ hp hs (Nat.lt_of_not_le hout)

/-- No other command's symbol leads into `DEC_SDD`. -/
theorem nextPhases_not_sdd {p q : Phase} (h : q ∈ nextPhases p) (hp : p ∉ sddPhases) : q ∉ sddPhases := by
  cases p <;> simp [nextPhases, sddPhases] at h hp ⊢
  case hufNode | nduScan | nduRun => rcases h with rfl | rfl <;> simp
  all_goals simp [h]

theorem engineStep_sddInv {s : State} (hs : SddInv s) : Answers SddInv (engineStep s) := by
  by_cases hmem : s.phase ∈ sddPhases
  · simp only [sddPhases, List.mem_cons, List.not_mem_nil, or_false] at hmem
    rcases hmem with hp | hp | hp
    · exact engineStep_sddHdr_sddInv hp hs
    · exact engineStep_sddInit_sddInv hp hs
    · exact engineStep_sddWord_sddInv hp hs
  · intro t ht
    rcases engineStep_control ht with ⟨_, rfl⟩ | hend | ⟨_, _, _, _, hgo⟩
    · exact hs
    · exact sddInv_idle hend.1
    · exact sddInv_elsewhere (nextPhases_not_sdd hgo.phase_mem hmem)

/-- `REQ_SIZE` changes while idle alone (R32), and `DEC_SDD` starts with nothing out (R45). -/
theorem Accessed.sddInv {s t : State} (hstatus : StatusInv s) (hs : SddInv s) (h : Accessed s t) : SddInv t := by
  cases h with
  | launched start _ hstart =>
    rcases hstart with rfl | rfl | rfl | rfl
    · exact sddInv_elsewhere (by simp [sddPhases])
    · exact sddInv_elsewhere (by simp [sddPhases])
    · exact (sddInv_hdr_iff (startSdd_phase s)).2 (startSdd_outLen s)
    · exact sddInv_elsewhere (by simp [sddPhases])
  | setParams par hidle => exact sddInv_idle (phase_idle_of_not_busy hstatus hidle)
  | reset => exact sddInv_idle rfl
  | ignored | readWord | placed | bound | wrote => exact hs

/-- Settles O53: the engine reads a sample's symbol only with room in the clamped size, which fits the request; and each symbol
leaves the width and the counter in their ranges. -/
theorem stepKeepsSigmaDelta : Obligations.StepKeepsSigmaDelta := by
  intro s t hstatus hsdd hstep
  exact (step_keeps (P := fun s => StatusInv s ∧ SddInv s) (fun _ _ h => h)
    (fun _ _ h ha => ⟨ha.statusInv h.1, ha.sddInv h.1 h.2⟩)
    (fun _ h u hu => ⟨engineStep_statusInv h.1 u hu, engineStep_sddInv h.2 u hu⟩) ⟨hstatus, hsdd⟩ hstep).2

end Sys2Proof.Proofs
end

section
/-! The nibble-delta symbols: the sample that a nibble adds, the two samples of a pair in order, and where `FULL` cuts them (R243
to R249). A delta sample is a seed that is reckoned and counted, so what is known of `nduSeed` serves it too. -/

namespace Sys2Proof.Proofs

open Sys2Proof.Machine Sys2Proof.Laws Sys2Proof.Safety

/-! ## Two strings, one after the other -/

/-- A string appended after another is the two together, where the room holds both. -/
theorem appends_append {xs ys : List Byte} {s u t : State} (hxs : Appends xs s u) (hys : Appends ys u t)
    (hpar : u.par = s.par) (hroom : s.outLen.toNat + (xs.length + ys.length) ≤ s.par.reqSize.toNat) :
    Appends (xs ++ ys) s t := by
  unfold Appends at hxs hys ⊢
  rw [min_eq_left (by omega)] at hxs
  obtain ⟨hulen, hunew, huold⟩ := hxs
  rw [hpar, hulen, min_eq_left (by omega)] at hys
  obtain ⟨htlen, htnew, htold⟩ := hys
  rw [List.length_append, min_eq_left (by omega)]
  refine ⟨by rw [htlen, Nat.add_assoc], fun j hj => ?_, fun a ha => ?_⟩
  · rcases Nat.lt_or_ge j xs.length with hfirst | hsecond
    · rw [htold _ (.inl (by omega)), hunew j hfirst, List.getD_append _ _ _ _ hfirst]
    · rw [List.getD_append_right _ _ _ _ hsecond, ← htnew (j - xs.length) (by omega)]
      congr 1
      omega
  · rw [htold a (by omega), huold a (by omega)]

/-! ## The sample and the count -/

/-- A nibble of 8 or more stands for itself less 16, which is 240 more modulo 256 (R13). -/
theorem nibbleDelta_toNat (n : Nibble) :
    (nibbleDelta n).toNat = if n.toNat < 8 then n.toNat else n.toNat + 240 := by
  have hwide : (n.setWidth 8).toNat = n.toNat := BitVec.toNat_setWidth_of_le (by decide)
  rw [nibbleDelta, BitVec.toNat_signExtend, hwide, BitVec.msb_eq_decide]
  simp only [decide_eq_true_eq]
  split_ifs <;> omega

theorem add_nibbleDelta_toNat (acc : Byte) (n : Nibble) :
    (acc + nibbleDelta n).toNat = (acc.toNat + (if n.toNat < 8 then n.toNat else n.toNat + 240)) % 256 := by
  rw [BitVec.toNat_add, nibbleDelta_toNat]

/-- The sum is the only byte with its value. -/
theorem eq_add_nibbleDelta {sample acc : Byte} {n : Nibble}
    (h : sample.toNat = (acc.toNat + (if n.toNat < 8 then n.toNat else n.toNat + 240)) % 256) :
    sample = acc + nibbleDelta n :=
  BitVec.eq_of_toNat_eq (h.trans (add_nibbleDelta_toNat acc n).symm)

theorem runCount_pred {c : BitVec 16} (h : 1 ≤ c.toNat) : (c - 1).toNat = c.toNat - 1 :=
  BitVec.toNat_sub_of_le (BitVec.le_def.2 h)

theorem runCount_pred_pred {c : BitVec 16} (h : 2 ≤ c.toNat) : (c - 1 - 1).toNat = c.toNat - 2 := by
  have hpred := runCount_pred (Nat.le_of_succ_le h)
  rw [runCount_pred (by omega), hpred]
  rfl

theorem runCount_eq_zero_iff {c : BitVec 16} : c = 0 ↔ c.toNat = 0 := BitVec.toNat_eq

theorem nduPhase_eq (count : BitVec 16) : nduPhase count = if count.toNat = 0 then .nduScan else .nduRun :=
  if_congr runCount_eq_zero_iff rfl rfl

/-! ## One delta sample -/

/-- A sample less to come (R245). -/
def counted (s : State) : State := { s with ndu := { s.ndu with count := s.ndu.count - 1 } }

/-- The state with a nibble's sample counted, in the accumulator and in the output (R245). -/
def deltaOut (n : Nibble) (s : State) : State := seeded (s.ndu.accumulator + nibbleDelta n) (counted s)

theorem deltaOut_ndu (n : Nibble) (s : State) :
    (deltaOut n s).ndu = { accumulator := s.ndu.accumulator + nibbleDelta n, count := s.ndu.count - 1 } := rfl

theorem deltaOut_outLen_toNat {n : Nibble} {s : State} (hroom : s.outLen.toNat < s.par.reqSize.toNat) :
    (deltaOut n s).outLen.toNat = s.outLen.toNat + 1 :=
  appendByte_outLen_toNat (v := s.ndu.accumulator + nibbleDelta n) hroom

theorem deltaOut_appends {n : Nibble} {s : State} (hwf : s.outSpace.wf = true)
    (hroom : s.outLen.toNat < s.par.reqSize.toNat) :
    Appends [s.ndu.accumulator + nibbleDelta n] s (deltaOut n s) :=
  seeded_appends (s := counted s) hwf hroom

theorem nduDelta_room {n : Nibble} {s : State} {k : State → Host.Outcome State Fault Refusal}
    (hroom : s.outLen.toNat + 1 < s.par.reqSize.toNat) : nduDelta n s k = k (deltaOut n s) :=
  nduSeed_room (s := counted s) hroom

/-- A delta sample that fills the output stops the command (R248). -/
theorem nduDelta_full {n : Nibble} {s : State} {k : State → Host.Outcome State Fault Refusal} (hp : s.phase ≠ .idle)
    (hfull : s.outLen.toNat + 1 = s.par.reqSize.toNat) : nduDelta n s k = .next (stopped .full (deltaOut n s)) :=
  nduSeed_full (s := counted s) hp hfull

/-! ## The two samples of a pair -/

section
variable {h l : Nibble} {s : State}

/-- After a high nibble that leaves room, the run's count decides on the low one (R245, R247). -/
theorem exec_nduPair_room (hp : s.phase = .nduRun) (hroom : s.outLen.toNat + 1 < s.par.reqSize.toNat) :
    exec (.nduPair h l) s =
      if s.ndu.count - 1 = 0 then .next { deltaOut h s with phase := .nduScan }
      else nduDelta l (deltaOut h s) fun u => .next { u with phase := nduPhase u.ndu.count } :=
  (inPhase_of_phase hp).trans (nduDelta_room hroom)

/-- The last sample of an odd run is a high nibble; the low one is dropped (R247). -/
theorem exec_nduPair_last (hp : s.phase = .nduRun) (hcount : s.ndu.count.toNat = 1)
    (hroom : s.outLen.toNat + 1 < s.par.reqSize.toNat) :
    exec (.nduPair h l) s = .next { deltaOut h s with phase := .nduScan, ndu.count := 0 } := by
  have hzero : s.ndu.count - 1 = 0 := by
    rw [runCount_eq_zero_iff, runCount_pred hcount.ge, hcount]
  rw [exec_nduPair_room hp hroom, if_pos hzero, ← hzero]
  rfl

/-- With two samples to come the low nibble follows the high one (R245). -/
theorem exec_nduPair_low (hp : s.phase = .nduRun) (hcount : 2 ≤ s.ndu.count.toNat)
    (hroom : s.outLen.toNat + 1 < s.par.reqSize.toNat) :
    exec (.nduPair h l) s =
      nduDelta l (deltaOut h s) fun u => .next { u with phase := nduPhase u.ndu.count } := by
  have hnonzero : s.ndu.count - 1 ≠ 0 := by
    rw [Ne, runCount_eq_zero_iff, runCount_pred (Nat.le_of_succ_le hcount)]
    omega
  rw [exec_nduPair_room hp hroom, if_neg hnonzero]

/-- The samples of both nibbles are appended, the high one's first (R245). -/
theorem deltaOut_deltaOut_appends (hwf : s.outSpace.wf = true) (hroom : s.outLen.toNat + 2 ≤ s.par.reqSize.toNat) :
    Appends [s.ndu.accumulator + nibbleDelta h, s.ndu.accumulator + nibbleDelta h + nibbleDelta l] s
      (deltaOut l (deltaOut h s)) := by
  have hfirst : s.outLen.toNat < s.par.reqSize.toNat := by omega
  have hlen := deltaOut_outLen_toNat (n := h) hfirst
  have hsecond : (deltaOut h s).outLen.toNat < s.par.reqSize.toNat := by omega
  exact appends_append (deltaOut_appends hwf hfirst) (deltaOut_appends (memWrite_wf hwf) hsecond) rfl hroom

/-- `CONSUMED` of `DEC_NDU` is its position inside a run too (R249). -/
theorem stoppedAs_nduRun {cause : StopCause} (hp : s.phase = .nduRun) :
    StoppedAs cause s.cur.bytePos.toNat s (stopped cause s) := by
  have hstop := stopped_stoppedAs cause s
  rwa [consumedFor, hp] at hstop

end

/-! ## What each symbol answers -/

/-- Settles O44: neither sample fills the output, so both are appended, and the count left decides on the state after. -/
theorem nduPairAddsTwoNibbles : Obligations.NduPairAddsTwoNibbles := by
  intro h l s hp hcount hroom hwf
  have hfirst : s.outLen.toNat + 1 < s.par.reqSize.toNat := by omega
  have hlen := deltaOut_outLen_toNat (n := h) (Nat.lt_of_succ_lt hfirst)
  have hsecond : (deltaOut h s).outLen.toNat + 1 < s.par.reqSize.toNat := by omega
  have hleft := runCount_pred_pred hcount
  have hphase : nduPhase (s.ndu.count - 1 - 1) = if s.ndu.count.toNat = 2 then .nduScan else .nduRun := by
    rw [nduPhase_eq, hleft]
    exact if_congr (by omega) rfl rfl
  refine ⟨_, _, _, (exec_nduPair_low hp hcount hfirst).trans (nduDelta_room hsecond),
    deltaOut_deltaOut_appends hwf hroom.le, add_nibbleDelta_toNat _ h, add_nibbleDelta_toNat _ l, hleft, ?_⟩
  rw [← hphase]
  rfl

/-- Settles O45: the room left after each nibble and the count decide where the run ends. -/
theorem nduRunEnds : Obligations.NduRunEnds := by
  intro h l s hp hwf first second hfirst hsecond
  have hrunning : s.phase ≠ .idle := by simp [hp]
  obtain rfl := eq_add_nibbleDelta hfirst
  obtain rfl := eq_add_nibbleDelta hsecond
  refine ⟨fun hcount hroom => ?_, fun hcount hfull => ?_, fun hcount hfull => ?_⟩
  · exact ⟨_, exec_nduPair_last hp hcount hroom, deltaOut_appends hwf (Nat.lt_of_succ_lt hroom), rfl⟩
  · exact ⟨deltaOut h s, _, (inPhase_of_phase hp).trans (nduDelta_full hrunning hfull),
      deltaOut_appends hwf (Nat.lt_of_succ_le hfull.le), runCount_pred hcount, rfl, stoppedAs_nduRun hp⟩
  · have hroom : s.outLen.toNat + 1 < s.par.reqSize.toNat := by omega
    have hlen := deltaOut_outLen_toNat (n := h) (Nat.lt_of_succ_lt hroom)
    have hlow : (deltaOut h s).outLen.toNat + 1 = s.par.reqSize.toNat := by omega
    exact ⟨deltaOut l (deltaOut h s), _, (exec_nduPair_low hp hcount hroom).trans (nduDelta_full hrunning hlow),
      deltaOut_deltaOut_appends hwf hfull.le, runCount_pred_pred hcount, rfl, stoppedAs_nduRun hp⟩

/-- Settles O42: in its phase the literal is written like a seed, with no test of the room left after it. -/
theorem nduLiteralIsCopied : Obligations.NduLiteralIsCopied := fun b s hp hroom hwf =>
  ⟨seeded b s, (inPhase_of_phase hp).trans (appendThen_room hroom), seeded_appends hwf hroom, rfl⟩

/-- Settles O43: the seed is appended; if it does not fill the output the count decides on the state after. -/
theorem nduEscapeStartsARun : Obligations.NduEscapeStartsARun := by
  intro seed count s hp hwf
  refine ⟨fun hroom => ?_, fun hfull => ?_⟩
  · refine ⟨_, (inPhase_of_phase hp).trans (nduSeed_room hroom), seeded_appends hwf (Nat.lt_of_succ_lt hroom), ?_⟩
    rw [← nduPhase_eq]
    rfl
  · have hrunning : s.phase ≠ .idle := by simp [hp]
    exact ⟨seeded seed s, _, (inPhase_of_phase hp).trans (nduSeed_full hrunning hfull),
      seeded_appends hwf (Nat.lt_of_succ_le hfull.le), rfl, stoppedAs_nduScan hp⟩

end Sys2Proof.Proofs
end

section
/-! The loop of `DEC_NDU`: a run is under way exactly in run state, and the output then has room (R242, R245, R247). -/

namespace Sys2Proof.Proofs

open Sys2Proof.Machine Sys2Proof.Laws Sys2Proof.Safety

/-! ## The invariant by phase -/

/-- The phases of `DEC_NDU` (R242, R245). -/
def nduPhases : List Phase := [.nduScan, .nduRun]

theorem nduInv_scan_iff {s : State} (hp : s.phase = .nduScan) : NduInv s ↔ s.ndu.count = 0 := by
  simp [NduInv, hp]

theorem nduInv_run_iff {s : State} (hp : s.phase = .nduRun) :
    NduInv s ↔ s.ndu.count ≠ 0 ∧ s.outLen.toNat < s.par.reqSize.toNat := by
  simp [NduInv, hp]

theorem nduInv_elsewhere {s : State} (h : s.phase ∉ nduPhases) : NduInv s := by
  simp only [nduPhases, List.mem_cons, List.not_mem_nil, or_false, not_or] at h
  obtain ⟨hscan, hrun⟩ := h
  simp [NduInv, hscan, hrun]

theorem nduInv_idle {s : State} (h : s.phase = .idle) : NduInv s := nduInv_elsewhere (by simp [h, nduPhases])

/-- A symbol that chooses the state by the count left, with room in the output, keeps the invariant (R244, R245). -/
theorem nduInv_nduPhase {s : State} (hp : s.phase = nduPhase s.ndu.count)
    (hroom : s.outLen.toNat < s.par.reqSize.toNat) : NduInv s := by
  by_cases hzero : s.ndu.count = 0
  · rw [nduPhase, if_pos hzero] at hp
    exact (nduInv_scan_iff hp).2 hzero
  · rw [nduPhase, if_neg hzero] at hp
    exact (nduInv_run_iff hp).2 ⟨hzero, hroom⟩

/-! ## The symbols -/

/-- A literal leaves the scan state and its count (R243). -/
theorem execNduLit_nduInv {s : State} (b : Byte) (hs : NduInv s) : Answers NduInv (execNduLit b s) :=
  answers_inPhase fun hp => answers_appendThen fun _ =>
    answers_next ((nduInv_scan_iff (s := seeded b s) hp).2 ((nduInv_scan_iff hp).1 hs))

theorem execNduEsc_nduInv (seed : Byte) (count : BitVec 16) (s : State) : Answers NduInv (execNduEsc seed count s) :=
  answers_inPhase fun _ => answers_appendThen fun _ => answers_unlessFull (fun _ => nduInv_idle rfl) fun hroom =>
    answers_next (nduInv_nduPhase rfl hroom)

theorem execNduPair_nduInv (h l : Nibble) (s : State) : Answers NduInv (execNduPair h l s) := by
  refine answers_inPhase fun _ => answers_appendThen fun _ =>
    answers_unlessFull (fun _ => nduInv_idle rfl) fun _ => ?_
  split
  case isTrue hover => exact answers_next ((nduInv_scan_iff rfl).2 hover)
  case isFalse =>
    exact answers_appendThen fun _ => answers_unlessFull (fun _ => nduInv_idle rfl) fun hroom =>
      answers_next (nduInv_nduPhase rfl hroom)

/-- No other command's symbol leads into `DEC_NDU`. -/
theorem nextPhases_not_ndu {p q : Phase} (h : q ∈ nextPhases p) (hp : p ∉ nduPhases) : q ∉ nduPhases := by
  cases p <;> simp [nextPhases, nduPhases] at h hp ⊢
  case hufNode => rcases h with rfl | rfl <;> simp
  all_goals simp [h]

/-- A stream symbol in its phase keeps the invariant. -/
theorem exec_nduInv {i : Instr} {s : State} (hi : symbolPhase i = some s.phase) (hs : NduInv s) :
    Answers NduInv (exec i s) := by
  by_cases hmem : s.phase ∈ nduPhases
  · simp only [nduPhases, List.mem_cons, List.not_mem_nil, or_false] at hmem
    cases i with
    | nduLit b => exact execNduLit_nduInv b hs
    | nduEsc seed count => exact execNduEsc_nduInv seed count s
    | nduPair h l => exact execNduPair_nduInv h l s
    | _ => rcases hmem with hp | hp <;> rw [hp] at hi <;> cases hi
  · intro t ht
    rcases exec_goesOn hi t ht with hend | hgo
    · exact nduInv_idle hend.1
    · exact nduInv_elsewhere (nextPhases_not_ndu hgo.phase_mem hmem)

/-! ## The step -/

theorem engineStep_nduInv {s : State} (hs : NduInv s) : Answers NduInv (engineStep s) := by
  intro t ht
  rcases engineStep_next ht with ⟨_, rfl⟩ | ⟨_, _, _, rfl⟩ | ⟨_, _, c, _, hi, _, he⟩
  · exact hs
  · exact nduInv_idle rfl
  · exact exec_nduInv (s := { s with cur := c }) hi hs t he

/-- `REQ_SIZE` changes while idle alone (R32), and `DEC_NDU` starts with no run under way (R241). -/
theorem Accessed.nduInv {s t : State} (hstatus : StatusInv s) (hs : NduInv s) (h : Accessed s t) : NduInv t := by
  cases h with
  | launched start _ hstart =>
    rcases hstart with rfl | rfl | rfl | rfl
    · exact nduInv_elsewhere (by simp [nduPhases])
    · exact nduInv_elsewhere (by simp [nduPhases])
    · exact nduInv_elsewhere (by simp [nduPhases])
    · exact (nduInv_scan_iff (startNdu_phase s)).2 rfl
  | setParams par hidle => exact nduInv_idle (phase_idle_of_not_busy hstatus hidle)
  | reset => exact nduInv_idle rfl
  | ignored | readWord | placed | bound | wrote => exact hs

/-- Settles O54: the command stands in run state only after a symbol that found the output with room and the count above 0, and
in scan state only with the count at 0. -/
theorem stepKeepsNibbleDelta : Obligations.StepKeepsNibbleDelta := by
  intro s t hstatus hndu hstep
  exact (step_keeps (P := fun s => StatusInv s ∧ NduInv s) (fun _ _ h => h)
    (fun _ _ h ha => ⟨ha.statusInv h.1, ha.nduInv h.1 h.2⟩)
    (fun _ h u hu => ⟨engineStep_statusInv h.1 u hu, engineStep_nduInv h.2 u hu⟩) ⟨hstatus, hndu⟩ hstep).2

end Sys2Proof.Proofs
end

section
/-! A step and the host's list: the engine's step is the same whatever the host still has to do (logs 1, 2), and what the
host's writes do while a command runs (R266, R340 to R344). -/

namespace Sys2Proof.Proofs

open Sys2Proof.Machine Sys2Proof.Laws Sys2Proof.Safety

/-! ## The engine's step and the host's list -/

theorem engineStep_withHost (h : List HostAction) (s : State) :
    engineStep (withHost h s) = outcomeWithHost h (engineStep s) := by
  rw [engineStep, engineStep, fetchStream_withHost]
  cases fetchStream s with
  | run i t => exact exec_withHost h i t
  | acted o => rfl

/-- The engine's step leaves the host's list as it stands. -/
theorem engineStep_host {s t : State} (h : engineStep s = .next t) : t.host = s.host := by
  have hsame := engineStep_withHost s.host s
  rw [show withHost s.host s = s from rfl, h] at hsame
  injection hsame with ht
  rw [ht]
  rfl

/-- Settles O6: a step is defined as the fetch and the meaning it finds, and `engine` fetches the stream. -/
theorem stepRunsTheFetchedInstruction : Obligations.StepRunsTheFetchedInstruction := by
  refine ⟨fun s i t hf => by rw [step, hf], fun s rest => ?_⟩
  have hfirst : step { s with host := .engine :: rest } = engineStep (withHost rest (withHost [] s)) := rfl
  rw [hfirst, engineStep_withHost, ← step_eq_engineStep (s := withHost [] s) rfl, withHost]
  cases step { s with host := [] } <;> rfl

/-! ## Writes while a command runs -/

/-- A write of `CMD` or of any register is ignored while a command runs (R266). -/
theorem step_writeReg_busy {s : State} {rest : List HostAction} (hbusy : s.status.busy = true) (n : BitVec 3) (w : Word) :
    step { s with host := .writeReg n w :: rest } = .next { s with host := rest } := by
  by_cases hcmd : n = 0
  · have hissue : ∀ start, issue (withHost rest s) start = .next (withHost rest s) := fun _ => if_pos hbusy
    rw [hcmd, commandWordRunsItsCommand]
    split <;> exact hissue _
  · refine step_of_hostAct (s := s) ?_
    rw [hostAct_writeReg hcmd, writeRegister, if_pos (show (withHost rest s).status.busy = true from hbusy)]
    rfl

/-- Settles O3: each write by its own rule, in the state with the action off the list. -/
theorem writesWhileBusyAreIgnored : Obligations.WritesWhileBusyAreIgnored := by
  intro s rest hbusy
  have hbusy' : (withHost rest s).status.busy = true := hbusy
  refine ⟨fun n w _ => step_writeReg_busy hbusy n w, fun i v hwf => ?_, fun bytes => ?_, fun p => ?_⟩
  · exact ⟨_, step_of_hostAct rfl, writeOutByte_writesOut (s := withHost rest s) hwf⟩
  · exact step_of_hostAct (congrArg Fetched.acted (if_pos hbusy'))
  · exact step_of_hostAct (congrArg Fetched.acted (if_pos hbusy'))

end Sys2Proof.Proofs
end

section
/-! Progress: from a state of the invariant the engine's step answers a next state, in which the command has ended or has
fewer bits left, so that every command stops (R267, R299, R348). -/

namespace Sys2Proof.Proofs

open Sys2Proof.Machine Sys2Proof.Laws Sys2Proof.Safety

/-! ## The bits left -/

theorem bytesFrom_length (m : Memory) (a n : Nat) : (bytesFrom m a n).length = n := by
  induction n generalizing a with
  | zero => rfl
  | succ n ih => rw [bytesFrom, List.length_cons, ih]

theorem unfetched_length {inp : Memory} {inLen : Word} {field : Nat → List Bool} {pos : Nat}
    (h : ∀ v, (field v).length = 8) : (unfetched inp inLen field pos).length = 8 * (inLen.toNat - pos) := by
  simp only [unfetched, List.length_flatMap, h, List.map_const', List.sum_replicate, bytesFrom_length, smul_eq_mul]
  exact Nat.mul_comm _ _

theorem length_ahead (inp : Memory) (inLen : Word) (c : Cursor) :
    (ahead inp inLen c).length = c.bitsAvailable.toNat + 8 * (inLen.toNat - c.bytePos.toNat) := by
  by_cases hm : c.mode = .lsb
  · rw [ahead_lsb hm, List.length_append, toLsb_length, unfetched_length (toLsb_length 8)]
  · rw [ahead_msb hm, List.length_append, toMsb_length, unfetched_length (toMsb_length 8)]

theorem bitsLeft_eq (s : State) : bitsLeft s = (aheadOf s).length := (length_ahead _ _ _).symm

/-! ## A fetch that makes progress -/

/-- What was fetched leads to a next state: a symbol that runs, found with fewer than `n` bits left, or the end of the
command. -/
def Progresses (n : Nat) : Fetched → Prop
  | .run i t => bitsLeft t < n ∧ ∃ u, exec i t = .next u
  | .acted o => ∃ u, o = .next u ∧ u.phase = .idle

theorem raiseStop_progresses {n : Nat} {cause : StopCause} {s : State} (hp : s.phase ≠ .idle) :
    Progresses n (.acted (raiseStop cause s)) := ⟨_, raiseStop_running hp, rfl⟩

theorem atLoopHead_progresses {n : Nat} {s : State} {k : Fetched} (hp : s.phase ≠ .idle)
    (hk : s.outLen.toNat < s.par.reqSize.toNat → Progresses n k) : Progresses n (atLoopHead s k) := by
  rcases atLoopHead_cases s k with ⟨_, he⟩ | ⟨hroom, he⟩
  · exact he ▸ raiseStop_progresses hp
  · rw [he]
    exact hk hroom

/-- The cursor is in mode `m`, its buffer as the mode keeps it. -/
def Ready (m : CursorMode) (c : Cursor) : Prop := c.mode = m ∧ BufferOk c

/-- A read that took `k` bits leaves the cursor ready, with `k` bits fewer left. -/
theorem ready_of_takes {α : Type} {m : CursorMode} {s : State} {k : Nat} {d : Delivery α} {v w : α} {c : Cursor}
    (hm : s.cur.mode = m) (hd : Takes s.inSpace s.par.inLen s.cur k d v) (h : d = .value w c) :
    Ready m c ∧ bitsLeft { s with cur := c } + k ≤ bitsLeft s := by
  obtain ⟨_, hk, hr⟩ := hd.reads h
  have hlen : bitsLeft { s with cur := c } = _ := (bitsLeft_eq _).trans hr.length_ahead
  have hleft : bitsLeft s = (ahead s.inSpace s.par.inLen s.cur).length := bitsLeft_eq s
  exact ⟨⟨hr.mode_eq.trans hm, hr.buffer⟩, by omega⟩

/-- A read of `k` bits ends the running command, or goes on with `k` bits fewer left. -/
theorem reading_progresses {α : Type} {m : CursorMode} {s : State} {k n : Nat} {d : Delivery α} {v : α}
    {cut : State → State} {f : α → State → Fetched} (hm : s.cur.mode = m)
    (hd : Takes s.inSpace s.par.inLen s.cur k d v) (hcut : ∀ c, (cut { s with cur := c }).phase ≠ .idle)
    (hf : ∀ w c, Ready m c → bitsLeft { s with cur := c } + k ≤ bitsLeft s → Progresses n (f w { s with cur := c })) :
    Progresses n (reading s d cut f) := by
  rcases reading_cases s d cut f with ⟨w, c, hw, he⟩ | ⟨c, _, he⟩
  · obtain ⟨hc, hleft⟩ := ready_of_takes hm hd hw
    exact he ▸ hf w c hc hleft
  · exact he ▸ raiseStop_progresses (hcut c)

section
variable {s : State} {n : Nat}

theorem readingByte_progresses {f : Byte → State → Fetched} (hp : s.phase ≠ .idle) (hc : Ready .byte s.cur)
    (hf : ∀ v c, Ready .byte c → bitsLeft { s with cur := c } + 8 ≤ bitsLeft s → Progresses n (f v { s with cur := c })) :
    Progresses n (readingByte s id f) :=
  reading_progresses hc.1 (fetchByte_takes hc.1 hc.2) (fun _ => hp) hf

theorem readingBit_progresses {cut : State → State} {f : Bool → State → Fetched} (hc : Ready .msb s.cur)
    (hcut : ∀ c, (cut { s with cur := c }).phase ≠ .idle)
    (hf : ∀ v c, Ready .msb c → bitsLeft { s with cur := c } + 1 ≤ bitsLeft s → Progresses n (f v { s with cur := c })) :
    Progresses n (readingBit s cut f) :=
  reading_progresses hc.1 (readBitMsb_takes hc.1 hc.2) hcut hf

/-- A field read least significant bit first, of a symbol that then runs. -/
theorem readingLsb_progresses {k : Nat} {symbol : Code → Instr} (hp : s.phase ≠ .idle) (hc : Ready .lsb s.cur) (hpos : 1 ≤ k) (hk : k ≤ 16)
    (hrun : ∀ v c, ∃ u, exec (symbol v) { s with cur := c } = .next u) :
    Progresses (bitsLeft s) (readingLsb k s fun v t => .run (symbol v) t) :=
  reading_progresses hc.1 (readBitsLsb_takes hc.1 hc.2 hk) (fun _ => hp)
    fun _ _ _ hleft => ⟨by omega, hrun _ _⟩

end

/-! ## LZW -/

/-- A normal code of the table runs: its string is there (R161, R168). -/
theorem normalCode_answers {s : State} (code : Code) {start : Code} (again : Bool) (hp : s.phase = .lzwCode)
    (hs : LzwInv s) (hstart : NormalCode start) (hlt : start.toNat < s.lzw.nextIndex.toNat) :
    ∃ u, normalCode code start again s = .next u := by
  obtain ⟨htable, _⟩ := lzwInv_iff.1 hs hp
  obtain ⟨str, hstr, hlen⟩ := exists_spells htable.built start hstart hlt
  have hbound := start.isLt
  exact ⟨_, normalCode_eq hp hstr (by omega)⟩

/-- With room in the output a code of any class runs. -/
theorem exec_classifyLzw_answers {s : State} (code : Code) (hp : s.phase = .lzwCode) (hs : LzwInv s)
    (hroom : s.outLen.toNat < s.par.reqSize.toNat) : ∃ u, exec (classifyLzw s.lzw.nextIndex code) s = .next u := by
  obtain ⟨htable, hprev⟩ := lzwInv_iff.1 hs hp
  obtain ⟨hprevNormal, hprevLt⟩ := hprev hroom
  have hge := htable.index_ge
  have hstop : ∀ cause, ∃ u, inPhase .lzwCode s (raiseStop cause s) = .next u := fun cause =>
    ⟨_, (inPhase_of_phase hp).trans (raiseStop_running (by simp [hp]))⟩
  rw [classifyLzw_eq]
  split_ifs with hend hcorrupt hreset hlit href
  · exact hstop _
  · exact hstop _
  · exact ⟨_, inPhase_of_phase hp⟩
  · have hbyte : ((code.setWidth 8).setWidth 13).toNat < 256 := by
      rw [BitVec.toNat_setWidth]
      omega
    exact normalCode_answers _ false hp hs (.inl hbyte) (by omega)
  · exact normalCode_answers code false hp hs (.inr (by omega)) href
  · exact normalCode_answers code true hp hs hprevNormal hprevLt

/-! ## Huffman -/

/-- A node record of `s` in the build, in the terms of `inBuild`. -/
theorem exec_hufNode_eq {s : State} (v : BitVec 7) (l r : Bool) (hp : s.phase = .hufNode)
    (hroom : s.huf.nodeCount.toNat < 256) :
    exec (.hufNode v l r) s =
      let i := s.huf.nodeCount.toNat
      let nodes := withSlot v i s.huf.nodes
      if l then .next (inBuild nodes (i + 1) (⟨BitVec.ofNat 8 i, .leftChild r⟩ :: s.huf.stack) s)
      else if r then .next (inBuild nodes (i + 1) (⟨BitVec.ofNat 8 i, .rightChild⟩ :: s.huf.stack) s)
      else completed i nodes (i + 1) s.huf.stack s := by
  have hrun := exec_hufNode_inBuild (nodes := s.huf.nodes) (stack := s.huf.stack) hp hroom v l r
  rwa [inBuild_self] at hrun

theorem exec_hufNode_full {s : State} (v : BitVec 7) (l r : Bool) (hp : s.phase = .hufNode)
    (hfull : 256 ≤ s.huf.nodeCount.toNat) : exec (.hufNode v l r) s = raiseStop .nodeRange s :=
  (inPhase_of_phase hp).trans (if_pos hfull)

/-- Where a completed subtree completes the root, the root's slot is filled (R182, R185). -/
theorem completed_answers {s : State} {j count : Nat} {nodes : Table Node} {stack : List BuildFrame}
    (hrun : s.phase ≠ .idle) (hnodes : NodesLinked nodes count) (hj : j < count) (hcount : count ≤ 256)
    (hstack : StackOrdered stack j) : ∃ u, completed j nodes count stack s = .next u := by
  have hslot : (BitVec.ofNat 8 j).toNat = j := slotIndex_toNat (by omega)
  have hlinked := (returnBuild_linked hnodes (hslot.symm ▸ hj) (hslot.symm ▸ hstack)).1
  unfold completed
  generalize returnBuild (BitVec.ofNat 8 j) nodes stack = built at hlinked ⊢
  obtain ⟨nodes', _ | above⟩ := built
  · obtain ⟨root, hroot, _⟩ := hlinked 0 (by omega)
    by_cases hone : root.left = none ∨ root.right = none
    · exact ⟨_, (checkRoot_oneSided (s := inBuild nodes' count [] s) hroot hone).trans (raiseStop_running hrun)⟩
    · rw [not_or] at hone
      exact ⟨_, checkRoot_both (s := inBuild nodes' count [] s) hroot hone.1 hone.2⟩
  · exact ⟨_, rfl⟩

/-- A node record runs in the build (R182, R183). -/
theorem exec_hufNode_answers {s : State} (v : BitVec 7) (l r : Bool) (hp : s.phase = .hufNode) (hs : HufInv s) :
    ∃ u, exec (.hufNode v l r) s = .next u := by
  have hrun : s.phase ≠ .idle := by simp [hp]
  obtain ⟨_, hnodes, hstack, _⟩ := hs.1 hp
  by_cases hroom : s.huf.nodeCount.toNat < 256
  · rw [exec_hufNode_eq v l r hp hroom]
    cases l with
    | true => exact ⟨_, rfl⟩
    | false =>
      cases r with
      | true => exact ⟨_, rfl⟩
      | false => exact completed_answers hrun (nodesLinked_alloc v hnodes) (Nat.lt_succ_self _) hroom hstack
  · exact ⟨_, (exec_hufNode_full v l r hp (Nat.not_lt.1 hroom)).trans (raiseStop_running hrun)⟩

theorem visits_snoc {nodes : Table Node} {count : Nat} {i j k : NodeIdx} {path : List Bool} {n : Node} {d : Bool}
    (h : Visits nodes count i path j) (hn : tableGet nodes j.toNat = some n) (hd : childOf n d = some k)
    (hk : k.toNat < count) : Visits nodes count i (path ++ [d]) k := by
  induction h with
  | here i => exact .down i k k n d [] hn hd hk (.here k)
  | down i j _ m e path hm he hj _ ih => exact .down i j k m e (path ++ [d]) hm he hj (ih hn)

/-- The walk of a sample code ends within the table: each link leads to a later slot (R187, R194). -/
theorem fetchPath_progresses {s : State} {sign : Bool} {fuel n : Nat} {node : NodeIdx} {taken : List Bool}
    (hp : s.phase = .hufSample) (hc : Ready .msb s.cur) (hroom : s.outLen.toNat < s.par.reqSize.toNat)
    (hnodes : NodesLinked s.huf.nodes s.huf.nodeCount.toNat)
    (hvisits : Visits s.huf.nodes s.huf.nodeCount.toNat 0 taken.reverse node)
    (hnode : node.toNat < s.huf.nodeCount.toNat) (hlen : taken.length ≤ node.toNat)
    (hfuel : Config.hufNodeCap ≤ node.toNat + fuel) (hn : bitsLeft s < n) :
    Progresses n (fetchPath sign fuel node taken s) := by
  have hrun : s.phase ≠ .idle := by simp [hp]
  have hbound := node.isLt
  induction fuel generalizing node taken s with
  | zero => exact absurd hfuel (Nat.not_le.2 hbound)
  | succ fuel ih =>
    obtain ⟨entry, hentry, hlinks⟩ := hnodes node.toNat hnode
    have hshort : taken.reverse.length ≤ 255 := by
      rw [List.length_reverse]
      omega
    simp only [fetchPath, hentry]
    by_cases hleaf : isLeaf entry = true
    · rw [if_pos hleaf]
      exact ⟨hn, _, exec_hufSample_leaf hp hroom (walk_leaf hvisits hshort hentry hleaf)⟩
    · rw [if_neg hleaf]
      refine readingBit_progresses hc (fun _ => hrun) fun d c hc' hleft => ?_
      cases hchild : childOf entry d with
      | none =>
        have hwalk := walk_outside (d := d) hvisits hshort hentry (by simpa using hleaf) (by simp [hchild])
        rw [← List.reverse_cons] at hwalk
        exact ⟨by omega, _, (exec_hufSample_outside (s := { s with cur := c }) hp hwalk).trans (raiseStop_running hrun)⟩
      | some child =>
        obtain ⟨hlater, hin⟩ := hlinks d child hchild
        dsimp only
        rw [if_neg (Nat.not_le.2 hin)]
        refine ih (s := { s with cur := c }) hp hc' hroom hnodes ?_ hin ?_ ?_ ?_ hrun child.isLt
        · rw [List.reverse_cons]
          exact visits_snoc hvisits hentry hchild hin
        · rw [List.length_cons]
          omega
        · omega
        · omega

/-- With room in the output a sample code runs (R186, R187). -/
theorem fetchSample_progresses {s : State} (hp : s.phase = .hufSample) (hc : Ready .msb s.cur) (hs : HufInv s) :
    Progresses (bitsLeft s) (fetchSample s) := by
  have hrun : s.phase ≠ .idle := by simp [hp]
  obtain ⟨hcount, _, hnodes, _⟩ := hs.2 hp
  refine atLoopHead_progresses hrun fun hroom => readingBit_progresses hc (fun _ => hrun) fun sign c hc' hleft => ?_
  exact fetchPath_progresses (s := { s with cur := c }) hp hc' hroom hnodes (.here 0) hcount (Nat.zero_le _)
    (Nat.le_add_left _ _) (by omega)

/-- A node record runs, wherever the slots allow it (R182, R183). -/
theorem fetchNode_progresses {s : State} (hp : s.phase = .hufNode) (hc : Ready .msb s.cur) (hs : HufInv s) :
    Progresses (bitsLeft s) (fetchNode s) := by
  have hrun : s.phase ≠ .idle := by simp [hp]
  unfold fetchNode
  split
  · exact raiseStop_progresses hrun
  · refine reading_progresses hc.1 (readBitsMsb_takes (n := 6) hc.1 hc.2) (fun _ => hrun) fun _ c1 hc1 hleft1 => ?_
    refine readingBit_progresses (s := { s with cur := c1 }) hc1 (fun _ => hrun) fun _ c2 hc2 hleft2 => ?_
    refine readingBit_progresses (s := { s with cur := c2 }) hc2 (fun _ => hrun) fun _ c3 _ hleft3 => ⟨?_, ?_⟩
    · dsimp only at hleft2 hleft3 ⊢
      omega
    · exact exec_hufNode_answers (s := { s with cur := c3 }) _ _ _ hp hs

/-! ## Sigma-delta -/

theorem fetchInit_progresses {s : State} (hp : s.phase = .sddInit) (hc : Ready .lsb s.cur) (hs : SddInv s) :
    Progresses (bitsLeft s) (fetchInit s) := by
  have hrun : s.phase ≠ .idle := by simp [hp]
  obtain ⟨hnone, hregion⟩ := (sddInv_init_iff hp).1 hs
  unfold fetchInit
  split_ifs with hzero
  · exact raiseStop_progresses hrun
  · have hroom : s.outLen.toNat < s.par.reqSize.toNat :=
      hnone ▸ (Nat.pos_of_ne_zero hzero).trans_le hregion.size_le
    refine readingLsb_progresses (symbol := fun a => .sddInit (a.setWidth 8)) hrun hc (by decide) (by decide) fun a c =>
      ⟨_, (inPhase_of_phase hp).trans ((if_neg hzero).trans (appendThen_room ?_))⟩
    exact hroom

/-- A value word of any class runs with room in the output (R216 to R219). -/
theorem exec_classifySdd_answers {s : State} (width : Nat) (v : BitVec 9) (hp : s.phase = .sddWord)
    (hroom : s.outLen.toNat < s.par.reqSize.toNat) : ∃ u, exec (classifySdd width v) s = .next u := by
  unfold classifySdd
  split_ifs
  · exact ⟨_, inPhase_of_phase hp⟩
  · exact ⟨_, (inPhase_of_phase hp).trans (sddEmit_room hroom)⟩
  · exact ⟨_, (inPhase_of_phase hp).trans (sddEmit_room hroom)⟩

theorem fetchWord_progresses {s : State} (hp : s.phase = .sddWord) (hc : Ready .lsb s.cur) (hs : SddInv s) :
    Progresses (bitsLeft s) (fetchWord s) := by
  have hrun : s.phase ≠ .idle := by simp [hp]
  obtain ⟨hregion, _⟩ := (sddInv_word_iff hp).1 hs
  unfold fetchWord
  split_ifs with hout
  · exact raiseStop_progresses hrun
  · have hroom := (Nat.lt_of_not_le hout).trans_le hregion.size_le
    have hwidth := s.sdd.bitWidth.isLt
    exact readingLsb_progresses (symbol := fun v => classifySdd _ (v.setWidth 9)) hrun hc hregion.coding.width_ge
      (by omega) fun v c => exec_classifySdd_answers (s := { s with cur := c }) _ _ hp hroom

/-! ## Nibble-delta -/

/-- A byte with room is written; then the output is full, or `k` goes on with room left. -/
theorem nduSeed_answers {s : State} {seed : Byte} {k : State → Host.Outcome State Fault Refusal}
    (hrun : s.phase ≠ .idle) (hroom : s.outLen.toNat < s.par.reqSize.toNat)
    (hk : (seeded seed s).outLen.toNat < s.par.reqSize.toNat → ∃ u, k (seeded seed s) = .next u) :
    ∃ u, nduSeed seed s k = .next u := by
  rw [(nduSeed_eq hroom).1]
  rcases unlessFull_cases (seeded seed s) k with ⟨_, he⟩ | ⟨hmore, he⟩
  · exact ⟨_, he.trans (raiseStop_running hrun)⟩
  · exact he ▸ hk hmore

theorem exec_nduPair_answers {s : State} (h l : Nibble) (hp : s.phase = .nduRun)
    (hroom : s.outLen.toNat < s.par.reqSize.toNat) : ∃ u, exec (.nduPair h l) s = .next u := by
  have hrun : s.phase ≠ .idle := by simp [hp]
  have hexec : exec (.nduPair h l) s = _ := inPhase_of_phase hp
  rw [hexec]
  refine nduSeed_answers (s := counted s) hrun hroom fun hmore => ?_
  split_ifs
  · exact ⟨_, rfl⟩
  · exact nduSeed_answers (s := counted (deltaOut h s)) hrun hmore fun _ => ⟨_, rfl⟩

/-- An escape sequence runs, or the command ends with its seed written (R244, R248). -/
theorem fetchEsc_progresses {s : State} {n : Nat} (hp : s.phase = .nduScan) (hc : Ready .byte s.cur)
    (hroom : s.outLen.toNat < s.par.reqSize.toNat) (hn : bitsLeft s < n) : Progresses n (fetchEsc s) := by
  have hrun : s.phase ≠ .idle := by simp [hp]
  refine readingByte_progresses hrun hc fun seed c hc' hleft => ?_
  by_cases hfull : s.par.reqSize.toNat ≤ s.outLen.toNat + 1
  · rw [if_pos hfull]
    exact ⟨_, nduSeed_full (s := { s with cur := c }) hrun (Nat.le_antisymm hroom hfull), rfl⟩
  · have hmore := Nat.lt_of_not_le hfull
    have hcut : ∀ c, Progresses n (.acted (nduSeed seed { s with cur := c } (raiseStop .exhausted))) := fun c =>
      ⟨_, (nduSeed_room (s := { s with cur := c }) hmore).trans (raiseStop_running hrun), rfl⟩
    rw [if_neg hfull]
    dsimp only
    cases hhi : fetchByte s.inSpace s.par.inLen c with
    | exhausted c1 => exact hcut c1
    | value hi c1 =>
      obtain ⟨hc1, hleft1⟩ := ready_of_takes (s := { s with cur := c }) hc'.1 (fetchByte_takes hc'.1 hc'.2) hhi
      dsimp only
      cases hlo : fetchByte s.inSpace s.par.inLen c1 with
      | exhausted c2 => exact hcut c2
      | value lo c2 =>
        obtain ⟨_, hleft2⟩ := ready_of_takes (s := { s with cur := c1 }) hc1.1 (fetchByte_takes hc1.1 hc1.2) hlo
        refine ⟨?_, _, (inPhase_of_phase hp).trans (nduSeed_room (s := { s with cur := c2 }) hmore)⟩
        dsimp only at hleft1 hleft2 ⊢
        omega

theorem fetchScan_progresses {s : State} (hp : s.phase = .nduScan) (hc : Ready .byte s.cur) :
    Progresses (bitsLeft s) (fetchScan s) := by
  have hrun : s.phase ≠ .idle := by simp [hp]
  refine atLoopHead_progresses hrun fun hroom => readingByte_progresses hrun hc fun b c hc' hleft => ?_
  split_ifs
  · exact fetchEsc_progresses (s := { s with cur := c }) hp hc' hroom (by omega)
  · exact ⟨by omega, _, (inPhase_of_phase hp).trans (appendThen_room hroom)⟩

/-! ## The step -/

/-- What a running command needs of the invariant: all but the canonical form of the storage and `BUSY` (R22, R66, R168, R194,
R222, R242). -/
structure RunInv (s : State) : Prop where
  cursor : CursorInv s
  output : OutputInv s
  lzw : LzwInv s
  huf : HufInv s
  sdd : SddInv s
  ndu : NduInv s

theorem runInv_of_inv {s : State} (h : Inv s) : RunInv s := by
  obtain ⟨_, _, hcursor, houtput, hlzw, hhuf, hsdd, hndu⟩ := h
  exact ⟨hcursor, houtput, hlzw, hhuf, hsdd, hndu⟩

theorem engineStep_runInv {s : State} (hs : RunInv s) : Answers RunInv (engineStep s) := fun t ht =>
  ⟨engineStep_cursorInv hs.cursor t ht, engineStep_outputInv hs.output t ht, engineStep_lzwInv hs.lzw t ht,
    engineStep_hufInv hs.huf t ht, engineStep_sddInv hs.sdd t ht, engineStep_nduInv hs.ndu t ht⟩

/-- A running command runs its next symbol or ends (R267, R299). -/
theorem fetchStream_progresses {s : State} (hs : RunInv s) (hrun : s.phase ≠ .idle) :
    Progresses (bitsLeft s) (fetchStream s) := by
  obtain ⟨m, hm, hst⟩ := cursorInv_iff.1 hs.cursor hrun
  have hc : Ready m s.cur := ⟨hst.mode_eq, hst.buffer⟩
  unfold fetchStream
  cases hp : s.phase
  case idle => exact absurd hp hrun
  all_goals
    rw [hp] at hm
    cases hm
  case lzwCode =>
    have hwidth := (lzwInv_iff.1 hs.lzw hp).1.width_ge
    have hbound := s.lzw.codeWidth.isLt
    exact atLoopHead_progresses hrun fun hroom => readingLsb_progresses hrun hc (by omega) (by omega) fun code c =>
      exec_classifyLzw_answers (s := { s with cur := c }) code hp hs.lzw hroom
  case hufNode => exact fetchNode_progresses hp hc hs.huf
  case hufSample => exact fetchSample_progresses hp hc hs.huf
  case sddHdr =>
    exact readingByte_progresses hrun hc fun _ _ _ hleft => ⟨by omega, _, inPhase_of_phase hp⟩
  case sddInit => exact fetchInit_progresses hp hc hs.sdd
  case sddWord => exact fetchWord_progresses hp hc hs.sdd
  case nduScan => exact fetchScan_progresses hp hc
  case nduRun =>
    obtain ⟨_, hroom⟩ := (nduInv_run_iff hp).1 hs.ndu
    exact readingByte_progresses hrun hc fun _ c _ hleft =>
      ⟨by omega, exec_nduPair_answers (s := { s with cur := c }) _ _ hp hroom⟩

/-- The rule of a symbol takes no bits of the input. -/
theorem GoesOn.bitsLeft_eq {s t : State} (h : GoesOn s t) : bitsLeft t = bitsLeft s := by
  rw [bitsLeft, bitsLeft, h.par_eq, h.cur_eq]
  split <;> rfl

/-- The engine's step from a running command ends it or leaves it fewer bits (R348). -/
theorem engineStep_progresses {s : State} (hs : RunInv s) (hrun : s.phase ≠ .idle) :
    ∃ t, engineStep s = .next t ∧ (t.phase = .idle ∨ bitsLeft t < bitsLeft s) := by
  have hprogress := fetchStream_progresses hs hrun
  unfold engineStep
  cases hf : fetchStream s with
  | acted o =>
    rw [hf] at hprogress
    obtain ⟨t, ht, hidle⟩ := hprogress
    exact ⟨t, ht, .inl hidle⟩
  | run i u =>
    rw [hf] at hprogress
    obtain ⟨hfewer, t, ht⟩ := hprogress
    obtain ⟨hi, c, rfl⟩ := fetchStream_run hf
    refine ⟨t, ht, (exec_goesOn (s := { s with cur := c }) hi t ht).imp And.left fun hgo => ?_⟩
    exact hgo.bitsLeft_eq.trans_lt hfewer

/-! ## The run -/

theorem run_succ {s t : State} (n : Nat) (hhost : s.host = []) (h : engineStep s = .next t) : run (n + 1) s = run n t := by
  rw [run, step_eq_engineStep hhost, h]

theorem run_idle {s : State} (n : Nat) (hhost : s.host = []) (hidle : s.phase = .idle) : run n s = .next s := by
  induction n with
  | zero => rfl
  | succ n ih => rw [run_succ n hhost (engineStep_idle hidle), ih]

/-- A command with fewer than `n` bits left has stopped after `n` steps. -/
theorem run_stops {n : Nat} {s : State} (hs : RunInv s) (hhost : s.host = []) (hn : bitsLeft s < n) :
    ∃ t, run n s = .next t ∧ t.phase = .idle := by
  induction n generalizing s with
  | zero => exact absurd hn (Nat.not_lt_zero _)
  | succ n ih =>
    by_cases hidle : s.phase = .idle
    · exact ⟨s, run_idle _ hhost hidle, hidle⟩
    · obtain ⟨t, ht, hend⟩ := engineStep_progresses hs hidle
      have hhost' : t.host = [] := (engineStep_host ht).trans hhost
      rw [run_succ n hhost ht]
      rcases hend with hend | hfewer
      · exact ⟨t, run_idle n hhost' hend, hend⟩
      · exact ih (engineStep_runInv hs t ht) hhost' (by omega)

/-- Settles O56: each step of a running command ends it or takes at least one bit, and an idle block stays idle. -/
theorem everyCommandStops : Obligations.EveryCommandStops := fun _ hinv hhost =>
  run_stops (runInv_of_inv hinv) hhost (Nat.lt_succ_self _)

end Sys2Proof.Proofs
end

section
/-! Two blocks alike: what a running command reads of the state, as a relation between two states that may hold anything else;
and the shared operations, which do alike in both (R268, R270). -/

namespace Sys2Proof.Proofs

open Sys2Proof.Machine Sys2Proof.Laws Sys2Proof.Safety

/-! ## The output as a list -/

theorem bytesFrom_eq_of_reads {m m' : Memory} {a n : Nat} (h : ∀ i, i < n → memRead m (a + i) = memRead m' (a + i)) :
    bytesFrom m a n = bytesFrom m' a n := by
  induction n generalizing a with
  | zero => rfl
  | succ n ih =>
    have hrest : ∀ i, i < n → memRead m (a + 1 + i) = memRead m' (a + 1 + i) := fun i hi => by
      rw [Nat.add_right_comm]
      exact h (i + 1) (Nat.succ_lt_succ hi)
    rw [bytesFrom, bytesFrom, ih hrest]
    exact congrArg (· :: _) (h 0 (Nat.succ_pos n))

theorem bytesFrom_add (m : Memory) (a n k : Nat) : bytesFrom m a (n + k) = bytesFrom m a n ++ bytesFrom m (a + n) k := by
  induction n generalizing a with
  | zero => rw [Nat.zero_add]; rfl
  | succ n ih => rw [Nat.add_right_comm, bytesFrom, bytesFrom, ih, List.cons_append, Nat.add_right_comm, Nat.add_assoc]

/-- Bytes that read back as a string are that string. -/
theorem bytesFrom_eq_take {m : Memory} {a n : Nat} {str : List Byte} (hn : n ≤ str.length)
    (h : ∀ j, j < n → memRead m (a + j) = str.getD j 0) : bytesFrom m a n = str.take n := by
  induction n generalizing a str with
  | zero => rfl
  | succ n ih =>
    obtain ⟨v, rest, rfl⟩ := List.exists_cons_of_length_pos (Nat.lt_of_lt_of_le (Nat.succ_pos n) hn)
    have hrest : bytesFrom m (a + 1) n = rest.take n := ih (Nat.le_of_succ_le_succ hn) fun j hj => by
      rw [Nat.add_right_comm]
      exact h (j + 1) (Nat.succ_lt_succ hj)
    rw [bytesFrom, List.take_succ_cons, hrest]
    exact congrArg (· :: _) (h 0 (Nat.succ_pos n))

/-- An append extends the decoded output by its string, cut to the room (R66, R162). -/
theorem outputOf_appends {str : List Byte} {s t : State} (h : Appends str s t) :
    outputOf t = outputOf s ++ str.take (min str.length (s.par.reqSize.toNat - s.outLen.toNat)) := by
  obtain ⟨hlen, hnew, hold⟩ := h
  rw [outputOf, outputOf, hlen, bytesFrom_add, Nat.zero_add, bytesFrom_eq_take (min_le_left _ _) hnew,
    bytesFrom_eq_of_reads fun i hi => hold (0 + i) (.inl (by omega))]

/-! ## States alike -/

/-- The decoded output is the same in both. -/
def SameOutput (s t : State) : Prop :=
  outputOf t = outputOf s ∧ s.outSpace.wf = true ∧ t.outSpace.wf = true

/-- Two LZW units whose built entries are the same; below 258 none is read (R37). -/
structure LzwAlike (u v : LzwUnit) : Prop where
  width_eq : v.codeWidth = u.codeWidth
  index_eq : v.nextIndex = u.nextIndex
  prev_eq : v.prevCode = u.prevCode
  entries_eq : ∀ i, 258 ≤ i → i < u.nextIndex.toNat → tableGet v.dict i = tableGet u.dict i

/-- Two node tables with the same first `count` slots. -/
def NodesAlike (count : Nat) (nodes nodes' : Table Node) : Prop :=
  ∀ i, i < count → tableGet nodes' i = tableGet nodes i

/-- Two Huffman units whose allocated slots are the same (R42). -/
structure HufAlike (u v : HufUnit) : Prop where
  count_eq : v.nodeCount = u.nodeCount
  value_eq : v.runningValue = u.runningValue
  stack_eq : v.stack = u.stack
  nodes_alike : NodesAlike u.nodeCount.toNat u.nodes v.nodes

/-- The registers that the phase of `s` reads are the same in both (R29); with no command running, the recorded results. -/
def UnitsAlike (s t : State) : Prop :=
  match s.phase with
  | .idle => t.consumed = s.consumed ∧ t.status = s.status
  | .lzwCode => LzwAlike s.lzw t.lzw
  | .hufNode | .hufSample => HufAlike s.huf t.huf
  | .sddHdr => True
  | .sddInit => t.sdd = { s.sdd with accumulator := t.sdd.accumulator }
  | .sddWord => t.sdd = s.sdd
  | .nduScan | .nduRun => t.ndu = s.ndu

/-- Two states that look the same to the running command. -/
structure Alike (s t : State) : Prop where
  par_eq : t.par = s.par
  phase_eq : t.phase = s.phase
  cur_eq : t.cur = s.cur
  output : SameOutput s t
  input : SameBytes s.par.inLen t.inSpace s.inSpace
  units : UnitsAlike s t

section
variable {s t : State}

theorem unitsAlike_lzw (hp : s.phase = .lzwCode) : UnitsAlike s t ↔ LzwAlike s.lzw t.lzw := by
  simp only [UnitsAlike, hp]

theorem unitsAlike_huf (hp : s.phase = .hufNode ∨ s.phase = .hufSample) : UnitsAlike s t ↔ HufAlike s.huf t.huf := by
  rcases hp with hp | hp <;> simp only [UnitsAlike, hp]

theorem unitsAlike_sddWord (hp : s.phase = .sddWord) : UnitsAlike s t ↔ t.sdd = s.sdd := by
  simp only [UnitsAlike, hp]

theorem unitsAlike_sddInit (hp : s.phase = .sddInit) :
    UnitsAlike s t ↔ t.sdd = { s.sdd with accumulator := t.sdd.accumulator } := by
  simp only [UnitsAlike, hp]

theorem unitsAlike_ndu (hp : s.phase = .nduScan ∨ s.phase = .nduRun) : UnitsAlike s t ↔ t.ndu = s.ndu := by
  rcases hp with hp | hp <;> simp only [UnitsAlike, hp]

theorem SameOutput.len_eq (h : SameOutput s t) : t.outLen = s.outLen := by
  have hlen := congrArg List.length h.1
  rw [outputOf, outputOf, bytesFrom_length, bytesFrom_length] at hlen
  exact BitVec.eq_of_toNat_eq hlen

/-- The same string appended to the same output. -/
theorem SameOutput.appends {str : List Byte} {s' t' : State} (h : SameOutput s t) (hpar : t.par = s.par)
    (hs : Appends str s s') (ht : Appends str t t') (hwf : s'.outSpace.wf = true) (hwf' : t'.outSpace.wf = true) :
    SameOutput s' t' := by
  refine ⟨?_, hwf, hwf'⟩
  rw [outputOf_appends hs, outputOf_appends ht, h.1, hpar, h.len_eq]

theorem SameOutput.appendByte {v : Byte} (h : SameOutput s t) (hpar : t.par = s.par)
    (hroom : s.outLen.toNat < s.par.reqSize.toNat) : SameOutput (appendByte v s) (appendByte v t) := by
  have hroom' : t.outLen.toNat < t.par.reqSize.toNat := by rwa [hpar, h.len_eq]
  exact h.appends hpar (appendByte_appends h.2.1 hroom) (appendByte_appends h.2.2 hroom') (memWrite_wf h.2.1)
    (memWrite_wf h.2.2)

theorem SameOutput.emit (str : List Byte) (h : SameOutput s t) (hpar : t.par = s.par) :
    SameOutput (emit str s) (emit str t) :=
  h.appends hpar (emit_appends h.2.1) (emit_appends h.2.2) (emit_wf h.2.1) (emit_wf h.2.2)

/-- A read moves both cursors alike. -/
theorem Alike.withCursor (h : Alike s t) (c : Cursor) : Alike { s with cur := c } { t with cur := c } :=
  ⟨h.par_eq, h.phase_eq, rfl, h.output, h.input, h.units⟩

/-- `CONSUMED` is the same by every command's formula (R35). -/
theorem Alike.consumedAtStop_eq (h : Alike s t) : consumedAtStop t = consumedAtStop s := by
  have hunits := h.units
  unfold consumedAtStop
  unfold UnitsAlike at hunits
  rw [h.phase_eq, h.par_eq, h.cur_eq]
  cases hp : s.phase <;> rw [hp] at hunits
  case idle => exact hunits.1
  case sddInit | sddWord => rw [hunits]

theorem Alike.outputIsFull_eq (h : Alike s t) : outputIsFull t = outputIsFull s := by
  rw [outputIsFull, outputIsFull, h.par_eq, h.output.len_eq]

/-- A stop records the same results in both (R300). -/
theorem Alike.stopped (h : Alike s t) (cause : StopCause) : Alike (stopped cause s) (stopped cause t) where
  par_eq := h.par_eq
  phase_eq := rfl
  cur_eq := h.cur_eq
  output := h.output
  input := h.input
  units := by
    refine ⟨h.consumedAtStop_eq, ?_⟩
    rw [stopped_status, stopped_status, h.par_eq, h.output.len_eq]

/-- With no command running, states alike hold the same result. -/
theorem Alike.resultOf_eq (h : Alike s t) (hidle : s.phase = .idle) : resultOf s = resultOf t := by
  have hunits := h.units
  rw [UnitsAlike, hidle] at hunits
  obtain ⟨hconsumed, hstatus⟩ := hunits
  rw [resultOf, resultOf, hconsumed, hstatus, h.output.1]

end

/-! ## Outcomes alike -/

/-- If both outcomes are next states, those are alike. -/
def AnswersAlike (o p : Host.Outcome State Fault Refusal) : Prop := ∀ s t, o = .next s → p = .next t → Alike s t

section
variable {s t : State}

theorem answersAlike_next (h : Alike s t) : AnswersAlike (.next s) (.next t) := by
  rintro _ _ ⟨⟩ ⟨⟩
  exact h

theorem answersAlike_fault (f : Fault) (p : Host.Outcome State Fault Refusal) : AnswersAlike (.fault f) p := by
  rintro _ _ ⟨⟩

theorem answersAlike_refused (r : Refusal) (p : Host.Outcome State Fault Refusal) : AnswersAlike (.refused r) p := by
  rintro _ _ ⟨⟩

theorem raiseStop_alike (cause : StopCause) (h : Alike s t) : AnswersAlike (raiseStop cause s) (raiseStop cause t) := by
  intro s' t' hs ht
  obtain ⟨_, rfl⟩ := raiseStop_next hs
  obtain ⟨_, rfl⟩ := raiseStop_next ht
  exact h.stopped cause

theorem inPhase_alike {p : Phase} {k l : Host.Outcome State Fault Refusal} (h : s.phase = p → AnswersAlike k l) :
    AnswersAlike (inPhase p s k) (inPhase p t l) := by
  intro s' t' hs ht
  obtain ⟨hp, hk⟩ := inPhase_next hs
  exact h hp s' t' hk (inPhase_next ht).2

theorem appendThen_alike {v : Byte} {k l : State → Host.Outcome State Fault Refusal} (houtput : SameOutput s t)
    (hpar : t.par = s.par)
    (h : SameOutput (appendByte v s) (appendByte v t) → AnswersAlike (k (appendByte v s)) (l (appendByte v t))) :
    AnswersAlike (appendThen v s k) (appendThen v t l) := by
  intro s' t' hs ht
  obtain ⟨hroom, hk⟩ := appendThen_next hs
  exact h (houtput.appendByte hpar hroom) s' t' hk (appendThen_next ht).2

theorem unlessFull_alike {k l : State → Host.Outcome State Fault Refusal} (h : Alike s t) (hk : AnswersAlike (k s) (l t)) :
    AnswersAlike (unlessFull s k) (unlessFull t l) := by
  rw [unlessFull, unlessFull, h.outputIsFull_eq]
  split
  · exact raiseStop_alike .full h
  · exact hk

/-! ## Fetches alike -/

/-- What becomes of a fetch: the instruction's meaning, or the step that is already whole. -/
def enact : Fetched → Host.Outcome State Fault Refusal
  | .run i t => exec i t
  | .acted o => o

theorem engineStep_eq_enact (s : State) : engineStep s = enact (fetchStream s) := rfl

/-- Both fetches lead to states alike. -/
def FetchesAlike (f g : Fetched) : Prop := AnswersAlike (enact f) (enact g)

theorem atLoopHead_alike {f g : Fetched} (h : Alike s t)
    (hf : s.outLen.toNat < s.par.reqSize.toNat → FetchesAlike f g) : FetchesAlike (atLoopHead s f) (atLoopHead t g) := by
  rw [atLoopHead, atLoopHead, h.outputIsFull_eq]
  split
  case isTrue => exact raiseStop_alike .full h
  case isFalse hroom => exact hf (by simpa [outputIsFull] using hroom)

theorem reading_alike {α : Type} {d d' : Delivery α} {cut : State → State} {f g : α → State → Fetched} (hd : d' = d)
    (hcut : ∀ c, Alike (cut { s with cur := c }) (cut { t with cur := c }))
    (hf : ∀ v c, FetchesAlike (f v { s with cur := c }) (g v { t with cur := c })) :
    FetchesAlike (reading s d cut f) (reading t d' cut g) := by
  subst hd
  cases d' with
  | value v c => exact hf v c
  | exhausted c => exact raiseStop_alike .exhausted (hcut c)

section
variable (h : Alike s t)
include h

theorem Alike.fetchByte_eq (c : Cursor) : fetchByte t.inSpace t.par.inLen c = fetchByte s.inSpace s.par.inLen c := by
  rw [h.par_eq]
  exact h.input c

theorem readingByte_alike {f g : Byte → State → Fetched}
    (hf : ∀ v c, Alike { s with cur := c } { t with cur := c } →
      FetchesAlike (f v { s with cur := c }) (g v { t with cur := c })) :
    FetchesAlike (readingByte s id f) (readingByte t id g) :=
  reading_alike (by rw [h.fetchByte_eq, h.cur_eq]) h.withCursor fun v c => hf v c (h.withCursor c)

theorem readingLsb_alike {n n' : Nat} {f g : Code → State → Fetched} (hn : n' = n)
    (hf : ∀ v c, Alike { s with cur := c } { t with cur := c } →
      FetchesAlike (f v { s with cur := c }) (g v { t with cur := c })) :
    FetchesAlike (readingLsb n s f) (readingLsb n' t g) :=
  reading_alike (by rw [hn, h.par_eq, h.cur_eq, h.input.readBitsLsb_eq]) h.withCursor fun v c => hf v c (h.withCursor c)

theorem readingBit_alike {cut : State → State} {f g : Bool → State → Fetched}
    (hcut : ∀ c, Alike (cut { s with cur := c }) (cut { t with cur := c }))
    (hf : ∀ v c, Alike { s with cur := c } { t with cur := c } →
      FetchesAlike (f v { s with cur := c }) (g v { t with cur := c })) :
    FetchesAlike (readingBit s cut f) (readingBit t cut g) :=
  reading_alike (by rw [h.par_eq, h.cur_eq, h.input.readBitMsb_eq]) hcut fun v c => hf v c (h.withCursor c)

end

end

end Sys2Proof.Proofs
end

section
/-! The stream symbols in two blocks alike: each reads of its unit what is the same in both, and leaves the same (R268, R270). -/

namespace Sys2Proof.Proofs

open Sys2Proof.Machine Sys2Proof.Laws Sys2Proof.Safety

/-! ## LZW -/

/-- The string of a code depends on the built entries alone (R161, R168). -/
theorem spells_of_sameEntries {dict dict' : Table DictEntry} {top : Nat} {c : Code} {str : List Byte}
    (hbuilt : DictBuilt dict top) (hsame : ∀ i, 258 ≤ i → i < top → tableGet dict' i = tableGet dict i)
    (h : Spells dict c str) (hc : NormalCode c) (hlt : c.toNat < top) : Spells dict' c str := by
  induction h with
  | literal c hlit => exact .literal c hlit
  | built c e str hge he _ ih =>
    have h258 : 258 ≤ c.toNat := hc.resolve_left (Nat.not_lt.2 hge)
    obtain ⟨e', he', hprefix, hbelow⟩ := hbuilt c.toNat h258 hlt
    obtain rfl : e = e' := Option.some.inj (he.symm.trans he')
    exact .built c e str hge ((hsame _ h258 hlt).trans he) (ih hprefix (hbelow.trans hlt))

theorem insertEntry_prevCode (first : Byte) (out : State) (u : LzwUnit) :
    (insertEntry first out u).prevCode = u.prevCode := by
  rcases insertEntry_cases first out u with ⟨_, _, he⟩ | ⟨_, he⟩ <;> rw [he]

/-- The same entry is inserted in both units, or none in either (R163 to R165). -/
theorem LzwAlike.insertEntry {u v : LzwUnit} {first : Byte} {out out' : State} (h : LzwAlike u v)
    (hpar : out'.par = out.par) (hlen : out'.outLen = out.outLen) :
    LzwAlike (insertEntry first out u) (insertEntry first out' v) := by
  by_cases hroom : out.outLen.toNat < out.par.reqSize.toNat ∧ u.nextIndex.toNat < 8192
  · have hins := insertEntry_inserted (first := first) hroom.1 hroom.2
    have hins' := insertEntry_inserted (first := first) (out := out') (u := v)
      (by rw [hpar, hlen]; exact hroom.1) (by rw [h.index_eq]; exact hroom.2)
    refine ⟨?_, ?_, ?_, fun i hlo hhi => ?_⟩
    · apply BitVec.eq_of_toNat_eq
      rw [hins.width_eq, hins'.width_eq, h.width_eq, h.index_eq]
    · apply BitVec.eq_of_toNat_eq
      rw [hins.index_eq, hins'.index_eq, h.index_eq]
    · rw [insertEntry_prevCode, insertEntry_prevCode, h.prev_eq]
    · rw [hins.index_eq] at hhi
      rw [hins.dict_eq, hins'.dict_eq, h.index_eq, h.prev_eq]
      by_cases hnew : i = u.nextIndex.toNat
      · rw [hnew, tableGet_tableSet_same, tableGet_tableSet_same]
      · rw [tableGet_tableSet_other hnew, tableGet_tableSet_other hnew]
        exact h.entries_eq i hlo (by omega)
  · rw [insertEntry_skipped hroom, insertEntry_skipped (by rw [hpar, hlen, h.index_eq]; exact hroom)]
    exact h

section
variable {s t : State} (h : Alike s t)
include h

/-- A normal code emits the same string and inserts the same entry in both (R152). -/
theorem coded_alike (hp : s.phase = .lzwCode) (code : Code) (str emitted : List Byte) :
    Alike (coded code str emitted s) (coded code str emitted t) where
  par_eq := (emit_par emitted t).trans (h.par_eq.trans (emit_par emitted s).symm)
  phase_eq := (emit_phase emitted t).trans (h.phase_eq.trans (emit_phase emitted s).symm)
  cur_eq := (emit_cur emitted t).trans (h.cur_eq.trans (emit_cur emitted s).symm)
  output := h.output.emit emitted h.par_eq
  input := by
    unfold coded
    dsimp only
    rw [emit_frame emitted s, emit_frame emitted t]
    exact h.input
  units := by
    obtain ⟨hwidth, hindex, hprev, hentries⟩ := (unitsAlike_lzw hp).1 h.units
    have hscratch : LzwAlike { s.lzw with scratch := str } { t.lzw with scratch := str } :=
      ⟨hwidth, hindex, hprev, hentries⟩
    have hins := hscratch.insertEntry (first := str.headD Config.blank) (out := emit emitted s) (out' := emit emitted t)
      (by rw [emit_par, emit_par, h.par_eq]) (h.output.emit emitted h.par_eq).len_eq
    exact (unitsAlike_lzw (s := coded code str emitted s) ((emit_phase emitted s).trans hp)).2
      ⟨hins.width_eq, hins.index_eq, rfl, hins.entries_eq⟩

theorem normalCode_alike (hp : s.phase = .lzwCode) (hs : LzwInv s) (code : Code) {start : Code} (again : Bool)
    (hstart : NormalCode start) (hlt : start.toNat < s.lzw.nextIndex.toNat) :
    AnswersAlike (normalCode code start again s) (normalCode code start again t) := by
  obtain ⟨htable, _⟩ := lzwInv_iff.1 hs hp
  obtain ⟨str, hstr, hlen⟩ := exists_spells htable.built start hstart hlt
  have hbound := start.isLt
  have hstr' := spells_of_sameEntries htable.built ((unitsAlike_lzw hp).1 h.units).entries_eq hstr hstart hlt
  rw [normalCode_eq hp hstr (by omega), normalCode_eq (h.phase_eq.trans hp) hstr' (by omega)]
  exact answersAlike_next (coded_alike h hp _ _ _)

/-- With room in the output a code of any class does the same in both. -/
theorem exec_classifyLzw_alike (hp : s.phase = .lzwCode) (hs : LzwInv s) (code : Code)
    (hroom : s.outLen.toNat < s.par.reqSize.toNat) :
    AnswersAlike (exec (classifyLzw s.lzw.nextIndex code) s) (exec (classifyLzw t.lzw.nextIndex code) t) := by
  have halike := (unitsAlike_lzw hp).1 h.units
  obtain ⟨htable, hprev⟩ := lzwInv_iff.1 hs hp
  obtain ⟨hprevNormal, hprevLt⟩ := hprev hroom
  have hge := htable.index_ge
  rw [halike.index_eq, classifyLzw_eq]
  split_ifs with hend hcorrupt hreset hlit href
  · exact inPhase_alike fun _ => raiseStop_alike _ h
  · exact inPhase_alike fun _ => raiseStop_alike _ h
  · refine inPhase_alike fun _ => answersAlike_next ⟨h.par_eq, h.phase_eq, h.cur_eq, h.output, h.input, ?_⟩
    refine (unitsAlike_lzw ?_).2 ⟨rfl, rfl, rfl, fun i hlo hhi => ?_⟩
    · exact hp
    · -- With `nextIndex` at 257 no entry counts as built.
      have hlt : i < 257 := hhi
      omega
  · have hbyte : ((code.setWidth 8).setWidth 13).toNat < 256 := by
      rw [BitVec.toNat_setWidth]
      omega
    exact normalCode_alike h hp hs _ false (.inl hbyte) (by omega)
  · exact normalCode_alike h hp hs code false (.inr (by omega)) href
  · change AnswersAlike (normalCode code s.lzw.prevCode true s) (normalCode code t.lzw.prevCode true t)
    rw [halike.prev_eq]
    exact normalCode_alike h hp hs code true hprevNormal hprevLt

end

/-! ## The node table -/

section
variable {count : Nat} {nodes nodes' : Table Node} (h : NodesAlike count nodes nodes')
include h

theorem NodesAlike.withSlot (v : BitVec 7) : NodesAlike (count + 1) (withSlot v count nodes) (withSlot v count nodes') := by
  intro i hi
  by_cases hnew : i = count
  · rw [hnew, Proofs.withSlot, Proofs.withSlot, tableGet_tableSet_same, tableGet_tableSet_same]
  · rw [Proofs.withSlot, Proofs.withSlot, tableGet_tableSet_other hnew, tableGet_tableSet_other hnew]
    exact h i (by omega)

theorem NodesAlike.updateNode (j : NodeIdx) (f : Node → Node) :
    NodesAlike count (updateNode nodes j f) (updateNode nodes' j f) := by
  intro i hi
  by_cases hij : i = j.toNat
  · subst hij
    rw [tableGet_updateNode_same, tableGet_updateNode_same, h _ hi]
  · rw [tableGet_updateNode_other hij, tableGet_updateNode_other hij, h i hi]

/-- The return up the stack sets the same links and leaves the same stack (R182). -/
theorem NodesAlike.returnBuild (j : NodeIdx) (stack : List BuildFrame) :
    NodesAlike count (returnBuild j nodes stack).1 (returnBuild j nodes' stack).1 ∧
      (returnBuild j nodes' stack).2 = (returnBuild j nodes stack).2 := by
  induction j, nodes, stack using returnBuild.induct generalizing nodes' with
  | case1 j nodes => exact ⟨h, rfl⟩
  | case2 j nodes i rest => exact ⟨h.updateNode i _, rfl⟩
  | case3 j nodes i rest ih => exact ih (h.updateNode i _)
  | case4 j nodes i rest ih => exact ih (h.updateNode i _)

/-- A walk visits allocated slots alone (R187, R190). -/
theorem NodesAlike.walk_eq (fuel : Nat) {node : NodeIdx} (hnode : node.toNat < count) (path : List Bool) :
    walk nodes' count fuel node path = walk nodes count fuel node path := by
  induction fuel generalizing node path with
  | zero => rfl
  | succ fuel ih =>
    rw [walk, walk, h _ hnode]
    cases tableGet nodes node.toNat with
    | none => rfl
    | some n =>
      cases path with
      | nil => rfl
      | cons d rest =>
        dsimp only
        cases childOf n d with
        | none => rfl
        | some child =>
          dsimp only
          by_cases hout : count ≤ child.toNat
          · simp only [if_pos hout]
          · simp only [if_neg hout, ih (Nat.lt_of_not_le hout)]

end

/-! ## Huffman -/

section
variable {s t : State} (h : Alike s t)
include h

/-- In the build, the same slots and the same stack. -/
theorem inBuild_alike (hp : s.phase = .hufNode) {count : Nat} {nodes nodes' : Table Node} (hcount : count ≤ 256)
    (hnodes : NodesAlike count nodes nodes') (stack : List BuildFrame) :
    Alike (inBuild nodes count stack s) (inBuild nodes' count stack t) := by
  have hvalue := ((unitsAlike_huf (.inl hp)).1 h.units).value_eq
  refine ⟨h.par_eq, h.phase_eq, h.cur_eq, h.output, h.input, ?_⟩
  refine (unitsAlike_huf (s := inBuild nodes count stack s) (.inl hp)).2 ⟨rfl, hvalue, rfl, ?_⟩
  have hnat : (inBuild nodes count stack s).huf.nodeCount.toNat = count := Nat.mod_eq_of_lt (by omega)
  rwa [hnat]

/-- The root check (R185). -/
theorem checkRoot_alike (hp : s.phase = .hufNode) (hcount : 0 < s.huf.nodeCount.toNat) :
    AnswersAlike (checkRoot s) (checkRoot t) := by
  have hunits := (unitsAlike_huf (.inl hp)).1 h.units
  intro s' t' hs ht
  obtain ⟨root, hroot, hs⟩ := checkRoot_next hs
  obtain ⟨root', hroot', ht⟩ := checkRoot_next ht
  obtain rfl : root' = root := Option.some.inj (hroot'.symm.trans ((hunits.nodes_alike 0 hcount).trans hroot))
  rcases hs with ⟨hone, _, rfl⟩ | ⟨hl, hr, rfl⟩ <;> rcases ht with ⟨hone', _, rfl⟩ | ⟨hl', hr', rfl⟩
  · exact h.stopped _
  · exact absurd hone (not_or.2 ⟨hl', hr'⟩)
  · exact absurd hone' (not_or.2 ⟨hl, hr⟩)
  · exact ⟨h.par_eq, rfl, h.cur_eq, h.output, h.input, (unitsAlike_huf (.inr rfl)).2 hunits⟩

/-- A completed subtree sets the same links, and the same build goes on or the root is checked (R182, R185). -/
theorem completed_alike (hp : s.phase = .hufNode) {j count : Nat} {nodes nodes' : Table Node} (hpos : 0 < count)
    (hcount : count ≤ 256) (hnodes : NodesAlike count nodes nodes') (stack : List BuildFrame) :
    AnswersAlike (completed j nodes count stack s) (completed j nodes' count stack t) := by
  obtain ⟨hlinked, habove⟩ := hnodes.returnBuild (BitVec.ofNat 8 j) stack
  unfold completed
  generalize returnBuild (BitVec.ofNat 8 j) nodes stack = built at hlinked habove ⊢
  generalize returnBuild (BitVec.ofNat 8 j) nodes' stack = built' at hlinked habove ⊢
  obtain ⟨after, above⟩ := built
  obtain ⟨after', above'⟩ := built'
  obtain rfl : above' = above := habove
  cases above' with
  | some above => exact answersAlike_next (inBuild_alike h hp hcount hlinked above)
  | none =>
    have hnat : (inBuild after count [] s).huf.nodeCount.toNat = count := Nat.mod_eq_of_lt (by omega)
    exact checkRoot_alike (inBuild_alike h hp hcount hlinked []) hp (hnat.symm ▸ hpos)

/-- A node record does the same in both (R182, R183). -/
theorem exec_hufNode_alike (hp : s.phase = .hufNode) (v : BitVec 7) (l r : Bool) :
    AnswersAlike (exec (.hufNode v l r) s) (exec (.hufNode v l r) t) := by
  have hunits := (unitsAlike_huf (.inl hp)).1 h.units
  have hp' := h.phase_eq.trans hp
  by_cases hroom : s.huf.nodeCount.toNat < 256
  · have hslot := hunits.nodes_alike.withSlot v
    rw [exec_hufNode_eq v l r hp hroom, exec_hufNode_eq v l r hp' (hunits.count_eq ▸ hroom), hunits.count_eq,
      hunits.stack_eq]
    dsimp only
    split_ifs
    · exact answersAlike_next (inBuild_alike h hp hroom hslot _)
    · exact answersAlike_next (inBuild_alike h hp hroom hslot _)
    · exact completed_alike h hp (Nat.succ_pos _) hroom hslot _
  · have hfull := Nat.not_lt.1 hroom
    rw [exec_hufNode_full v l r hp hfull, exec_hufNode_full v l r hp' (hunits.count_eq ▸ hfull)]
    exact raiseStop_alike _ h

/-- The slot of a record cut short is the same in both (R184). -/
theorem slotTaken_alike (hp : s.phase = .hufNode) (hroom : s.huf.nodeCount.toNat < 256) :
    Alike (slotTaken s) (slotTaken t) := by
  have hunits := (unitsAlike_huf (.inl hp)).1 h.units
  have hslot := hunits.nodes_alike.withSlot 0
  refine ⟨h.par_eq, h.phase_eq, h.cur_eq, h.output, h.input, (unitsAlike_huf (s := slotTaken s) (.inl hp)).2 ?_⟩
  refine ⟨congrArg (· + 1) hunits.count_eq, hunits.value_eq, hunits.stack_eq, ?_⟩
  have hnat : (slotTaken s).huf.nodeCount.toNat = s.huf.nodeCount.toNat + 1 := nodeCount_succ hroom
  rw [hnat]
  change NodesAlike _ (allocNode 0 s.huf).nodes (allocNode 0 t.huf).nodes
  rw [allocNode_nodes, allocNode_nodes, hunits.count_eq]
  exact hslot

/-- A sample code walks to the same leaf, or leaves the table, in both (R187, R190). -/
theorem exec_hufSample_alike (hp : s.phase = .hufSample) (hcount : 0 < s.huf.nodeCount.toNat) (sign : Bool)
    (path : List Bool) : AnswersAlike (exec (.hufSample sign path) s) (exec (.hufSample sign path) t) := by
  have hunits := (unitsAlike_huf (.inr hp)).1 h.units
  have hwalk := hunits.nodes_alike.walk_eq Config.hufNodeCap (node := 0) hcount path
  refine inPhase_alike fun _ => ?_
  rw [hunits.count_eq, hwalk]
  cases walk s.huf.nodes s.huf.nodeCount.toNat Config.hufNodeCap 0 path with
  | broken f => exact answersAlike_fault f _
  | mismatch => exact answersAlike_refused _ _
  | outside => exact raiseStop_alike _ h
  | leaf node value =>
    dsimp only
    rw [hunits.value_eq]
    refine appendThen_alike h.output h.par_eq fun houtput => answersAlike_next ?_
    refine ⟨h.par_eq, h.phase_eq, h.cur_eq, houtput, h.input, (unitsAlike_huf (.inr ?_)).2 ?_⟩
    · exact hp
    · exact ⟨hunits.count_eq, rfl, hunits.stack_eq, hunits.nodes_alike⟩

/-! ## Sigma-delta -/

/-- The header sets every register of the unit but the accumulator (R211 to R213). -/
theorem execSddHdr_alike (m : Byte) : AnswersAlike (execSddHdr m s) (execSddHdr m t) := by
  refine inPhase_alike fun _ => answersAlike_next ⟨h.par_eq, rfl, ?_, h.output, h.input, ?_⟩
  · rw [h.cur_eq]
  · refine (unitsAlike_sddInit rfl).2 ?_
    dsimp only
    rw [h.par_eq, h.cur_eq]

/-- The first sample sets the accumulator (R214). -/
theorem execSddInit_alike (hsize : s.sdd.effSize.toNat ≠ 0) (a : Byte) :
    AnswersAlike (execSddInit a s) (execSddInit a t) := by
  refine inPhase_alike fun hp => ?_
  have hunits := (unitsAlike_sddInit hp).1 h.units
  have hsize' : t.sdd.effSize.toNat ≠ 0 := by rwa [hunits]
  rw [if_neg hsize, if_neg hsize']
  refine appendThen_alike h.output h.par_eq fun houtput => answersAlike_next ?_
  refine ⟨h.par_eq, rfl, h.cur_eq, houtput, h.input, (unitsAlike_sddWord rfl).2 ?_⟩
  change { t.sdd with accumulator := a } = { s.sdd with accumulator := a }
  rw [hunits]

/-- A value word of any class does the same in both (R216 to R219). -/
theorem exec_classifySdd_alike (hp : s.phase = .sddWord) (width : Nat) (v : BitVec 9) :
    AnswersAlike (exec (classifySdd width v) s) (exec (classifySdd width v) t) := by
  have hunits := (unitsAlike_sddWord hp).1 h.units
  have hemit : ∀ {k : SddUnit → SddUnit},
      AnswersAlike (inPhase .sddWord s (sddEmit v s fun u => .next { u with sdd := k u.sdd }))
        (inPhase .sddWord t (sddEmit v t fun u => .next { u with sdd := k u.sdd })) := by
    intro k
    refine inPhase_alike fun _ => ?_
    rw [sddEmit, sddEmit, hunits]
    refine appendThen_alike h.output h.par_eq fun houtput => answersAlike_next ?_
    refine ⟨h.par_eq, h.phase_eq, h.cur_eq, houtput, h.input, (unitsAlike_sddWord ?_).2 rfl⟩
    exact hp
  unfold classifySdd
  split_ifs
  · refine inPhase_alike fun _ => answersAlike_next ⟨h.par_eq, h.phase_eq, h.cur_eq, h.output, h.input, ?_⟩
    refine (unitsAlike_sddWord ?_).2 ?_
    · exact hp
    · dsimp only
      rw [hunits]
  · exact hemit (k := fun u => { u with runCounter := u.maxRunLength })
  · exact hemit (k := countDown)

/-! ## Nibble-delta -/

theorem seeded_alike (hp : s.phase = .nduScan ∨ s.phase = .nduRun) {seed : Byte}
    (houtput : SameOutput (seeded seed s) (seeded seed t)) : Alike (seeded seed s) (seeded seed t) := by
  have hunits := (unitsAlike_ndu hp).1 h.units
  refine ⟨h.par_eq, h.phase_eq, h.cur_eq, houtput, h.input, (unitsAlike_ndu (s := seeded seed s) hp).2 ?_⟩
  change { t.ndu with accumulator := seed } = { s.ndu with accumulator := seed }
  rw [hunits]

/-- A literal goes to the output and the accumulator (R243). -/
theorem execNduLit_alike (b : Byte) : AnswersAlike (execNduLit b s) (execNduLit b t) :=
  inPhase_alike fun hp => appendThen_alike (s := { s with ndu := _ }) (t := { t with ndu := _ }) h.output h.par_eq
    fun houtput => answersAlike_next (seeded_alike h (.inl hp) houtput)

/-- The same byte written, into the output and the accumulator (R244, R245). -/
theorem nduSeed_alike (hp : s.phase = .nduScan ∨ s.phase = .nduRun) (seed : Byte)
    {k l : State → Host.Outcome State Fault Refusal}
    (hk : Alike (seeded seed s) (seeded seed t) → AnswersAlike (k (seeded seed s)) (l (seeded seed t))) :
    AnswersAlike (nduSeed seed s k) (nduSeed seed t l) :=
  appendThen_alike (s := { s with ndu := _ }) (t := { t with ndu := _ }) h.output h.par_eq fun houtput =>
    have hseeded := seeded_alike h hp houtput
    unlessFull_alike hseeded (hk hseeded)

/-- The state that the count chooses, after the same change of the unit in both (R244, R245). -/
theorem nduPhase_alike (hp : s.phase = .nduScan ∨ s.phase = .nduRun) (f : NduUnit → NduUnit) :
    Alike { s with ndu := f s.ndu, phase := nduPhase (f s.ndu).count }
      { t with ndu := f t.ndu, phase := nduPhase (f t.ndu).count } := by
  rw [(unitsAlike_ndu hp).1 h.units]
  exact ⟨h.par_eq, rfl, h.cur_eq, h.output, h.input, (unitsAlike_ndu (List.mem_pair.1 (nduPhase_mem _))).2 rfl⟩

theorem execNduEsc_alike (seed : Byte) (count : BitVec 16) :
    AnswersAlike (execNduEsc seed count s) (execNduEsc seed count t) :=
  inPhase_alike fun hp => nduSeed_alike h (.inl hp) seed fun hseeded =>
    answersAlike_next (nduPhase_alike hseeded (.inl hp) fun u => { u with count := count })

/-- One delta sample, the same in both (R245). -/
theorem nduDelta_alike (hp : s.phase = .nduRun) (n : Nibble) {k l : State → Host.Outcome State Fault Refusal}
    (hk : Alike (deltaOut n s) (deltaOut n t) → AnswersAlike (k (deltaOut n s)) (l (deltaOut n t))) :
    AnswersAlike (nduDelta n s k) (nduDelta n t l) := by
  have hunits := (unitsAlike_ndu (.inr hp)).1 h.units
  have hcounted : Alike (counted s) (counted t) := by
    refine ⟨h.par_eq, h.phase_eq, h.cur_eq, h.output, h.input, (unitsAlike_ndu (s := counted s) (.inr hp)).2 ?_⟩
    rw [counted, counted, hunits]
  rw [deltaOut, deltaOut, hunits] at hk
  change AnswersAlike (nduSeed (s.ndu.accumulator + nibbleDelta n) (counted s) k)
    (nduSeed (t.ndu.accumulator + nibbleDelta n) (counted t) l)
  rw [hunits]
  exact nduSeed_alike hcounted (.inr hp) _ hk

/-- A pair adds its nibbles in order, or the high one alone (R245, R247). -/
theorem execNduPair_alike (high low : Nibble) : AnswersAlike (execNduPair high low s) (execNduPair high low t) := by
  refine inPhase_alike fun hp => nduDelta_alike h hp high fun hfirst => ?_
  have hndu := (unitsAlike_ndu (s := deltaOut high s) (.inr hp)).1 hfirst.units
  rw [hndu]
  split_ifs
  · exact answersAlike_next
      ⟨hfirst.par_eq, rfl, hfirst.cur_eq, hfirst.output, hfirst.input, (unitsAlike_ndu (.inl rfl)).2 rfl⟩
  · exact nduDelta_alike hfirst hp low fun hsecond => answersAlike_next (nduPhase_alike hsecond (.inr hp) id)

end

end Sys2Proof.Proofs
end

section
/-! A command's result is a function of its arguments: two blocks alike stay alike step by step, and the four commands start
alike wherever the parameters and the input agree (R268, R270, R333). -/

namespace Sys2Proof.Proofs

open Sys2Proof.Machine Sys2Proof.Laws Sys2Proof.Safety

/-! ## The symbols' reads -/

section
variable {s t : State} (h : Alike s t)
include h

theorem fetchNode_alike (hp : s.phase = .hufNode) : FetchesAlike (fetchNode s) (fetchNode t) := by
  have hunits := (unitsAlike_huf (.inl hp)).1 h.units
  rw [fetchNode, fetchNode, hunits.count_eq]
  split_ifs with hcap
  · exact raiseStop_alike _ h
  · have hroom : s.huf.nodeCount.toNat < 256 := Nat.lt_of_not_le hcap
    have hcut : ∀ c, Alike (slotTaken { s with cur := c }) (slotTaken { t with cur := c }) := fun c =>
      slotTaken_alike (h.withCursor c) hp hroom
    refine reading_alike (by rw [h.par_eq, h.cur_eq, h.input.readBitsMsb_eq]) hcut fun v c1 => ?_
    refine readingBit_alike (h.withCursor c1) hcut fun l c2 h2 => readingBit_alike h2 hcut fun r c3 h3 => ?_
    exact exec_hufNode_alike h3 hp v l r

/-- The walk of a sample code reads the same slots and the same bits (R187). -/
theorem fetchPath_alike (hp : s.phase = .hufSample) (sign : Bool) (fuel : Nat) {node : NodeIdx}
    (hnode : node.toNat < s.huf.nodeCount.toNat) (taken : List Bool) :
    FetchesAlike (fetchPath sign fuel node taken s) (fetchPath sign fuel node taken t) := by
  induction fuel generalizing node taken s t with
  | zero => exact answersAlike_fault _ _
  | succ fuel ih =>
    have hunits := (unitsAlike_huf (.inr hp)).1 h.units
    have hsample := fun c path =>
      exec_hufSample_alike (h.withCursor c) hp (Nat.zero_lt_of_lt hnode) sign path
    rw [fetchPath, fetchPath, hunits.nodes_alike _ hnode]
    cases tableGet s.huf.nodes node.toNat with
    | none => exact answersAlike_fault _ _
    | some n =>
      dsimp only
      split_ifs
      · exact exec_hufSample_alike h hp (Nat.zero_lt_of_lt hnode) sign _
      · refine readingBit_alike h h.withCursor fun d c h' => ?_
        cases childOf n d with
        | none => exact hsample c _
        | some child =>
          dsimp only
          rw [hunits.count_eq]
          split_ifs with hout
          · exact hsample c _
          · exact ih h' hp (Nat.lt_of_not_le hout) _

theorem sddFull_alike (hsize : t.sdd.effSize = s.sdd.effSize) : AnswersAlike (sddFull s) (sddFull t) := by
  rw [sddFull, sddFull, hsize, h.par_eq]
  exact raiseStop_alike _ h

theorem fetchInit_alike (hp : s.phase = .sddInit) : FetchesAlike (fetchInit s) (fetchInit t) := by
  have hunits := (unitsAlike_sddInit hp).1 h.units
  have hsize : t.sdd.effSize = s.sdd.effSize := by rw [hunits]
  rw [fetchInit, fetchInit, hsize]
  split_ifs with hzero
  · exact sddFull_alike h hsize
  · exact readingLsb_alike h rfl fun a c h' => execSddInit_alike h' hzero _

theorem fetchWord_alike (hp : s.phase = .sddWord) : FetchesAlike (fetchWord s) (fetchWord t) := by
  have hunits := (unitsAlike_sddWord hp).1 h.units
  rw [fetchWord, fetchWord, hunits, h.output.len_eq]
  split_ifs
  · exact sddFull_alike h (by rw [hunits])
  · exact readingLsb_alike h rfl fun v c h' => exec_classifySdd_alike h' hp _ _

/-- An escape sequence, whole or cut short (R244, R248). -/
theorem fetchEsc_alike (hp : s.phase = .nduScan) : FetchesAlike (fetchEsc s) (fetchEsc t) := by
  refine readingByte_alike h fun seed c h' => ?_
  have hcut : ∀ c, FetchesAlike (.acted (nduSeed seed { s with cur := c } (raiseStop .exhausted)))
      (.acted (nduSeed seed { t with cur := c } (raiseStop .exhausted))) := fun c =>
    nduSeed_alike (h.withCursor c) (.inl hp) seed (raiseStop_alike _)
  by_cases hfull : s.par.reqSize.toNat ≤ s.outLen.toNat + 1
  · have hfull' : t.par.reqSize.toNat ≤ t.outLen.toNat + 1 := by rwa [h.par_eq, h.output.len_eq]
    rw [if_pos hfull, if_pos hfull']
    exact nduSeed_alike h' (.inl hp) seed answersAlike_next
  · have hmore : ¬ t.par.reqSize.toNat ≤ t.outLen.toNat + 1 := by rwa [h.par_eq, h.output.len_eq]
    rw [if_neg hfull, if_neg hmore]
    dsimp only
    rw [h.fetchByte_eq c]
    cases fetchByte s.inSpace s.par.inLen c with
    | exhausted c1 => exact hcut c1
    | value hi c1 =>
      dsimp only
      rw [h.fetchByte_eq c1]
      cases fetchByte s.inSpace s.par.inLen c1 with
      | exhausted c2 => exact hcut c2
      | value lo c2 => exact execNduEsc_alike (h.withCursor c2) seed _

theorem fetchScan_alike (hp : s.phase = .nduScan) : FetchesAlike (fetchScan s) (fetchScan t) := by
  refine atLoopHead_alike h fun _ => readingByte_alike h fun b c h' => ?_
  by_cases hesc : b = s.par.escape
  · have hesc' : b = t.par.escape := by rwa [h.par_eq]
    rw [if_pos hesc, if_pos hesc']
    exact fetchEsc_alike h' hp
  · have hlit : ¬ b = t.par.escape := by rwa [h.par_eq]
    rw [if_neg hesc, if_neg hlit]
    exact execNduLit_alike h' b

end

/-! ## The step and the run -/

/-- From states alike the engine's steps lead to states alike (R270). -/
theorem engineStep_alike {s t : State} (h : Alike s t) (hs : RunInv s) :
    AnswersAlike (engineStep s) (engineStep t) := by
  rw [engineStep_eq_enact, engineStep_eq_enact, fetchStream, fetchStream, h.phase_eq]
  cases hp : s.phase with
  | idle => exact answersAlike_next h
  | lzwCode =>
    have hwidth := ((unitsAlike_lzw hp).1 h.units).width_eq
    exact atLoopHead_alike h fun hroom => readingLsb_alike h (by rw [hwidth]) fun code c h' =>
      exec_classifyLzw_alike h' hp hs.lzw code hroom
  | hufNode => exact fetchNode_alike h hp
  | hufSample =>
    obtain ⟨hcount, _⟩ := hs.huf.2 hp
    exact atLoopHead_alike h fun _ => readingBit_alike h h.withCursor fun sign c h' =>
      fetchPath_alike (node := 0) h' hp sign _ hcount []
  | sddHdr => exact readingByte_alike h fun m c h' => execSddHdr_alike h' m
  | sddInit => exact fetchInit_alike h hp
  | sddWord => exact fetchWord_alike h hp
  | nduScan => exact fetchScan_alike h hp
  | nduRun => exact readingByte_alike h fun p c h' => execNduPair_alike h' _ _

/-- States alike stay alike along a run of the engine (R270). -/
theorem run_alike {n : Nat} {s t : State} (h : Alike s t) (hs : RunInv s) (hhost : s.host = []) (hhost' : t.host = []) :
    AnswersAlike (run n s) (run n t) := by
  induction n generalizing s t with
  | zero => exact answersAlike_next h
  | succ n ih =>
    rw [run, run, step_eq_engineStep hhost, step_eq_engineStep hhost']
    cases hu : engineStep s with
    | fault f => exact answersAlike_fault f _
    | refused r => exact answersAlike_refused r _
    | next u =>
      cases hv : engineStep t with
      | fault f => rintro _ _ _ ⟨⟩
      | refused r => rintro _ _ _ ⟨⟩
      | next v =>
        exact ih (engineStep_alike h hs u v hu hv) (engineStep_runInv hs u hu) ((engineStep_host hu).trans hhost)
          ((engineStep_host hv).trans hhost')

/-! ## The commands -/

/-- What the four commands start in (R262 to R265). -/
def commandStarts : List (State → State) := [startLzw, startHuf, startSdd, startNdu]

theorem exec_command {i : Instr} (hi : i ∈ [Instr.decLzw, .decHuf, .decSdd, .decNdu]) :
    ∃ start ∈ commandStarts, ∀ s, exec i s = issue s (start s) := by
  simp only [List.mem_cons, List.not_mem_nil, or_false] at hi
  rcases hi with rfl | rfl | rfl | rfl
  · exact ⟨startLzw, by simp [commandStarts], fun _ => rfl⟩
  · exact ⟨startHuf, by simp [commandStarts], fun _ => rfl⟩
  · exact ⟨startSdd, by simp [commandStarts], fun _ => rfl⟩
  · exact ⟨startNdu, by simp [commandStarts], fun _ => rfl⟩

section
variable {start : State → State} (hstart : start ∈ commandStarts)
include hstart

theorem start_cases (s : State) :
    start s = startLzw s ∨ start s = startHuf s ∨ start s = startSdd s ∨ start s = startNdu s := by
  simp only [commandStarts, List.mem_cons, List.not_mem_nil, or_false] at hstart
  rcases hstart with rfl | rfl | rfl | rfl <;> simp

/-- A command launched by an idle block meets the invariant of a run, whatever the tables hold (R333). -/
theorem start_runInv {s : State} (hs : Quiet s) : RunInv (start s) := by
  obtain ⟨hbusy, hidle, _⟩ := hs
  have hstatus : StatusInv s := statusInv_of_ended ⟨hidle, hbusy⟩
  have hlaunched : Accessed s (start s) := .launched _ hbusy (start_cases hstart s)
  exact ⟨cursorInv_launched (start_cases hstart s), outputInv_launched (start_cases hstart s),
    hlaunched.lzwInv hstatus (lzwInv_idle hidle), hlaunched.hufInv (hufInv_idle hidle),
    hlaunched.sddInv hstatus (sddInv_idle hidle), hlaunched.nduInv hstatus (nduInv_idle hidle)⟩

/-- A command starts with no bits held. -/
theorem start_bitsLeft (s : State) : bitsLeft (start s) ≤ 8 * s.par.inLen.toNat := by
  have hfresh : ∀ pos : Word, 0 + 8 * (s.par.inLen.toNat - pos.toNat) ≤ 8 * s.par.inLen.toNat := fun _ => by omega
  rcases start_cases hstart s with h | h | h | h <;> rw [h] <;> exact hfresh _

theorem start_host (s : State) : (start s).host = s.host := by
  rcases start_cases hstart s with h | h | h | h <;> rw [h] <;> rfl

/-- Each command starts from the parameters and sets the registers that it goes on to read (R45, R333). -/
theorem start_alike {s t : State} (h : SameArguments s t) (hwf : s.outSpace.wf = true) (hwf' : t.outSpace.wf = true) :
    Alike (start s) (start t) := by
  obtain ⟨hpar, hinput⟩ := h
  have hbytes : SameBytes s.par.inLen t.inSpace s.inSpace := sameBytes_of_agree fun i hi => (hinput i hi).symm
  have houtput : ∀ {u v : State}, u.outSpace = s.outSpace → v.outSpace = t.outSpace → u.outLen = 0 → v.outLen = 0 →
      SameOutput u v := by
    intro u v hu hv hzero hzero'
    rw [SameOutput, outputOf, outputOf, hu, hv, hzero, hzero']
    exact ⟨rfl, hwf, hwf'⟩
  simp only [commandStarts, List.mem_cons, List.not_mem_nil, or_false] at hstart
  rcases hstart with rfl | rfl | rfl | rfl
  · refine ⟨hpar.symm, rfl, ?_, houtput rfl rfl rfl rfl, hbytes, rfl, rfl, rfl, fun i hlo hhi => ?_⟩
    · rw [startLzw_cur, startLzw_cur, hpar]
    · have hlt : i < 257 := hhi
      omega
  · refine ⟨hpar.symm, rfl, ?_, houtput rfl rfl rfl rfl, hbytes, rfl, rfl, rfl, fun i hi => ?_⟩
    · rw [startHuf_cur, startHuf_cur, hpar]
    · exact absurd hi (Nat.not_lt_zero i)
  · refine ⟨hpar.symm, rfl, ?_, houtput rfl rfl rfl rfl, hbytes, trivial⟩
    rw [startSdd_cur, startSdd_cur, hpar]
  · exact ⟨hpar.symm, rfl, rfl, houtput rfl rfl rfl rfl, hbytes, rfl⟩

end

/-- Settles O60: the command starts alike in both blocks, stops in both, and the runs stay alike step by step up to the
recorded results. -/
theorem resultDependsOnArgumentsAlone : Obligations.ResultDependsOnArgumentsAlone := by
  intro s t hs ht hlaunch hlaunch' hsame hwf hwf' i hi
  obtain ⟨start, hstart, hexec⟩ := exec_command hi
  have halike := start_alike hstart hsame hwf hwf'
  have hrunInv := start_runInv hstart hs
  have hhost := (start_host hstart s).trans hs.2.2
  have hhost' := (start_host hstart t).trans ht.2.2
  obtain ⟨s2, hs2, hidle⟩ := run_stops hrunInv hhost (Nat.lt_succ_of_le (start_bitsLeft hstart s))
  obtain ⟨t2, ht2, hidle'⟩ := run_stops (start_runInv hstart ht) hhost' (Nat.lt_succ_of_le (start_bitsLeft hstart t))
  rw [← hsame.1] at ht2
  have hend : Alike s2 t2 := run_alike halike hrunInv hhost hhost' s2 t2 hs2 ht2
  exact ⟨start s, start t, s2, t2, (hexec s).trans (issue_of_mayLaunch _ hlaunch),
    (hexec t).trans (issue_of_mayLaunch _ hlaunch'), hs2, ht2, hidle, hidle', hend.resultOf_eq hidle⟩

end Sys2Proof.Proofs
end

section
/-! The stop: what it records whichever command it ends, the full test of a loop head before any read, and that nothing else
can go wrong in the engine's step (R290 to R300). -/

namespace Sys2Proof.Proofs

open Sys2Proof.Machine Sys2Proof.Laws Sys2Proof.Safety

/-! ## `CONSUMED` by the running command's formula -/

section
variable {s : State}

/-- `DEC_LZW` rounds its bytes up (R167). -/
theorem consumedFor_lzwCode (hp : s.phase = .lzwCode) : consumedFor s = roundUp4 (bytesRead s) := by
  rw [consumedFor, hp]

/-- `DEC_HUF` counts its bytes as they are (R192). -/
theorem consumedFor_huf (hp : s.phase = .hufNode ∨ s.phase = .hufSample) : consumedFor s = bytesRead s := by
  rcases hp with hp | hp <;> rw [consumedFor, hp]

/-- Without its header `DEC_SDD` has consumed nothing (R221). -/
theorem consumedFor_sddHdr (hp : s.phase = .sddHdr) : consumedFor s = 0 := by
  rw [consumedFor, hp]

/-- After its header `DEC_SDD` counts it and the rounded bit region (R221). -/
theorem consumedFor_region (hp : s.phase = .sddInit ∨ s.phase = .sddWord) :
    consumedFor s = 1 + roundUp4 (s.cur.bytePos.toNat - s.sdd.regionStart.toNat) := by
  rcases hp with hp | hp <;> rw [consumedFor, hp]

/-- At the start of the bit region that is the header alone (R221). -/
theorem consumedFor_regionStart (hp : s.phase = .sddInit) (hpos : s.cur.bytePos = s.sdd.regionStart) :
    consumedFor s = 1 := by
  rw [consumedFor_region (.inl hp), hpos, Nat.sub_self]
  rfl

/-- `DEC_NDU` answers its position (R249). -/
theorem consumedFor_ndu (hp : s.phase = .nduScan ∨ s.phase = .nduRun) : consumedFor s = s.cur.bytePos.toNat := by
  rcases hp with hp | hp <;> rw [consumedFor, hp]

end

/-- Settles O16: a running command's stop leaves `stopped`, and `CONSUMED` is by the formula of its phase. -/
theorem stopRecordsTheResult : Obligations.StopRecordsTheResult := fun cause s hrun =>
  ⟨stopped cause s, consumedFor s, raiseStop_running hrun, stopped_stoppedAs cause s, consumedFor_lzwCode,
    consumedFor_huf, consumedFor_sddHdr, consumedFor_region, consumedFor_ndu⟩

/-! ## The full test of a loop head -/

/-- Before its next read the command tests the whole request for `FULL`: at the loop heads of R153, R186 and R242, and in the
bit region of `DEC_SDD` where the clamp left the request as it was, before the initial value only for a request of 0 (R214,
R220). -/
def TestsFull (s : State) : Prop :=
  s.phase = .lzwCode ∨ s.phase = .hufSample ∨ s.phase = .nduScan ∨
    (s.phase = .sddWord ∧ s.sdd.effSize = s.par.reqSize) ∨
    (s.phase = .sddInit ∧ s.sdd.effSize = s.par.reqSize ∧ s.par.reqSize = 0)

section
variable {s : State}

theorem TestsFull.running (h : TestsFull s) : s.phase ≠ .idle := by
  rcases h with hp | hp | hp | ⟨hp, _⟩ | ⟨hp, _⟩ <;> simp [hp]

theorem atLoopHead_full {k : Fetched} (hfull : s.outLen = s.par.reqSize) :
    atLoopHead s k = .acted (raiseStop .full s) := by
  rcases atLoopHead_cases s k with ⟨_, he⟩ | ⟨hroom, _⟩
  · exact he
  · exact absurd hroom (by simp [hfull])

/-- Where the clamp left the request as it was, the stop of the loop head is `FULL` (R220). -/
theorem sddFull_unclamped (heff : s.sdd.effSize = s.par.reqSize) : sddFull s = raiseStop .full s := by
  rw [sddFull, if_pos heff]

/-- With the output full the test comes before any read (R291). -/
theorem fetchStream_full (h : TestsFull s) (hfull : s.outLen = s.par.reqSize) :
    fetchStream s = .acted (raiseStop .full s) := by
  rcases h with hp | hp | hp | ⟨hp, heff⟩ | ⟨hp, heff, hzero⟩
  · rw [fetchStream, hp]
    exact atLoopHead_full hfull
  · rw [fetchStream, hp]
    exact atLoopHead_full hfull
  · rw [fetchStream_nduScan hp]
    exact atLoopHead_full hfull
  · rw [fetchStream_sddWord hp, fetchWord, if_pos (by rw [heff, hfull]), sddFull_unclamped heff]
  · rw [fetchStream_sddInit hp, fetchInit, if_pos (by rw [heff, hzero]; rfl), sddFull_unclamped heff]

/-- With the whole request in the output a stop is a `Success`, unless the tree was invalid (R296). -/
theorem stopped_success {cause : StopCause} (hcause : cause ≠ .invalidTree) (hfull : s.outLen = s.par.reqSize) :
    (stopped cause s).status.outcome = .success := by
  rw [stopped_status, statusAtStop, outcomeOf, if_neg hcause, if_pos hfull]

end

/-- Settles O17: the fetch stops before it reads, and the stop records `CONSUMED` by the formula of its phase. -/
theorem fullIsTestedBeforeAnyRead : Obligations.FullIsTestedBeforeAnyRead := by
  intro s hhost hhead hfull
  have hstep : step s = .next (stopped .full s) :=
    (step_of_acted hhost (fetchStream_full hhead hfull)).trans (raiseStop_running (TestsFull.running hhead))
  exact ⟨_, _, hstep, stopped_stoppedAs .full s, stopped_success (by decide) hfull, consumedFor_lzwCode,
    fun hp => consumedFor_huf (.inr hp), consumedFor_region, consumedFor_regionStart, fun hp => consumedFor_ndu (.inl hp)⟩

/-! ## The engine's step -/

/-- Settles O55: an idle engine stays as it is, and a running command runs its next symbol or ends. -/
theorem engineNeverFaults : Obligations.EngineNeverFaults := by
  intro s hinv hhost
  rw [step_eq_engineStep hhost]
  by_cases hidle : s.phase = .idle
  · exact ⟨s, engineStep_idle hidle⟩
  · obtain ⟨t, ht, _⟩ := engineStep_progresses (runInv_of_inv hinv) hidle
    exact ⟨t, ht⟩

end Sys2Proof.Proofs
end

section
/-! The reset input, and the launches that the host must not make (R44, R330, U3, U6, U7). -/

namespace Sys2Proof.Proofs

open Sys2Proof.Machine Sys2Proof.Laws Sys2Proof.Safety

/-! ## The reset input -/

/-- With the reset input asserted the step is the reset, in the state with the action off the list (R330). -/
theorem step_assertReset {s : State} {rest : List HostAction} (h : s.host = .assertReset :: rest) :
    step s = .next (resetBlock (withHost rest s)) := by
  rw [step, fetch_host h]
  rfl

/-- Every register that R44 names stands after the reset input as in `State.reset`. -/
theorem resetBlock_resetValues (s : State) : ResetValues (resetBlock s) := resetStateIsSound.1

/-- Settles O1: the step is the reset, which takes the registers from `State.reset` and keeps the spaces and the host's list. -/
theorem resetInputResetsTheBlock : Obligations.ResetInputResetsTheBlock := fun _ _ hhost =>
  ⟨_, step_assertReset hhost, resetBlock_resetValues _, resetBlock_inSpace _, resetBlock_outSpace _, resetBlock_host _⟩

/-! ## The launches that are refused -/

/-- The ports collide where two ranges that are not empty meet in one memory (R79, U6). -/
theorem portsCollide_iff {s : State} :
    portsCollide s = true ↔ s.ports.oneMemory = true ∧ 0 < s.par.inLen.toNat ∧ 0 < s.par.reqSize.toNat ∧
      s.ports.inBase < s.ports.outBase + s.par.reqSize.toNat ∧
      s.ports.outBase < s.ports.inBase + s.par.inLen.toNat := by
  simp only [portsCollide, Bool.and_eq_true, decide_eq_true_eq, and_assoc]

/-- Each command is an issue, with a start state of its own (R262 to R265). -/
theorem exec_command_eq_issue {i : Instr} (hi : i ∈ [Instr.decLzw, .decHuf, .decSdd, .decNdu]) (s : State) :
    ∃ start, exec i s = issue s start := by
  simp only [List.mem_cons, List.not_mem_nil, or_false] at hi
  rcases hi with rfl | rfl | rfl | rfl
  · exact ⟨startLzw s, rfl⟩
  · exact ⟨startHuf s, rfl⟩
  · exact ⟨startSdd s, rfl⟩
  · exact ⟨startNdu s, rfl⟩

section
variable {s : State} (hidle : s.status.busy = false) (start : State)
include hidle

/-- The first test of an issue (U3). -/
theorem issue_inLenAboveContract (hlen : Config.maxInLen < s.par.inLen.toNat) :
    issue s start = .refused .inLenAboveContract := by
  rw [issue, if_neg (by simp [hidle]), if_pos hlen]

/-- The second test, where the first finds nothing (U6; the order: logs 11, 13). -/
theorem issue_portsOverlap (hlen : s.par.inLen.toNat ≤ Config.maxInLen) (hcollide : portsCollide s = true) :
    issue s start = .refused .portsOverlap := by
  rw [issue, if_neg (by simp [hidle]), if_neg (Nat.not_lt.2 hlen), if_pos hcollide]

/-- The third test, where the first two find nothing (U7). -/
theorem issue_outputRoomTooSmall (hlen : s.par.inLen.toNat ≤ Config.maxInLen) (hapart : ¬ portsCollide s = true)
    (hroom : s.ports.outRoom < s.par.reqSize.toNat) : issue s start = .refused .outputRoomTooSmall := by
  rw [issue, if_neg (by simp [hidle]), if_neg (Nat.not_lt.2 hlen), if_neg hapart, if_pos hroom]

end

/-- Settles O15: each clause is one test of the issue, with the tests before it passed. -/
theorem badLaunchIsRefused : Obligations.BadLaunchIsRefused := by
  intro s hidle i hi
  obtain ⟨start, hexec⟩ := exec_command_eq_issue hi s
  rw [hexec]
  refine ⟨issue_inLenAboveContract hidle start, fun hlen hone hin hreq hbelow habove => ?_,
    fun hlen hranges hroom => ?_⟩
  · exact issue_portsOverlap hidle start hlen (portsCollide_iff.2 ⟨hone, hin, hreq, hbelow, habove⟩)
  · have hapart : ¬ portsCollide s = true := by
      intro hcollide
      obtain ⟨hone, hmeet⟩ := portsCollide_iff.1 hcollide
      have hempty := hranges hone
      omega
    exact issue_outputRoomTooSmall hidle start hlen hapart hroom

end Sys2Proof.Proofs
end
